-- ==== Sys2Proof/Word.lean ====
section
/-! DEFINITION. The word types. R12 (00_scope.md): a byte is 8 bits and bit `k` has weight `2^k`; R81
(30_encoding.md): the 16-bit fields of packets. -/

namespace Sys2Proof

/-- A byte (R12). -/
abbrev Byte := BitVec 8

/-- A 16-bit packet field, `s16` or `u16` (R81); which of the two it is is the reader's business (R102). -/
abbrev Half := BitVec 16

end Sys2Proof
end

