-- ==== Sys2Proof/Syntax.lean ====
section
/-! DEFINITION. The eleven host operations (R82, 30_encoding.md), one constructor per row of
opcode_table.json. Operands stand in the order of the spec's one-line syntax (R96), `on` last; coordinates and
indices are the 16-bit fields of the packet (R81), read as integers where they are used (R102). -/

namespace Sys2Proof

/-- A host operation with its operands. -/
inductive Instr where
  /-- `INIT` (R83, R120) -/
  | init
  /-- `SETPIX x, y, on` (R84, R144) -/
  | setpix (x y : Half) (on : Bool)
  /-- `LINE x0, y0, x1, y1, on` (R85, R162) -/
  | line (x0 y0 x1 y1 : Half) (on : Bool)
  /-- `WCHAR x, y, ch` (R86, R187) -/
  | wchar (x y : Half) (ch : Byte)
  /-- `WSTR x, y, text` (R88, R188); `n` is the text's length -/
  | wstr (x y : Half) (text : List Byte)
  /-- `RENDER start_col, end_col, start_page, end_page` (R87, R204) -/
  | render (startCol endCol startPage endPage : Byte)
  /-- `SCROLL enabled` (R89, R123) -/
  | scroll (enabled : Bool)
  /-- `FBWR idx, data` (R90, R146) -/
  | fbwr (idx : Half) (data : Byte)
  /-- `FBRD idx` (R91, R147) -/
  | fbrd (idx : Half)
  /-- `FBFILL data` (R92, R148) -/
  | fbfill (data : Byte)
  /-- `GEOM` (R93, R149) -/
  | geom
deriving DecidableEq, Repr

end Sys2Proof
end

