-- ==== Sys2Proof/Config.lean ====
section
/-! DEFINITION. The constants of one CORE (R6, R9, R29) as plain data, and the values the spec leaves free.
`Params` is fixed for a CORE; it stands in `State` so that one step function serves every CORE the spec admits
(log 3). The free values are opaque: nothing can be proved of the value they have. -/

namespace Sys2Proof

/-- An element of a bring-up group's argument list: a byte the parameter gives, or one of the two values the
source fixes (R116, R117, R118). -/
inductive InitByte where
  /-- a byte of the parameter -/
  | lit (b : Byte)
  /-- the multiplex ratio `H - 1` (R117) -/
  | muxRatio
  /-- the COM-pin value `COMPINS(W, H)` (R118) -/
  | comPins
deriving DecidableEq, Repr

/-- One group of the bring-up sequence: "one command byte followed by that command's argument bytes if it has
any" (R116). -/
structure InitGroup where
  cmd : Byte
  args : List InitByte
deriving DecidableEq, Repr

/-- The 17 groups of R116, in its order and under the source's names (log 17). -/
structure InitTable where
  displayOff : InitGroup
  addressingMode : InitGroup
  startLine : InitGroup
  segmentRemap : InitGroup
  multiplexRatio : InitGroup
  comScanDirection : InitGroup
  displayOffset : InitGroup
  comPinConfig : InitGroup
  clockDivide : InitGroup
  preCharge : InitGroup
  vcomhLevel : InitGroup
  contrast : InitGroup
  entireDisplayOn : InitGroup
  normalPolarity : InitGroup
  chargePump : InitGroup
  scrollOff : InitGroup
  displayOn : InitGroup
deriving DecidableEq, Repr

/-- An element of a scroll sequence: a byte the parameter gives, or one of the three constants the source fixes
(R10, R122; log 18). -/
inductive ScrollByte where
  /-- a byte of the parameter -/
  | lit (b : Byte)
  /-- start page, always 0 -/
  | startPage
  /-- end page, always 3 -/
  | endPage
  /-- time interval, always 0 -/
  | interval
deriving DecidableEq, Repr

/-- `COMPINS` (R118): "a finite table of recognised geometries plus one fallback value for every other
geometry". -/
structure ComPinsTable where
  known : List ((Nat × Nat) × Byte)
  fallback : Byte
deriving DecidableEq, Repr

/-- The read-only constants of one CORE: geometry (R6) and tables (R9, R29). -/
structure Params where
  /-- `W`, the panel width in pixels (R6) -/
  width : Nat
  /-- `H`, the panel height in pixels (R6) -/
  height : Nat
  /-- `DEV_ADDR` (R111); the source gives no width, so it is a number (log 22) -/
  devAddr : Nat
  /-- the groups of `INIT_SEQ` (R116) -/
  initTable : InitTable
  /-- `COMPINS` (R118) -/
  comPins : ComPinsTable
  /-- `SCROLL_SEQ(1)` (R122) -/
  scrollOn : List ScrollByte
  /-- `SCROLL_SEQ(0)` (R122) -/
  scrollOff : List ScrollByte
  /-- `CMD_COLADDR` (R203) -/
  cmdColAddr : Byte
  /-- `CMD_PAGEADDR` (R203) -/
  cmdPageAddr : Byte
  /-- `GLYPH`, 37 rows of 8 column bytes (R180) -/
  glyph : List (List Byte)
deriving DecidableEq, Repr

/-- FREE VALUE (log 7): the byte that framebuffer index `i` holds after reset number `epoch` until it is written,
"a draw, under no law" (R46). -/
opaque Config.fbDraw (epoch i : Nat) : Byte

/-- FREE VALUE (log 8): byte `i` of glyph `g` of the reference instance; `GLYPH` has no default (R180). -/
opaque Config.glyphByte (g i : Nat) : Byte

/-- FREE VALUE (log 16): `FINFO` byte `i2` of an illegal packet of `len` bytes when `len div 256` is no byte
(R221 states none for `len ≥ 65536`). -/
opaque Config.oversizeLengthByte (len : Nat) : Byte

end Sys2Proof
end

