-- ==== Sys2Proof/WellFormed.lean ====
section
/-! DEFINITION. What is well-formed: an operation as an encoding (R88), a geometry (R7) and the constant tables
(R116 to R118, R122, R180, R183). -/

namespace Sys2Proof

/-- Every operand but a string is bounded by its type; a string has at most `LMAX = 255` characters (R11, R88). -/
def Instr.wf : Instr → Bool
  | .wstr _ _ text => decide (text.length ≤ 255)
  | .init | .setpix .. | .line .. | .wchar .. | .render .. | .scroll .. => true
  | .fbwr .. | .fbrd .. | .fbfill .. | .geom => true

/-- R7: `8 <= W <= 256`, `8 <= H <= 256`, `H mod 8 = 0`. -/
def Params.geometryOk (p : Params) : Bool :=
  decide (8 ≤ p.width) && decide (p.width ≤ 256) && decide (8 ≤ p.height) && decide (p.height ≤ 256)
    && decide (p.height % 8 = 0)

/-- R117, R118: group 5 carries `H - 1` and group 8 carries `COMPINS(W, H)`; the 17 groups and their order are the
type's (R116). -/
def InitTable.wf (t : InitTable) : Bool :=
  t.multiplexRatio.args.contains .muxRatio && t.comPinConfig.args.contains .comPins

/-- R122: "when enabling, page range and timing interval are fixed constants"; a sequence for each boolean,
the disabling one not empty (log 25). -/
def Params.scrollOk (p : Params) : Bool :=
  p.scrollOn.contains .startPage && p.scrollOn.contains .endPage && p.scrollOn.contains .interval
    && !p.scrollOff.isEmpty

/-- R180: 37 glyphs of 8 bytes; R183 (a): the blank is eight zero bytes; (b): the glyph of 'A' is not the blank. -/
def Params.glyphOk (p : Params) : Bool :=
  decide (p.glyph.length = 37) && p.glyph.all (fun row => decide (row.length = 8))
    && decide (p.glyph[0]? = some (List.replicate 8 0#8)) && decide (p.glyph[1]? ≠ p.glyph[0]?)

/-- The constants are those of a CORE the spec admits. -/
def Params.wf (p : Params) : Bool :=
  p.geometryOk && p.initTable.wf && p.scrollOk && p.glyphOk

end Sys2Proof
end

