-- ==== Sys2Proof/Decode.lean ====
section
/-! DEFINITION. Host packets to operations and back (30_encoding.md R80 to R94, R102). Decoding is total on byte
lists; an illegal packet is named by the clause of R94 that it breaks. -/

namespace Sys2Proof

/-- `{hi, lo}` (R13, R102): the 16-bit field whose low byte comes first in the packet. -/
def half (lo hi : Byte) : Half := hi ++ lo

/-- The low byte of a 16-bit value, first in a packet (R81). -/
def loByte (v : Half) : Byte := v.extractLsb' 0 8

/-- The high byte of a 16-bit value. -/
def hiByte (v : Half) : Byte := v.extractLsb' 8 8

/-- Why a packet is illegal: the clauses (a) to (d) of R94. -/
inductive Illegal where
  /-- (a) the packet is empty -/
  | emptyPacket
  /-- (b) byte 0 is not one of `0x01` to `0x0B` -/
  | badOpcode (op : Byte)
  /-- (c) the length is not the required length of R82 -/
  | badLength (op : Byte) (len : Nat)
  /-- (d) an `fl` byte has one of bits 7 to 1 set -/
  | reservedFlagBits (fl : Byte)
deriving DecidableEq, Repr

/-- What a packet is: one of the eleven operations, or illegal (R94). -/
inductive Decoded where
  | instr (i : Instr)
  | illegal (r : Illegal)
deriving DecidableEq, Repr

/-- The opcodes of R82. -/
def opcode : Instr → Byte
  | .init => 0x01#8
  | .setpix .. => 0x02#8
  | .line .. => 0x03#8
  | .wchar .. => 0x04#8
  | .wstr .. => 0x05#8
  | .render .. => 0x06#8
  | .scroll .. => 0x07#8
  | .fbwr .. => 0x08#8
  | .fbrd .. => 0x09#8
  | .fbfill .. => 0x0A#8
  | .geom => 0x0B#8

/-- The required packet length (R80, R82) of an opcode, given the value of byte 5 (which only `WSTR` looks at,
R88); none for a value that is no opcode. -/
def requiredLength (op : Byte) (byte5 : Nat) : Option Nat :=
  match op.toNat with
  | 1 => some 1
  | 2 => some 6
  | 3 => some 10
  | 4 => some 6
  | 5 => some (6 + byte5)
  | 6 => some 5
  | 7 => some 2
  | 8 => some 4
  | 9 => some 3
  | 10 => some 2
  | 11 => some 1
  | _ => none

/-- An `fl` byte (R81): bit 0 is the boolean operand; bits 7 to 1 must be 0 (R94 (d)). -/
def withFlag (fl : Byte) (make : Bool → Instr) : Decoded :=
  if fl &&& 0xFE#8 = 0x00#8 then .instr (make (fl.getLsbD 0)) else .illegal (.reservedFlagBits fl)

/-- R83. -/
def decodeInit : List Byte → Decoded
  | [] => .instr .init
  | rest => .illegal (.badLength 0x01#8 (rest.length + 1))

/-- R84. -/
def decodeSetpix : List Byte → Decoded
  | [fl, x0, x1, y0, y1] => withFlag fl (.setpix (half x0 x1) (half y0 y1))
  | rest => .illegal (.badLength 0x02#8 (rest.length + 1))

/-- R85. -/
def decodeLine : List Byte → Decoded
  | [fl, a0, a1, b0, b1, c0, c1, d0, d1] =>
    withFlag fl (.line (half a0 a1) (half b0 b1) (half c0 c1) (half d0 d1))
  | rest => .illegal (.badLength 0x03#8 (rest.length + 1))

/-- R86. -/
def decodeWchar : List Byte → Decoded
  | [x0, x1, y0, y1, ch] => .instr (.wchar (half x0 x1) (half y0 y1) ch)
  | rest => .illegal (.badLength 0x04#8 (rest.length + 1))

/-- R88: byte 5 counts the characters that follow it. -/
def decodeWstr : List Byte → Decoded
  | x0 :: x1 :: y0 :: y1 :: n :: text =>
    if text.length = n.toNat then .instr (.wstr (half x0 x1) (half y0 y1) text)
    else .illegal (.badLength 0x05#8 (text.length + 6))
  | rest => .illegal (.badLength 0x05#8 (rest.length + 1))

/-- R87. -/
def decodeRender : List Byte → Decoded
  | [sc, ec, sp, ep] => .instr (.render sc ec sp ep)
  | rest => .illegal (.badLength 0x06#8 (rest.length + 1))

/-- R89. -/
def decodeScroll : List Byte → Decoded
  | [fl] => withFlag fl .scroll
  | rest => .illegal (.badLength 0x07#8 (rest.length + 1))

/-- R90. -/
def decodeFbwr : List Byte → Decoded
  | [i0, i1, data] => .instr (.fbwr (half i0 i1) data)
  | rest => .illegal (.badLength 0x08#8 (rest.length + 1))

/-- R91. -/
def decodeFbrd : List Byte → Decoded
  | [i0, i1] => .instr (.fbrd (half i0 i1))
  | rest => .illegal (.badLength 0x09#8 (rest.length + 1))

/-- R92. -/
def decodeFbfill : List Byte → Decoded
  | [data] => .instr (.fbfill data)
  | rest => .illegal (.badLength 0x0A#8 (rest.length + 1))

/-- R93. -/
def decodeGeom : List Byte → Decoded
  | [] => .instr .geom
  | rest => .illegal (.badLength 0x0B#8 (rest.length + 1))

/-- The decoder: "the opcode alone decides" the format (R80, R82). -/
def decode : List Byte → Decoded
  | [] => .illegal .emptyPacket
  | op :: ops =>
    match op.toNat with
    | 1 => decodeInit ops
    | 2 => decodeSetpix ops
    | 3 => decodeLine ops
    | 4 => decodeWchar ops
    | 5 => decodeWstr ops
    | 6 => decodeRender ops
    | 7 => decodeScroll ops
    | 8 => decodeFbwr ops
    | 9 => decodeFbrd ops
    | 10 => decodeFbfill ops
    | 11 => decodeGeom ops
    | _ => .illegal (.badOpcode op)

/-- An `fl` byte: the boolean in bit 0, the reserved bits 0 (R81). -/
def flagByte (b : Bool) : Byte := if b then 0x01#8 else 0x00#8

/-- A 16-bit field as its two packet bytes, low byte first (R81). -/
def halfBytes (v : Half) : List Byte := [loByte v, hiByte v]

/-- The encoder, from the format tables R83 to R93. -/
def encode : Instr → List Byte
  | .init => [0x01#8]
  | .setpix x y on => [0x02#8, flagByte on] ++ halfBytes x ++ halfBytes y
  | .line x0 y0 x1 y1 on =>
    [0x03#8, flagByte on] ++ halfBytes x0 ++ halfBytes y0 ++ halfBytes x1 ++ halfBytes y1
  | .wchar x y ch => [0x04#8] ++ halfBytes x ++ halfBytes y ++ [ch]
  | .wstr x y text => [0x05#8] ++ halfBytes x ++ halfBytes y ++ [BitVec.ofNat 8 text.length] ++ text
  | .render sc ec sp ep => [0x06#8, sc, ec, sp, ep]
  | .scroll enabled => [0x07#8, flagByte enabled]
  | .fbwr idx data => [0x08#8] ++ halfBytes idx ++ [data]
  | .fbrd idx => [0x09#8] ++ halfBytes idx
  | .fbfill data => [0x0A#8, data]
  | .geom => [0x0B#8]

/-- Byte `k` of the opcode table's number for a packet: bit 0 of the number is bit 0 of byte 0. -/
def tableByte (w k : Nat) : Byte := BitVec.ofNat 8 (w / 2 ^ (8 * k))

/-- The packet that the table's number stands for: the `nbits` given bits as whole bytes, byte 0 lowest, then zero
bytes up to the length the opcode requires (log 21). -/
def tablePacket (nbits w : Nat) : List Byte :=
  let v := w % 2 ^ nbits
  let need := (requiredLength (tableByte v 0) (tableByte v 5).toNat).getD 0
  (List.range (max ((nbits + 7) / 8) need)).map (tableByte v)

/-- The operation the decoder reads from a word of the opcode table. -/
def decodeTableWord (nbits w : Nat) : Option Instr :=
  match decode (tablePacket nbits w) with
  | .instr i => some i
  | .illegal _ => none

end Sys2Proof
end

