-- ==== Sys2Proof/Machine/Tables.lean ====
section
/-! DEFINITION. The constant tables: what is assembled from the parameters (R116 to R118, R122, R180, R203), and
the constants of the reference instance (R8) with the spec's default table values, which the spec marks "from general
knowledge, not in source" (R111, R118, R119, R122, R203; log 4). -/

namespace Sys2Proof

/-- `PAGES = H / 8` (R6). -/
def Params.pages (p : Params) : Nat := p.height / 8

/-- `FBLEN = PAGES * W` (R6). -/
def Params.fbLen (p : Params) : Nat := p.pages * p.width

/-- `CTRL_CMD` (R10). -/
def ctrlCmd : Byte := 0x80#8

/-- `CTRL_DATA` (R10). -/
def ctrlData : Byte := 0x40#8

/-- `COMPINS(W, H)` (R118): the recognised geometry's value, or the fallback. -/
def ComPinsTable.value (t : ComPinsTable) (w h : Nat) : Byte :=
  match t.known.find? (fun e => decide (e.1 = (w, h))) with
  | some e => e.2
  | none => t.fallback

/-- The byte a bring-up argument stands for (R117, R118). -/
def Params.initByte (p : Params) : InitByte → Byte
  | .lit b => b
  | .muxRatio => BitVec.ofNat 8 (p.height - 1)
  | .comPins => p.comPins.value p.width p.height

/-- The bytes of one bring-up group (R116). -/
def Params.initGroupBytes (p : Params) (g : InitGroup) : List Byte := g.cmd :: g.args.map p.initByte

/-- The 17 groups in the order of R116. -/
def InitTable.groups (t : InitTable) : List InitGroup :=
  [t.displayOff, t.addressingMode, t.startLine, t.segmentRemap, t.multiplexRatio, t.comScanDirection,
   t.displayOffset, t.comPinConfig, t.clockDivide, t.preCharge, t.vcomhLevel, t.contrast, t.entireDisplayOn,
   t.normalPolarity, t.chargePump, t.scrollOff, t.displayOn]

/-- `INIT_SEQ` (R116): the concatenation of the groups. -/
def Params.initSeq (p : Params) : List Byte := p.initTable.groups.flatMap p.initGroupBytes

/-- The byte a scroll element stands for: start page 0, end page 3, interval 0 (R10, R122). -/
def scrollByteValue : ScrollByte → Byte
  | .lit b => b
  | .startPage => 0x00#8
  | .endPage => 0x03#8
  | .interval => 0x00#8

/-- `SCROLL_SEQ(b)` (R122). -/
def Params.scrollSeq (p : Params) (b : Bool) : List Byte :=
  (if b then p.scrollOn else p.scrollOff).map scrollByteValue

/-- `GLYPH[g][i]` (R180). -/
def Params.glyphByte (p : Params) (g i : Nat) : Byte := (p.glyph.getD g []).getD i 0x00#8

/-- The eight bytes of `GLYPH[g]`, column 0 first (R180). -/
def Params.glyphRow (p : Params) (g : Nat) : List Byte := (List.range 8).map (p.glyphByte g)

/-- The eight zero bytes of the blank (R183 (a)). -/
def blankGlyph : List Byte := List.replicate 8 0x00#8

/-- A group of literal bytes. -/
def litGroup (cmd : Byte) (args : List Byte) : InitGroup := ⟨cmd, args.map .lit⟩

/-- Default groups of `INIT_SEQ` (R119; PRESUMED, log 4). -/
def defaultInitTable : InitTable where
  displayOff := litGroup 0xAE#8 []
  addressingMode := litGroup 0x20#8 [0x00#8]
  startLine := litGroup 0x40#8 []
  segmentRemap := litGroup 0xA1#8 []
  multiplexRatio := ⟨0xA8#8, [.muxRatio]⟩
  comScanDirection := litGroup 0xC8#8 []
  displayOffset := litGroup 0xD3#8 [0x00#8]
  comPinConfig := ⟨0xDA#8, [.comPins]⟩
  clockDivide := litGroup 0xD5#8 [0x80#8]
  preCharge := litGroup 0xD9#8 [0xF1#8]
  vcomhLevel := litGroup 0xDB#8 [0x30#8]
  contrast := litGroup 0x81#8 [0xFF#8]
  entireDisplayOn := litGroup 0xA4#8 []
  normalPolarity := litGroup 0xA6#8 []
  chargePump := litGroup 0x8D#8 [0x14#8]
  scrollOff := litGroup 0x2E#8 []
  displayOn := litGroup 0xAF#8 []

/-- Default `COMPINS` (R118; PRESUMED, log 4). -/
def defaultComPins : ComPinsTable where
  known := [((128, 32), 0x02#8), ((128, 64), 0x12#8)]
  fallback := 0x02#8

/-- Default scroll sequence (R122; PRESUMED, log 4), whose last byte is `0x2E + b`. -/
def defaultScrollSeq (last : Byte) : List ScrollByte :=
  [.lit 0x26#8, .lit 0x00#8, .startPage, .interval, .endPage, .lit 0x00#8, .lit 0xFF#8, .lit last]

/-- Row `g` of the reference instance's `GLYPH`: free bytes under the two constraints of R183 (log 8). The blank is
zero; a draw that would make the glyph of 'A' blank is moved to a row that is not, so every value of the free bytes
gives a table R183 admits and every admitted table is the value of some. -/
def freeGlyphRow (g : Nat) : List Byte :=
  if g = 0 then blankGlyph
  else
    let row := (List.range 8).map (Config.glyphByte g)
    if g = 1 ∧ row = blankGlyph then 0x01#8 :: List.replicate 7 0x00#8 else row

/-- The constants with a given glyph table, at the reference geometry (R8) and the default tables (log 4). -/
def Params.referenceWith (glyph : List (List Byte)) : Params where
  width := 128
  height := 64
  devAddr := 0x3C
  initTable := defaultInitTable
  comPins := defaultComPins
  scrollOn := defaultScrollSeq 0x2F#8
  scrollOff := defaultScrollSeq 0x2E#8
  cmdColAddr := 0x21#8
  cmdPageAddr := 0x22#8
  glyph := glyph

/-- The reference instance (R8), whose glyphs are free (log 8). -/
def Params.reference : Params := Params.referenceWith ((List.range 37).map freeGlyphRow)

end Sys2Proof
end

