-- ==== Sys2Proof/Machine/State.lean ====
section
/-! DEFINITION. The state of CORE (10_state.md R22 to R32), its ports (R40), its reset values (R45), and the reasons
a step can stop. Plain data throughout. -/

namespace Sys2Proof.Machine

/-- The framebuffer's contents: the bytes written since reset, as (index, byte) pairs in rising index order. An index
that is not listed has not been written since reset and reads as the reset draw (R46, R58; log 6). -/
abbrev Memory := List Host.Cell

/-- `SCROLLING` (R25), ghost: what CORE last told the display about scrolling. -/
inductive Scrolling where
  | unknown
  | off
  | on
deriving DecidableEq, Repr

/-- What the transport answers (R42, R110). -/
inductive BusAnswer where
  | ok
  | fail
deriving DecidableEq, Repr

/-- The answer column of `BUSLOG` (R28). -/
inductive BusStatus where
  | ok
  | fail
  | pending
deriving DecidableEq, Repr

/-- One transaction of `BUSLOG` (R28). -/
structure BusEntry where
  addr : Nat
  bytes : List Byte
  answer : BusStatus
deriving DecidableEq, Repr

/-- A RenderArea (R200): the four operand bytes of one `RENDER`. -/
structure Area where
  startCol : Byte
  endCol : Byte
  startPage : Byte
  endPage : Byte
deriving DecidableEq, Repr

/-- A bus operation in progress (R17), with its operands. -/
inductive BusJob where
  | init
  | scroll (enabled : Bool)
  | render (area : Area)
deriving DecidableEq, Repr

/-- `PHASE` (R26). `waitBus job k`: transaction number `k` of operation `job` (counted from 0) has been issued and its
answer has not come; `k` is the sequencer's working register of R27. -/
inductive Phase where
  | idle
  | exec
  | waitBus (job : BusJob) (k : Nat)
  | halt
deriving DecidableEq, Repr

/-- `FINFO` (R221): always 4 bytes. -/
structure FaultInfo where
  i0 : Byte
  i1 : Byte
  i2 : Byte
  i3 : Byte
deriving DecidableEq, Repr

/-- When a reset that is asserted lands (R250 "can occur in any `PHASE`"; log 12): at once, whatever the phase, or at the
moment CORE is next in `EXEC`. -/
inductive ResetMoment where
  | now
  | inExec
deriving DecidableEq, Repr

/-- The state of CORE with its ports. -/
structure State where
  /-- the read-only constants (R29); no step changes them (log 3) -/
  params : Params
  /-- `FB` (R22) -/
  fb : Memory
  /-- `INITED` (R23) -/
  inited : Bool
  /-- `FAULTED` (R24) -/
  faulted : Bool
  /-- `FCODE` (R24, R221) -/
  fcode : Byte
  /-- `FINFO` (R24, R221) -/
  finfo : FaultInfo
  /-- `SCROLLING` (R25) -/
  scrolling : Scrolling
  /-- `PHASE` (R26) with the working registers that outlive a step (R27) -/
  phase : Phase
  /-- `BUSLOG` (R28), in issue order -/
  busLog : List BusEntry
  /-- the histories that resets ended (R250), oldest first -/
  oldBusLogs : List (List BusEntry)
  /-- response port: the responses given since reset, in order (R40, R100; log 10) -/
  respLog : List (List Byte)
  /-- command port: the packets the host will present, next first (R40; log 2) -/
  cmdPort : List (List Byte)
  /-- bus master port: the answers the transport will give, next first (R42; log 2) -/
  answers : List BusAnswer
  /-- the reset event, while it is asserted and has not landed (R250; log 12) -/
  resetPin : Option ResetMoment
  /-- how many resets have happened: the index of the framebuffer draw (R46; log 7) -/
  epoch : Nat
deriving DecidableEq, Repr

/-- Reasons the model itself stops. The traps of R221 are not among them: those are next states (`raiseFault`). -/
inductive Fault where
  /-- An access to a framebuffer index outside `0 .. FBLEN - 1`, raised by the framebuffer accessors. R53 says no
  operation computes one ("a model can therefore make every out-of-range FB access a model error"). Safe (log 15). -/
  | fbRange (index : Nat)
deriving DecidableEq, Repr

/-- Reasons a step has no meaning. -/
inductive Refusal where
  /-- An operation without a meaning yet, raised by an arm of `exec`. Safe. No arm raises it. -/
  | notModelled (mnemonic : String)
  /-- The constants are not those of a CORE (R7, U29: refuse), raised by the sequencer. Safe (log 5). -/
  | notAnInstance
  /-- The state is in the middle of an operation (`EXEC`) between two steps, which no step leaves behind (R41, one
  operation a step), raised by the sequencer. Safe (log 14). -/
  | midOperation
deriving DecidableEq, Repr

/-- `FINFO` of four zero bytes. -/
def FaultInfo.zero : FaultInfo := ⟨0x00#8, 0x00#8, 0x00#8, 0x00#8⟩

/-- The state right after reset of a CORE with the given constants (R45): `FB` a fresh draw, `FCODE` and `FINFO`
unspecified by R45 and zero here (log 9), ports empty. -/
def State.resetOf (p : Params) (epoch : Nat) : State where
  params := p
  fb := []
  inited := false
  faulted := false
  fcode := 0x00#8
  finfo := FaultInfo.zero
  scrolling := .unknown
  phase := .idle
  busLog := []
  oldBusLogs := []
  respLog := []
  cmdPort := []
  answers := []
  resetPin := none
  epoch := epoch

/-- The reference instance (R8) right after its first reset. -/
def State.reset : State := State.resetOf Params.reference 0

end Sys2Proof.Machine
end

