-- ==== Sys2Proof/Machine/Operands.lean ====
section
/-! DEFINITION. What an operation's operands mean: coordinates as exact integers (R13, R102), bounds (R14, R184),
framebuffer addresses (R141, R186, R204), render areas (R200 to R205), and operand bytes as `FINFO` (R221). -/

namespace Sys2Proof.Machine

/-- A coordinate: the 16-bit field read as a two's-complement integer (R81, R102). -/
def coord (v : Half) : Int := v.toInt

/-- `InBounds(x, y)` (R14). -/
abbrev InBounds (p : Params) (x y : Int) : Prop := 0 ≤ x ∧ x < p.width ∧ 0 ≤ y ∧ y < p.height

/-- The byte index of a pixel, for coordinates that are not negative (R52, R141). -/
def pixelIndex (p : Params) (x y : Int) : Nat := (y.toNat / 8) * p.width + x.toNat

/-- The bit position of a pixel in its byte (R52, R141). -/
def pixelBit (y : Int) : Nat := y.toNat % 8

/-- `2^k` for the pixel's bit position `k` (R141). -/
def pixelMask (y : Int) : Byte := 0x01#8 <<< pixelBit y

/-- `OffScreen(x, y)` (R184): the test is on the origin as given. -/
abbrev OffScreen (p : Params) (x y : Int) : Prop := x > (p.width : Int) - 8 ∨ y > (p.height : Int) - 8

/-- The byte offset of a glyph cell (R186): `y` is truncated to its page. -/
def glyphOffset (p : Params) (x y : Int) : Nat := (y.toNat / 8) * p.width + x.toNat

/-- The area check (R201). -/
abbrev AreaOk (p : Params) (a : Area) : Prop :=
  a.startCol.toNat ≤ a.endCol.toNat ∧ a.endCol.toNat < p.width
    ∧ a.startPage.toNat ≤ a.endPage.toNat ∧ a.endPage.toNat < p.pages

/-- Columns of a well-formed area (R205). -/
def areaCols (a : Area) : Nat := a.endCol.toNat - a.startCol.toNat + 1

/-- Pages of a well-formed area (R206). -/
def areaPages (a : Area) : Nat := a.endPage.toNat - a.startPage.toNat + 1

/-- `buflen` (R202). -/
def areaBuflen (a : Area) : Nat := areaCols a * areaPages a

/-- The buffer offset a `RENDER` streams from (R204). -/
def areaOffset (p : Params) (a : Area) : Nat := a.startPage.toNat * p.width + a.startCol.toNat

/-- `Contiguous(a)` (R205). -/
abbrev Contiguous (p : Params) (a : Area) : Prop :=
  a.startPage = a.endPage ∨ (a.startCol = 0x00#8 ∧ a.endCol.toNat = p.width - 1)

/-- A coordinate as its 16-bit two's-complement pattern (R221). -/
def coordBits (x : Int) : Half := BitVec.ofInt 16 x

/-- `[x_lo, x_hi, y_lo, y_hi]` of a point (R221). -/
def pointInfo (x y : Int) : FaultInfo :=
  ⟨loByte (coordBits x), hiByte (coordBits x), loByte (coordBits y), hiByte (coordBits y)⟩

/-- `[xj_lo, xj_hi, j, n]` (R221, `StringOverrun`). -/
def overrunInfo (xj : Int) (j n : Nat) : FaultInfo :=
  ⟨loByte (coordBits xj), hiByte (coordBits xj), BitVec.ofNat 8 j, BitVec.ofNat 8 n⟩

/-- `[idx_lo, idx_hi, 0, 0]` (R221, `FbIndexRange`). -/
def indexInfo (idx : Half) : FaultInfo := ⟨loByte idx, hiByte idx, 0x00#8, 0x00#8⟩

/-- `[opcode, 0, 0, 0]` (R221, `NotInitialised`). -/
def opcodeInfo (op : Byte) : FaultInfo := ⟨op, 0x00#8, 0x00#8, 0x00#8⟩

/-- The four area bytes (R221, `BadArea`). -/
def areaInfo (a : Area) : FaultInfo := ⟨a.startCol, a.endCol, a.startPage, a.endPage⟩

/-- The byte "packet length div 256" (R221); a length of 65536 or more has no such byte, and the value is free
(log 16). -/
def lengthHighByte (len : Nat) : Byte :=
  if len < 65536 then BitVec.ofNat 8 (len / 256) else Config.oversizeLengthByte len

/-- `[byte 0 or 0, length mod 256, length div 256, 0]` (R221, `IllegalCommand`). -/
def illegalInfo (packet : List Byte) : FaultInfo :=
  ⟨packet.headD 0x00#8, BitVec.ofNat 8 (packet.length % 256), lengthHighByte packet.length, 0x00#8⟩

/-- `u16le(v)` (R149): low byte first. -/
def u16le (v : Nat) : List Byte := [BitVec.ofNat 8 (v % 256), BitVec.ofNat 8 (v / 256)]

end Sys2Proof.Machine
end

