-- ==== Sys2Proof/Machine/Ops.lean ====
section
/-! DEFINITION. The named operations over the framebuffer and the ports: memory (R14, R46, R58), pixel (R142),
responses (R100), taking a trap (R226), and the two events of one bus transaction (R110). There is no return from a
trap (R227); `resetEvent` (R250), the only way out of `HALT`, stands in Machine/Sequencer.lean. -/

namespace Sys2Proof.Machine

/-- The byte listed for index `i`, if one is. -/
def Memory.lookup : Memory → Nat → Option Byte
  | [], _ => none
  | (a, v) :: m, i => if a = i then some v else Memory.lookup m i

/-- List byte `v` for index `i`, in place, keeping the order. -/
def Memory.store : Memory → Nat → Byte → Memory
  | [], i, v => [(i, v)]
  | (a, w) :: m, i, v =>
    if i < a then (i, v) :: (a, w) :: m
    else if i = a then (i, v) :: m
    else (a, w) :: Memory.store m i v

/-- Indices rise strictly from `lo` on and stay below `limit`. -/
def Memory.risesFrom (limit : Nat) : Nat → Memory → Bool
  | _, [] => true
  | lo, (a, _) :: m => decide (lo ≤ a) && decide (a < limit) && Memory.risesFrom limit (a + 1) m

/-- The canonical form: strictly rising indices, all below `limit`. An entry is a byte written since reset; an
unlisted index holds no written byte, so no entry equals one (log 6). -/
def Memory.wf (limit : Nat) (m : Memory) : Bool := Memory.risesFrom limit 0 m

/-- What framebuffer byte `i` reads as: the last byte written, or the reset draw if none (R46, R58). -/
def fbByte (s : State) (i : Nat) : Byte := (Memory.lookup s.fb i).getD (Config.fbDraw s.epoch i)

/-- `FB[i]` (R14), a read with no side effect (R58). -/
def fbRead (i : Nat) (s : State) : Except Fault Byte :=
  if i < s.params.fbLen then .ok (fbByte s i) else .error (.fbRange i)

/-- `FB[i] <- v` (R14). -/
def fbWrite (i : Nat) (v : Byte) (s : State) : Except Fault State :=
  if i < s.params.fbLen then .ok { s with fb := Memory.store s.fb i v } else .error (.fbRange i)

/-- `MemRead(a, n)` (R14): requires `a + n <= FBLEN`. -/
def memRead (a n : Nat) (s : State) : Except Fault (List Byte) :=
  if a + n ≤ s.params.fbLen then .ok ((List.range n).map (fun j => fbByte s (a + j)))
  else .error (.fbRange (a + n - 1))

/-- `MemWrite(a, n, l)` (R14): ascending. -/
def memWrite : Nat → List Byte → State → Except Fault State
  | _, [], s => .ok s
  | a, v :: l, s =>
    match fbWrite a v s with
    | .error f => .error f
    | .ok t => memWrite (a + 1) l t

/-- Every index written with the same byte (R148). -/
def fbFill (v : Byte) (s : State) : State :=
  { s with fb := (List.range s.params.fbLen).map (fun i => (i, v)) }

/-- `Pixel(x, y)` (R14, R52), for a pixel in bounds. -/
def pixel (s : State) (x y : Int) : Bool := (fbByte s (pixelIndex s.params x y)).getLsbD (pixelBit y)

/-- The byte `WritePixel` stores (R142): bit `k` set or cleared, the other seven kept. -/
def writtenByte (b : Byte) (y : Int) (on : Bool) : Byte :=
  if on then b ||| pixelMask y else b &&& ~~~ pixelMask y

/-- `WritePixel(x, y, on)` (R142): a read-modify-write of one byte. -/
def writePixel (x y : Int) (on : Bool) (s : State) : Except Fault State :=
  match fbRead (pixelIndex s.params x y) s with
  | .error f => .error f
  | .ok b => fbWrite (pixelIndex s.params x y) (writtenByte b y on) s

/-- `OK`, with data where the operation returns some (R100). -/
def okResponse (data : List Byte) : List Byte := 0x00#8 :: data

/-- `FAIL` (R100). -/
def failResponse : List Byte := [0x01#8]

/-- `TRAP` (R100). -/
def trapResponse (code : Byte) (info : FaultInfo) : List Byte :=
  [0xFF#8, code, info.i0, info.i1, info.i2, info.i3]

/-- `respond(r)` (R26, R100): the response is given and the operation is over. -/
def respond (r : List Byte) (s : State) : State :=
  { s with respLog := s.respLog ++ [r], phase := .idle }

/-- The trap causes of R221. -/
inductive FaultCode where
  | illegalCommand
  | notInitialised
  | outOfBounds
  | negativeOrigin
  | stringOverrun
  | badArea
  | fbIndexRange
deriving DecidableEq, Repr

/-- Their codes (R221). -/
def faultByte : FaultCode → Byte
  | .illegalCommand => 0x01#8
  | .notInitialised => 0x02#8
  | .outOfBounds => 0x03#8
  | .negativeOrigin => 0x04#8
  | .stringOverrun => 0x05#8
  | .badArea => 0x06#8
  | .fbIndexRange => 0x07#8

/-- `raise Fault(code, info)` (R226): latch, respond `TRAP`, halt; nothing else is saved. -/
def raiseFault (code : FaultCode) (info : FaultInfo) (s : State) : State :=
  { s with
    fcode := faultByte code
    finfo := info
    faulted := true
    respLog := s.respLog ++ [trapResponse (faultByte code) info]
    phase := .halt }

/-- `issue(DEV_ADDR, bytes)` (R110): transaction `k` of `job` is pending and CORE waits. -/
def issue (job : BusJob) (k : Nat) (bytes : List Byte) (s : State) : State :=
  { s with busLog := s.busLog ++ [⟨s.params.devAddr, bytes, .pending⟩], phase := .waitBus job k }

/-- The history with the answer of its last transaction replaced (R110). -/
def setLastAnswer (a : BusStatus) : List BusEntry → List BusEntry
  | [] => []
  | [e] => [{ e with answer := a }]
  | e :: f :: l => e :: setLastAnswer a (f :: l)

/-- An answer as `BUSLOG` records it (R28). -/
def BusAnswer.status : BusAnswer → BusStatus
  | .ok => .ok
  | .fail => .fail

/-- `answer(a)` (R110): the transport's next answer is taken from the port, recorded, and CORE executes on. -/
def takeAnswer (a : BusAnswer) (s : State) : State :=
  { s with busLog := setLastAnswer a.status s.busLog, answers := s.answers.tail, phase := .exec }

/-- A meaning's result as the outcome of a step. -/
def outcome : Except Fault State → Host.Outcome State Fault Refusal
  | .ok s => .next s
  | .error f => .fault f

end Sys2Proof.Machine
end

