-- ==== Sys2Proof/Machine/Flags.lean ====
section
/-! DEFINITION. The flags `INITED` and `SCROLLING` (R23, R25) and what sets them: the table of R32, by operation and
outcome. `FAULTED` is set by `raiseFault` alone (R226) and cleared by reset alone (R250). There are no arithmetic
condition codes (R32). -/

namespace Sys2Proof.Machine

/-- `INIT` completing `OK`: `INITED <- 1`, `SCROLLING <- off` (R32, R120). -/
def initOkFlags (s : State) : State := { s with inited := true, scrolling := .off }

/-- `INIT` completing `FAIL`: `INITED <- 0`, `SCROLLING <- unknown` (R32, R120). -/
def initFailFlags (s : State) : State := { s with inited := false, scrolling := .unknown }

/-- `SCROLL enabled` completing `OK`: `SCROLLING <- on` or `off` (R32, R123). -/
def scrollOkFlags (enabled : Bool) (s : State) : State :=
  { s with scrolling := if enabled then .on else .off }

/-- `SCROLL` completing `FAIL`: `SCROLLING <- unknown` (R32, R123). -/
def scrollFailFlags (s : State) : State := { s with scrolling := .unknown }

/-- The flags a bus operation writes when every transaction was answered `ok` (R120, R123, R204). -/
def okFlags : BusJob → State → State
  | .init, s => initOkFlags s
  | .scroll enabled, s => scrollOkFlags enabled s
  | .render _, s => s

/-- The flags a bus operation writes when a transaction was answered `fail` (R120, R123, R204). -/
def failFlags : BusJob → State → State
  | .init, s => initFailFlags s
  | .scroll _, s => scrollFailFlags s
  | .render _, s => s

end Sys2Proof.Machine
end

