-- ==== Sys2Proof/Machine/Bus.lean ====
section
/-! DEFINITION. The frame senders (R98, R99, R112, R113, R115) and the run of a bus operation through its transactions
(R110, R114, R41). The transport's answers are the list `answers` in State: while it has an answer the run goes on
inside the step; when it has none the operation waits in `WAITBUS` and a later step goes on from transaction `k`
(log 1, log 2). -/

namespace Sys2Proof.Machine

/-- The command frame `SendCommand(c)` issues (R98, R112). -/
def commandFrame (c : Byte) : List Byte := [ctrlCmd, c]

/-- The data frame `SendPixels(s)` issues (R99, R115). -/
def dataFrame (slice : List Byte) : List Byte := ctrlData :: slice

/-- The frames `SendSeq(l)` issues (R113): each element in a command frame of its own. -/
def seqFrames (l : List Byte) : List (List Byte) := l.map commandFrame

/-- `WINDOW(a)` (R203). -/
def windowSeq (p : Params) (a : Area) : List Byte :=
  [p.cmdColAddr, a.startCol, a.endCol, p.cmdPageAddr, a.startPage, a.endPage]

/-- The transactions of a bus operation, in issue order: `SendSeq(INIT_SEQ)` (R120), `SendSeq(SCROLL_SEQ(b))` (R123),
`SendSeq(WINDOW(a))` then `SendPixels(MemRead(off, buflen))` (R204). `FB` does not change while a bus operation runs
(R61), so a resumed `RENDER` reads the same slice (log 23). -/
def jobFrames (job : BusJob) (s : State) : Except Fault (List (List Byte)) :=
  match job with
  | .init => .ok (seqFrames s.params.initSeq)
  | .scroll enabled => .ok (seqFrames (s.params.scrollSeq enabled))
  | .render a =>
    match memRead (areaOffset s.params a) (areaBuflen a) s with
    | .error f => .error f
    | .ok slice => .ok (seqFrames (windowSeq s.params a) ++ [dataFrame slice])

/-- Every transaction was answered `ok` (R120, R123, R204). -/
def finishOk (job : BusJob) (s : State) : State := respond (okResponse []) (okFlags job s)

/-- A transaction was answered `fail` (R114): nothing further is issued. -/
def finishFail (job : BusJob) (s : State) : State := respond failResponse (failFlags job s)

/-- Issue the frames from transaction `k` on, each after the answer to the one before (R62, R113), stopping at the
first `fail` (R114), and waiting where the transport has not answered (R110). -/
def sendFrom (job : BusJob) : List (List Byte) → Nat → State → State
  | [], _, s => finishOk job s
  | f :: fs, k, s =>
    match s.answers with
    | [] => issue job k f s
    | .ok :: _ => sendFrom job fs (k + 1) (takeAnswer .ok (issue job k f s))
    | .fail :: _ => finishFail job (takeAnswer .fail (issue job k f s))

/-- Begin a bus operation. -/
def startJob (job : BusJob) (s : State) : Except Fault State :=
  match jobFrames job s with
  | .error f => .error f
  | .ok frames => .ok (sendFrom job frames 0 s)

/-- Go on with a bus operation that waited for the answer to transaction `k`, now that it is `a` (R26, R110). -/
def resumeJob (job : BusJob) (k : Nat) (a : BusAnswer) (s : State) : Except Fault State :=
  match a with
  | .fail => .ok (finishFail job (takeAnswer .fail s))
  | .ok =>
    match jobFrames job s with
    | .error f => .error f
    | .ok frames => .ok (sendFrom job (frames.drop (k + 1)) (k + 1) (takeAnswer .ok s))

end Sys2Proof.Machine
end

