-- ==== Sys2Proof/Machine/CommandSequencer.lean ====
section
/-! DEFINITION. display_command_sequencer: `INIT` and `SCROLL` (40_command_sequencer.md). -/

namespace Sys2Proof.Machine

/-- `INIT` (R120): run the bring-up sequence. It needs no earlier `INIT`, and a second one sends it all again. -/
def execInit (s : State) : Host.Outcome State Fault Refusal := outcome (startJob .init s)

/-- `SCROLL enabled` (R123): traps before any transaction while `INITED = 0`. -/
def execScroll (enabled : Bool) (s : State) : Host.Outcome State Fault Refusal :=
  if s.inited = false then .next (raiseFault .notInitialised (opcodeInfo 0x07#8) s)
  else outcome (startJob (.scroll enabled) s)

end Sys2Proof.Machine
end

