-- ==== Sys2Proof/Machine/FramebufferWriter.lean ====
section
/-! DEFINITION. framebuffer_writer: `SETPIX`, `FBWR`, `FBRD`, `FBFILL`, `GEOM` (41_framebuffer_writer.md). -/

namespace Sys2Proof.Machine

/-- A result that ends with `respond(OK)`. -/
def respondOk : Except Fault State → Except Fault State
  | .error f => .error f
  | .ok t => .ok (respond (okResponse []) t)

/-- `SETPIX x, y, on` (R144). -/
def execSetpix (x y : Half) (on : Bool) (s : State) : Host.Outcome State Fault Refusal :=
  if InBounds s.params (coord x) (coord y) then outcome (respondOk (writePixel (coord x) (coord y) on s))
  else .next (raiseFault .outOfBounds (pointInfo (coord x) (coord y)) s)

/-- `FBWR idx, data` (R146). -/
def execFbwr (idx : Half) (data : Byte) (s : State) : Host.Outcome State Fault Refusal :=
  if s.params.fbLen ≤ idx.toNat then .next (raiseFault .fbIndexRange (indexInfo idx) s)
  else outcome (respondOk (fbWrite idx.toNat data s))

/-- `FBRD idx` (R147). -/
def execFbrd (idx : Half) (s : State) : Host.Outcome State Fault Refusal :=
  if s.params.fbLen ≤ idx.toNat then .next (raiseFault .fbIndexRange (indexInfo idx) s)
  else
    match fbRead idx.toNat s with
    | .error f => .fault f
    | .ok v => .next (respond (okResponse [v]) s)

/-- `FBFILL data` (R148). -/
def execFbfill (data : Byte) (s : State) : Host.Outcome State Fault Refusal :=
  .next (respond (okResponse []) (fbFill data s))

/-- The eight data bytes of `GEOM`'s answer (R101, R149). -/
def geometryBytes (p : Params) : List Byte :=
  u16le p.width ++ u16le p.height ++ u16le p.pages ++ u16le p.fbLen

/-- `GEOM` (R149). -/
def execGeom (s : State) : Host.Outcome State Fault Refusal :=
  .next (respond (okResponse (geometryBytes s.params)) s)

end Sys2Proof.Machine
end

