-- ==== Sys2Proof/Machine/GlyphBlitter.lean ====
section
/-! DEFINITION. glyph_bitmap_blitter: `WCHAR` and `WSTR` (43_glyph_blitter.md). -/

namespace Sys2Proof.Machine

/-- `Fold(ch)` (R181): 'a'..'z' to 'A'..'Z', every other byte itself. -/
def foldCase (ch : Byte) : Byte := if 0x61#8 ≤ ch ∧ ch ≤ 0x7A#8 then ch - 0x20#8 else ch

/-- `Index(c)` (R181): letters 1 to 26, digits 27 to 36, everything else the blank 0. -/
def glyphIndex (c : Byte) : Nat :=
  if 0x41#8 ≤ c ∧ c ≤ 0x5A#8 then c.toNat - 0x41 + 1
  else if 0x30#8 ≤ c ∧ c ≤ 0x39#8 then c.toNat - 0x30 + 27
  else 0

/-- `GlyphOf(ch)` (R181): total on all byte values. -/
def glyphOf (ch : Byte) : Nat := glyphIndex (foldCase ch)

/-- `BlitGlyph(x, y, g)` (R186): the glyph's bytes replace eight bytes of the framebuffer. -/
def blitGlyph (x y : Int) (g : Nat) (s : State) : Except Fault State :=
  memWrite (glyphOffset s.params x y) (s.params.glyphRow g) s

/-- `WCHAR x, y, ch` (R187): off-screen first, then the negative origin (R184, R185). -/
def execWchar (x y : Half) (ch : Byte) (s : State) : Host.Outcome State Fault Refusal :=
  if OffScreen s.params (coord x) (coord y) then .next (respond (okResponse []) s)
  else if coord x < 0 ∨ coord y < 0 then .next (raiseFault .negativeOrigin (pointInfo (coord x) (coord y)) s)
  else outcome (respondOk (blitGlyph (coord x) (coord y) (glyphOf ch) s))

/-- The loop of `WSTR` (R188) from character `j` on, of `n` in all; `x` is the string's origin. -/
def drawText (x y : Int) (n : Nat) : List Byte → Nat → State → Except Fault State
  | [], _, s => .ok (respond (okResponse []) s)
  | ch :: rest, j, s =>
    if x + 8 * (j : Int) < 0 ∨ y < 0 then .ok (raiseFault .negativeOrigin (pointInfo (x + 8 * (j : Int)) y) s)
    else if x + 8 * (j : Int) > (s.params.width : Int) - 8 then
      .ok (raiseFault .stringOverrun (overrunInfo (x + 8 * (j : Int)) j n) s)
    else
      match blitGlyph (x + 8 * (j : Int)) y (glyphOf ch) s with
      | .error f => .error f
      | .ok t => drawText x y n rest (j + 1) t

/-- `WSTR x, y, text` (R188): the off-screen test once, for the origin. -/
def execWstr (x y : Half) (text : List Byte) (s : State) : Host.Outcome State Fault Refusal :=
  if OffScreen s.params (coord x) (coord y) then .next (respond (okResponse []) s)
  else outcome (drawText (coord x) (coord y) text.length text 0 s)

end Sys2Proof.Machine
end

