-- ==== Sys2Proof/Machine/LineRasterizer.lean ====
section
/-! DEFINITION. bresenham_line_rasterizer: `LINE` (42_line_rasterizer.md). The walk of R162 is the list of the points it
visits; `plotPoints` writes them in that order and traps at the first one out of bounds (R163). -/

namespace Sys2Proof.Machine

/-- The working registers of the line walk (R27, R162), exact integers (R165); `e2` is a local of `lineAdvance`. -/
structure LineRegs where
  cx : Int
  cy : Int
  dx : Int
  dy : Int
  sx : Int
  sy : Int
  err : Int
deriving DecidableEq, Repr

/-- The registers before the first iteration (R162). -/
def lineStart (x0 y0 x1 y1 : Int) : LineRegs where
  cx := x0
  cy := y0
  dx := (x1 - x0).natAbs
  dy := -((y1 - y0).natAbs : Int)
  sx := if x0 < x1 then 1 else -1
  sy := if y0 < y1 then 1 else -1
  err := ((x1 - x0).natAbs : Int) + -((y1 - y0).natAbs : Int)

/-- The two updates of one iteration (R162): both tests are on the same `e2`. -/
def lineAdvance (r : LineRegs) : LineRegs :=
  let e2 := 2 * r.err
  { r with
    cx := if e2 ≥ r.dy then r.cx + r.sx else r.cx
    cy := if e2 ≤ r.dx then r.cy + r.sy else r.cy
    err := r.err + (if e2 ≥ r.dy then r.dy else 0) + (if e2 ≤ r.dx then r.dx else 0) }

/-- The points visited from `r` on until `(x1, y1)` (R162), in order. The number bounds the iterations; R164 says
that `max(dx, -dy)` of them reach the endpoint (log 19). -/
def lineWalk (x1 y1 : Int) : Nat → LineRegs → List (Int × Int)
  | 0, r => [(r.cx, r.cy)]
  | n + 1, r =>
    (r.cx, r.cy) :: (if r.cx = x1 ∧ r.cy = y1 then [] else lineWalk x1 y1 n (lineAdvance r))

/-- The points `LINE` visits, in order (R162). -/
def linePoints (x0 y0 x1 y1 : Int) : List (Int × Int) :=
  lineWalk x1 y1 (max (x1 - x0).natAbs (y1 - y0).natAbs) (lineStart x0 y0 x1 y1)

/-- Write the points in order, trapping at the first one out of bounds (R162, R163). -/
def plotPoints (on : Bool) : List (Int × Int) → State → Except Fault State
  | [], s => .ok (respond (okResponse []) s)
  | (x, y) :: rest, s =>
    if InBounds s.params x y then
      match writePixel x y on s with
      | .error f => .error f
      | .ok t => plotPoints on rest t
    else .ok (raiseFault .outOfBounds (pointInfo x y) s)

/-- `LINE x0, y0, x1, y1, on` (R162). -/
def execLine (x0 y0 x1 y1 : Half) (on : Bool) (s : State) : Host.Outcome State Fault Refusal :=
  outcome (plotPoints on (linePoints (coord x0) (coord y0) (coord x1) (coord y1)) s)

end Sys2Proof.Machine
end

