-- ==== Sys2Proof/Machine/RenderArea.lean ====
section
/-! DEFINITION. render_area_to_display_window: `RENDER` (44_render_area.md). -/

namespace Sys2Proof.Machine

/-- `RENDER start_col, end_col, start_page, end_page` (R204): `NotInitialised` before `BadArea` (R224), both before any
transaction; a well-formed area that is not contiguous is sent like any other (R205). -/
def execRender (startCol endCol startPage endPage : Byte) (s : State) : Host.Outcome State Fault Refusal :=
  let a : Area := ⟨startCol, endCol, startPage, endPage⟩
  if s.inited = false then .next (raiseFault .notInitialised (opcodeInfo 0x06#8) s)
  else if AreaOk s.params a then outcome (startJob (.render a) s)
  else .next (raiseFault .badArea (areaInfo a) s)

end Sys2Proof.Machine
end

