-- ==== Sys2Proof/Machine/Dispatch.lean ====
section
/-! DEFINITION. One arm per host operation (R82). -/

namespace Sys2Proof.Machine

def exec (i : Instr) (s : State) : Host.Outcome State Fault Refusal :=
  match i with
  | .init => Sys2Proof.Machine.execInit s
  | .setpix x y on => Sys2Proof.Machine.execSetpix x y on s
  | .line x0 y0 x1 y1 on => Sys2Proof.Machine.execLine x0 y0 x1 y1 on s
  | .wchar x y ch => Sys2Proof.Machine.execWchar x y ch s
  | .wstr x y text => Sys2Proof.Machine.execWstr x y text s
  | .render sc ec sp ep => Sys2Proof.Machine.execRender sc ec sp ep s
  | .scroll enabled => Sys2Proof.Machine.execScroll enabled s
  | .fbwr idx data => Sys2Proof.Machine.execFbwr idx data s
  | .fbrd idx => Sys2Proof.Machine.execFbrd idx s
  | .fbfill data => Sys2Proof.Machine.execFbfill data s
  | .geom => Sys2Proof.Machine.execGeom s

end Sys2Proof.Machine
end

