-- ==== Sys2Proof/Machine/Sequencer.lean ====
section
/-! DEFINITION. One turn of the sequencer (R26, R41): taking reset, accepting a packet, taking an answer, or waiting;
and the events at the ports (R40, R42), by which the world outside changes State between steps. -/

namespace Sys2Proof.Machine

/-- `accept(packet)` (R26, R41): the packet leaves the command port and an operation is in progress. -/
def acceptPacket (rest : List (List Byte)) (s : State) : State := { s with cmdPort := rest, phase := .exec }

/-- Reset (R250): every piece of state to its value after reset, `FB` a fresh draw (R46); the constants stay (R45), the
history so far becomes an old one with whatever was pending in it, and the ports' inputs are the outside world's
(log 12). -/
def resetEvent (s : State) : State :=
  { State.resetOf s.params (s.epoch + 1) with
    oldBusLogs := s.oldBusLogs ++ [s.busLog]
    cmdPort := s.cmdPort
    answers := s.answers }

/-- The sequencer's next transition into `EXEC` (R26): accepting a packet, or taking the transport's answer. None comes
while the port has nothing, nor in `HALT`; a state in `EXEC` is there already. -/
def enterExec (s : State) : Option State :=
  match s.phase with
  | .idle =>
    match s.cmdPort with
    | [] => none
    | _ :: rest => some (acceptPacket rest s)
  | .exec => some s
  | .waitBus _ _ =>
    match s.answers with
    | [] => none
    | a :: _ => some (takeAnswer a s)
  | .halt => none

/-- A turn with reset asserted (R250): it lands at once, or at the next moment in `EXEC`, where it abandons the operation
before its next transaction; until that moment comes CORE waits (log 12). -/
def resetTurn (m : ResetMoment) (s : State) : State :=
  match m with
  | .now => resetEvent s
  | .inExec =>
    match enterExec s with
    | some t => resetEvent t
    | none => s

/-- `IDLE` (R26): with a packet at the port, accept it and run the operation it encodes, or trap if it encodes none
(R94); else wait for one (R250). -/
def idleTurn (run : Instr → State → Host.Outcome State Fault Refusal) (s : State) :
    Host.Outcome State Fault Refusal :=
  match s.cmdPort with
  | [] => .next s
  | packet :: rest =>
    match decode packet with
    | .instr i => run i (acceptPacket rest s)
    | .illegal _ => .next (raiseFault .illegalCommand (illegalInfo packet) (acceptPacket rest s))

/-- `WAITBUS` (R26, R110): with an answer at the port, go on; else wait, for ever if it never comes (R269). -/
def waitTurn (job : BusJob) (k : Nat) (s : State) : Host.Outcome State Fault Refusal :=
  match s.answers with
  | [] => .next s
  | a :: _ => outcome (resumeJob job k a s)

/-- One turn. Reset comes first, in any phase (R250); `HALT` accepts nothing and changes nothing (R227). -/
def sequencerTurn (run : Instr → State → Host.Outcome State Fault Refusal) (s : State) :
    Host.Outcome State Fault Refusal :=
  if s.params.geometryOk = false then .refused .notAnInstance
  else
    match s.resetPin with
    | some m => .next (resetTurn m s)
    | none =>
      match s.phase with
      | .idle => idleTurn run s
      | .exec => .refused .midOperation
      | .waitBus job k => waitTurn job k s
      | .halt => .next s

/-- The host presents a packet (R40, R42); it lands behind those already waiting. -/
def presentPacket (packet : List Byte) (s : State) : State := { s with cmdPort := s.cmdPort ++ [packet] }

/-- The transport answers (R40, R42); the answer lands behind those already given. -/
def deliverAnswer (a : BusAnswer) (s : State) : State := { s with answers := s.answers ++ [a] }

/-- Reset is asserted, to land at moment `m` (R250). -/
def assertReset (m : ResetMoment) (s : State) : State := { s with resetPin := some m }

/-- The packet that stands next at the command port (log 11). -/
def presentNext (packet : List Byte) (s : State) : State := { s with cmdPort := packet :: s.cmdPort }

end Sys2Proof.Machine
end

