-- ==== Sys2Proof/Machine/Step.lean ====
section
/-! DEFINITION. One step of CORE: one turn of the sequencer (R26, R41) that runs the operations of `exec`. -/

namespace Sys2Proof.Machine

/-- One step. -/
def step (s : State) : Host.Outcome State Fault Refusal := sequencerTurn exec s

/-- `s` with the operation of a table word next at the command port, where an idle CORE takes its next packet
(R40, R41; log 11). -/
def State.withFetchWord (s : State) (nbits w : Nat) : State := presentNext (tablePacket nbits w) s

end Sys2Proof.Machine
end

