-- ==== Sys2Proof/Machine/Assembler.lean ====
section
/-! DEFINITION. The spec's one-line syntax (R96) and its pseudo-operations (R97). -/

namespace Sys2Proof

/-- `BUFLEN(sc, ec, sp, ep)` (R97), an assembler-time function. -/
def asmBuflen (sc ec sp ep : Int) : Int := (ec - sc + 1) * (ep - sp + 1)

/-- `RENDERFULL` (R97): `RENDER 0, W-1, 0, PAGES-1`. -/
def asmRenderfull (p : Params) : Instr :=
  .render 0x00#8 (BitVec.ofNat 8 (p.width - 1)) 0x00#8 (BitVec.ofNat 8 (p.pages - 1))

/-- `CLEAR` (R97): `FBFILL 0x00`. -/
def asmClear : Instr := .fbfill 0x00#8

/-- `PIXON x, y` (R97): `SETPIX x, y, 1`. -/
def asmPixon (x y : Half) : Instr := .setpix x y true

/-- `PIXOFF x, y` (R97): `SETPIX x, y, 0`. -/
def asmPixoff (x y : Half) : Instr := .setpix x y false

/-- Operands separated by commas (R96); one space after the mnemonic and after each comma is the model's choice
(log 26). -/
def asmJoin (mnemonic : String) (operands : List String) : String :=
  if operands.isEmpty then mnemonic else mnemonic ++ " " ++ ", ".intercalate operands

/-- A signed operand, in decimal where R96 allows either base (log 26). -/
def asmInt (v : Half) : String := toString v.toInt

/-- An unsigned operand, in decimal where R96 allows either base (log 26). -/
def asmNat {w : Nat} (v : BitVec w) : String := toString v.toNat

/-- A boolean as `1` or `0` (R96). -/
def asmBool (b : Bool) : String := if b then "1" else "0"

/-- A character code as its character (R96). R96 says a character is its ASCII code, and not how a code without an ASCII
character (0x80 to 0xFF), a control code or a quote mark is written: DESIGN CHOICE, the Unicode character of that number,
with no escape (log 26). -/
def asmChar (c : Byte) : String := String.singleton (Char.ofNat c.toNat)

/-- An operation as one line (R96). -/
def asmLine : Instr → String
  | .init => asmJoin "INIT" []
  | .setpix x y on => asmJoin "SETPIX" [asmInt x, asmInt y, asmBool on]
  | .line x0 y0 x1 y1 on => asmJoin "LINE" [asmInt x0, asmInt y0, asmInt x1, asmInt y1, asmBool on]
  | .wchar x y ch => asmJoin "WCHAR" [asmInt x, asmInt y, "'" ++ asmChar ch ++ "'"]
  | .wstr x y text => asmJoin "WSTR" [asmInt x, asmInt y, "\"" ++ String.join (text.map asmChar) ++ "\""]
  | .render sc ec sp ep => asmJoin "RENDER" [asmNat sc, asmNat ec, asmNat sp, asmNat ep]
  | .scroll enabled => asmJoin "SCROLL" [asmBool enabled]
  | .fbwr idx data => asmJoin "FBWR" [asmNat idx, asmNat data]
  | .fbrd idx => asmJoin "FBRD" [asmNat idx]
  | .fbfill data => asmJoin "FBFILL" [asmNat data]
  | .geom => asmJoin "GEOM" []

end Sys2Proof
end

