-- ==== Sys2Proof/Safety.lean ====
section
/-! DEFINITION. What claims speak of: the outside world's inputs and the states they and the steps lead to, the
invariants of those states, the forms a result takes, and the obligations software carries (the hazards of
70_reset_and_hazards.md), which CORE does not check. -/

namespace Sys2Proof.Machine

/-! ### Inputs and reachable states -/

/-- What the outside world can do to CORE, between steps (R40, R42, R250). -/
inductive Input where
  | packet (p : List Byte)
  | answer (a : BusAnswer)
  | reset (m : ResetMoment)
deriving DecidableEq, Repr

/-- An input lands at its port. -/
def applyInput : Input → State → State
  | .packet p, s => presentPacket p s
  | .answer a, s => deliverAnswer a s
  | .reset m, s => assertReset m s

/-- The states of every CORE the spec admits, from its reset on, under steps and inputs in any order. -/
inductive Reachable : State → Prop
  | ofReset (p : Params) (epoch : Nat) (h : p.wf = true) : Reachable (State.resetOf p epoch)
  | ofStep {s t : State} (h : Reachable s) (hs : step s = .next t) : Reachable t
  | ofInput {s : State} (i : Input) (h : Reachable s) : Reachable (applyInput i s)

/-! ### Invariants -/

/-- A transaction is a command frame of two bytes or a data frame of at least two (R98, R99, R124). -/
def FrameOk (bytes : List Byte) : Prop :=
  (∃ c, bytes = [ctrlCmd, c]) ∨ (∃ b bs, bytes = ctrlData :: b :: bs)

/-- A transaction that was answered `ok`, as `BUSLOG` holds it. -/
def okEntry (p : Params) (bytes : List Byte) : BusEntry := ⟨p.devAddr, bytes, .ok⟩

/-- CORE is waiting for an answer (R26). -/
def IsWaiting (s : State) : Prop := ∃ job k, s.phase = .waitBus job k

/-- A waiting operation is in order: its frames before the pending one are in `BUSLOG` answered `ok`, the pending one
is last, and what the operation checked at its start holds (R62, R110, R113, R204, R222). -/
def WaitingInOrder (s : State) : Prop :=
  ∀ job k, s.phase = .waitBus job k →
    ∃ frames frame old, jobFrames job s = .ok frames ∧ frames[k]? = some frame ∧
      s.busLog = old ++ (frames.take k).map (okEntry s.params) ++ [⟨s.params.devAddr, frame, .pending⟩] ∧
      (job ≠ .init → s.inited = true) ∧
      (∀ a, job = .render a → AreaOk s.params a)

/-- The invariant of every step. -/
structure Inv (s : State) : Prop where
  /-- the constants are those of a CORE (R7, R29) -/
  params : s.params.wf = true
  /-- the framebuffer keeps its canonical form, inside `0 .. FBLEN - 1` (R53) -/
  memory : Memory.wf s.params.fbLen s.fb = true
  /-- `HALT` is exactly `FAULTED = 1` (R26) -/
  halted : s.phase = .halt ↔ s.faulted = true
  /-- the fault latch holds a code of R221 while `FAULTED = 1` (R24) -/
  latch : s.faulted = true → ∃ c, s.fcode = faultByte c
  /-- no step ends in the middle of an operation but to wait for the bus (R26, R41) -/
  between : s.phase ≠ .exec
  /-- every transaction is a frame of R98 or R99 to `DEV_ADDR` (R111, R124) -/
  frames : ∀ e ∈ s.busLog, e.addr = s.params.devAddr ∧ FrameOk e.bytes
  /-- only the last transaction can be pending, and it is exactly while CORE waits (R62, R110) -/
  pending : ∀ n e, s.busLog[n]? = some e →
    (e.answer = .pending ↔ (n + 1 = s.busLog.length ∧ IsWaiting s))
  /-- a waiting operation is in order -/
  waiting : WaitingInOrder s

/-- A history holds the whole bring-up sequence, in order, every frame answered `ok` (R116, R121). -/
def BringUpIn (p : Params) (log : List BusEntry) : Prop :=
  ∃ before after, log = before ++ (seqFrames p.initSeq).map (okEntry p) ++ after

/-- `INITED = 1` and every data frame are preceded by a whole bring-up sequence (R23, R121). -/
def BringUpFirst (s : State) : Prop :=
  (s.inited = true → BringUpIn s.params s.busLog) ∧
  ∀ before e after, s.busLog = before ++ e :: after → e.bytes.head? = some ctrlData →
    BringUpIn s.params before

/-! ### The forms a result takes -/

/-- `t` is `s` after an operation that responded `OK` with `data` and changed nothing else but the framebuffer. -/
def CompletedWith (data : List Byte) (s t : State) : Prop :=
  t = { s with fb := t.fb, respLog := s.respLog ++ [0x00#8 :: data], phase := .idle }

/-- `t` is `s` after a trap that changed nothing else but, perhaps, the framebuffer (R226). -/
def TrappedWith (code : Byte) (info : FaultInfo) (s t : State) : Prop :=
  t = { s with
        fb := t.fb
        faulted := true
        fcode := code
        finfo := info
        respLog := s.respLog ++ [[0xFF#8, code, info.i0, info.i1, info.i2, info.i3]]
        phase := .halt }

/-- `t` is the state a reset leaves of `s`: the values of R45 (without `FCODE` and `FINFO`, which it leaves unspecified),
with every byte of `FB` a new draw (R46; log 7), the response history begun anew (log 10) and the pin released (log 12). -/
structure LeftByReset (s t : State) : Prop where
  params : t.params = s.params
  inited : t.inited = false
  faulted : t.faulted = false
  scrolling : t.scrolling = .unknown
  phase : t.phase = .idle
  busLog : t.busLog = []
  fb : ∀ i, fbByte t i = Config.fbDraw (s.epoch + 1) i
  respLog : t.respLog = []
  resetPin : t.resetPin = none

/-- The framebuffer reads the same everywhere. -/
def SameFb (s t : State) : Prop := ∀ i, fbByte t i = fbByte s i

/-- The operations that may issue transactions (R17, R124). -/
def isBusOp : Instr → Bool
  | .init | .scroll _ | .render .. => true
  | .setpix .. | .line .. | .wchar .. | .wstr .. | .fbwr .. | .fbrd .. | .fbfill .. | .geom => false

/-- Two transactions that are the same, or two data frames that differ in the streamed bytes alone (R99, R115). -/
def SameButStream (e e' : BusEntry) : Prop :=
  e' = e ∨ ∃ slice slice', slice'.length = slice.length ∧ e.bytes = ctrlData :: slice ∧
    e' = { e with bytes := ctrlData :: slice' }

/-- A bus operation's result when every one of its frames is answered `ok` and `answers` are left over. -/
def SentAll (frames : List (List Byte)) (answers : List BusAnswer) (s t : State) : Prop :=
  t.busLog = s.busLog ++ frames.map (okEntry s.params) ∧ t.answers = answers ∧ t.phase = .idle ∧
    t.respLog = s.respLog ++ [[0x00#8]]

/-- A bus operation's result when frame `k` is answered `fail` (R114). -/
def SentUntilFail (frames : List (List Byte)) (k : Nat) (answers : List BusAnswer) (s t : State) : Prop :=
  ∃ frame, frames[k]? = some frame ∧
    t.busLog = s.busLog ++ (frames.take k).map (okEntry s.params) ++ [⟨s.params.devAddr, frame, .fail⟩] ∧
    t.answers = answers ∧ t.phase = .idle ∧ t.respLog = s.respLog ++ [[0x01#8]]

/-- A bus operation's state while frame `k` has no answer (R110). -/
def SentUntilWait (job : BusJob) (frames : List (List Byte)) (k : Nat) (s t : State) : Prop :=
  ∃ frame, frames[k]? = some frame ∧
    t.busLog = s.busLog ++ (frames.take k).map (okEntry s.params) ++ [⟨s.params.devAddr, frame, .pending⟩] ∧
    t.answers = [] ∧ t.phase = .waitBus job k ∧ t.respLog = s.respLog

/-- What a bus operation leaves alone, whatever the transport answers, beside what the three forms above name and
the flags `INITED` and `SCROLLING` (R114, R120, R123, R204). -/
def BusFrame (s t : State) : Prop :=
  t = { s with inited := t.inited, scrolling := t.scrolling, phase := t.phase, busLog := t.busLog,
               respLog := t.respLog, answers := t.answers }

/-! ### What software must do (CORE does not check it) -/

/-- The last character of a string that fits ends at or before the right edge (R264). -/
def TextFits (p : Params) (x : Int) (n : Nat) : Prop := n = 0 ∨ x + 8 * ((n : Int) - 1) ≤ (p.width : Int) - 8

/-- The obligations whose breach CORE answers with a trap: R260 (clip), R185 and R264 (text), R201 and R222 (RENDER,
SCROLL after INIT), R146 and R147 (index). -/
def KeepsPreconditions (s : State) : Instr → Prop
  | .init | .fbfill _ | .geom => True
  | .setpix x y _ => InBounds s.params (coord x) (coord y)
  | .line x0 y0 x1 y1 _ =>
    InBounds s.params (coord x0) (coord y0) ∧ InBounds s.params (coord x1) (coord y1)
  | .wchar x y _ => OffScreen s.params (coord x) (coord y) ∨ (0 ≤ coord x ∧ 0 ≤ coord y)
  | .wstr x y text => OffScreen s.params (coord x) (coord y) ∨ text = [] ∨
    (0 ≤ coord x ∧ 0 ≤ coord y ∧ TextFits s.params (coord x) text.length)
  | .render sc ec sp ep => s.inited = true ∧ AreaOk s.params ⟨sc, ec, sp, ep⟩
  | .scroll _ => s.inited = true
  | .fbwr idx _ | .fbrd idx => idx.toNat < s.params.fbLen

/-- The obligations CORE lets software break: R252 (an `INIT` before the first pixel operation), R262 (scrolling off
before `RENDER`), R265 (contiguous areas). Breaking one loses only claims about the display. -/
def KeepsDisplayRules (s : State) : Instr → Prop
  | .setpix .. | .line .. | .wchar .. | .wstr .. => s.inited = true
  | .render sc ec sp ep => s.scrolling = .off ∧ Contiguous s.params ⟨sc, ec, sp, ep⟩
  | .init | .scroll _ | .fbwr .. | .fbrd _ | .fbfill _ | .geom => True

end Sys2Proof.Machine
end

