-- ==== Sys2Proof/Certificates/Slice0/Obligations.lean ====
section
/-! DEFINITION. The statements for the provers, from the numbered rules of spec/. Each docstring names the rules. -/

open Sys2Proof Sys2Proof.Machine

/-! ### Encodings (30_encoding.md) -/

/-- R83 to R93, R102: decoding the encoding of a well-formed operation gives it back, every operand at every value. -/
def Obligations.DecodeOfEncodeIsTheOperation : Prop :=
  ∀ i : Instr, i.wf = true → decode (encode i) = .instr i

/-- R82, R94: a packet that decodes is the encoding of the one operation it decodes to, which is well-formed; so each
operation has exactly one packet, and no packet bit is ignored. -/
def Obligations.DecodedPacketIsTheEncoding : Prop :=
  ∀ (p : List Byte) (i : Instr), decode p = .instr i → i.wf = true ∧ encode i = p

/-- R94: which packets are illegal, clause by clause, and that an accepted one traps `IllegalCommand` and changes
nothing else. `i2` is the length's high byte (R221), free for a packet of 65536 bytes or more (log 16). -/
def Obligations.IllegalPacketsAreThoseOfTheRuleAndTrap : Prop :=
  ∀ p : List Byte,
    ((∃ r, decode p = .illegal r) ↔
      (p = [] ∨ ¬ (1 ≤ (p.headD 0x00#8).toNat ∧ (p.headD 0x00#8).toNat ≤ 11) ∨
        [1, 6, 10, 6, 6 + (p.getD 5 0x00#8).toNat, 5, 2, 4, 3, 2, 1][(p.headD 0x00#8).toNat - 1]? ≠ some p.length ∨
        ((p.headD 0x00#8).toNat ∈ [2, 3, 7] ∧ p.getD 1 0x00#8 &&& 0xFE#8 ≠ 0x00#8))) ∧
    ∀ (s : State) (rest : List (List Byte)) (r : Illegal),
      s.params.geometryOk = true → s.resetPin = none → s.phase = .idle → s.cmdPort = p :: rest →
      decode p = .illegal r →
      ∃ i2 : Byte, (p.length < 65536 → i2 = BitVec.ofNat 8 (p.length / 256)) ∧
        step s = .next { s with
          cmdPort := rest
          faulted := true
          fcode := 0x01#8
          finfo := ⟨p.headD 0x00#8, BitVec.ofNat 8 (p.length % 256), i2, 0x00#8⟩
          respLog := s.respLog ++
            [[0xFF#8, 0x01#8, p.headD 0x00#8, BitVec.ofNat 8 (p.length % 256), i2, 0x00#8]]
          phase := .halt }

/-- R83 to R93, R102: packets written out byte by byte from the formats decode to what they stand for. -/
def Obligations.PacketsOfTheFormatsDecode : Prop :=
  decode [0x01#8] = .instr .init ∧
  decode [0x02#8, 0x01#8, 0x05#8, 0x00#8, 0x0A#8, 0x00#8] = .instr (.setpix 5#16 10#16 true) ∧
  decode [0x02#8, 0x00#8, 0xFF#8, 0xFF#8, 0x00#8, 0x00#8] = .instr (.setpix (BitVec.ofInt 16 (-1)) 0#16 false) ∧
  decode [0x03#8, 0x01#8, 0x0A#8, 0x00#8, 0x05#8, 0x00#8, 0x02#8, 0x00#8, 0x08#8, 0x00#8] =
    .instr (.line 10#16 5#16 2#16 8#16 true) ∧
  decode [0x04#8, 0x10#8, 0x00#8, 0x0D#8, 0x00#8, 0x62#8] = .instr (.wchar 16#16 13#16 0x62#8) ∧
  decode [0x05#8, 0x00#8, 0x00#8, 0x00#8, 0x00#8, 0x02#8, 0x41#8, 0x31#8] = .instr (.wstr 0#16 0#16 [0x41#8, 0x31#8]) ∧
  decode [0x06#8, 0x10#8, 0x17#8, 0x01#8, 0x01#8] = .instr (.render 16#8 23#8 1#8 1#8) ∧
  decode [0x07#8, 0x01#8] = .instr (.scroll true) ∧
  decode [0x08#8, 0x85#8, 0x00#8, 0xFF#8] = .instr (.fbwr 133#16 0xFF#8) ∧
  decode [0x09#8, 0x14#8, 0x01#8] = .instr (.fbrd 276#16) ∧
  decode [0x0A#8, 0xAA#8] = .instr (.fbfill 0xAA#8) ∧
  decode [0x0B#8] = .instr .geom

/-! ### The sequencer (10_state.md, 60_exceptions.md, 70_reset_and_hazards.md) -/

/-- R26, R41: an idle CORE with a packet at the command port accepts it and runs exactly the operation it encodes. -/
def Obligations.StepRunsTheDecodedOperation : Prop :=
  ∀ (s : State) (p : List Byte) (rest : List (List Byte)) (i : Instr),
    s.params.geometryOk = true → s.resetPin = none → s.phase = .idle → s.cmdPort = p :: rest →
    decode p = .instr i →
    step s = exec i { s with cmdPort := rest, phase := .exec }

/-- R41: every accepted packet is followed by one response with `PHASE` back to `IDLE`, or by one `TRAP` response with
`PHASE = HALT`, or by no response while CORE waits for the bus; a waiting operation ends in the same way, with one
response, and accepts nothing meanwhile. -/
def Obligations.OneResponsePerPacketOrWaiting : Prop :=
  (∀ (s t : State) (p : List Byte) (rest : List (List Byte)),
    s.params.geometryOk = true → s.resetPin = none → s.phase = .idle → s.cmdPort = p :: rest → step s = .next t →
    t.cmdPort = rest ∧
      ((t.phase = .idle ∧ ∃ r, t.respLog = s.respLog ++ [r]) ∨
       (t.phase = .halt ∧ ∃ c i0 i1 i2 i3, t.respLog = s.respLog ++ [[0xFF#8, c, i0, i1, i2, i3]]) ∨
       (IsWaiting t ∧ t.respLog = s.respLog))) ∧
  (∀ (s t : State) (job : BusJob) (k : Nat),
    s.params.geometryOk = true → s.resetPin = none → s.phase = .waitBus job k → step s = .next t →
    t.cmdPort = s.cmdPort ∧
      ((t.phase = .idle ∧ ∃ r, t.respLog = s.respLog ++ [r]) ∨
       (∃ k', k ≤ k' ∧ t.phase = .waitBus job k' ∧ t.respLog = s.respLog)))

/-- R227: in `HALT` CORE accepts no packet, issues no transaction and changes no state; only reset leaves it, and reset
does not preserve `FB` (every byte is a new draw, log 7). The model's choice: a reset that is to land in `EXEC` does not
land here (log 12), and reset begins the response history anew (log 10). -/
def Obligations.HaltIsLeftByResetAlone : Prop :=
  ∀ s : State, s.params.geometryOk = true → s.phase = .halt →
    (s.resetPin ≠ some .now → step s = .next s) ∧
    (s.resetPin = some .now → ∃ t, step s = .next t ∧ LeftByReset s t)

/-- R110, R125, R269: an operation whose transaction is not answered waits, and no number of steps changes that. -/
def Obligations.StalledBusStallsForEver : Prop :=
  ∀ (n : Nat) (s : State) (job : BusJob) (k : Nat),
    s.params.geometryOk = true → s.resetPin = none → s.phase = .waitBus job k → s.answers = [] →
    Host.Core.run Sys2Proof.core n s = Host.Outcome.next s

/-- R250: reset in any phase puts every piece of state to its value after reset, abandons the operation in progress with
no response and issues no transaction; the pending transaction stays in the old history; after it CORE waits for a
packet; and no operation causes a reset. In `EXEC` it abandons an operation just accepted, or one whose last transaction
was just answered, before it issues another. `FCODE` and `FINFO` are left out: R45 gives them no value. What R250 does not
say is the model's choice: `respLog = []` (log 10), that `cmdPort`, `answers` and `oldBusLogs` are kept, and that a reset
to land in `EXEC` waits for that phase (log 12). The draw is log 7's. -/
def Obligations.ResetInAnyPhase : Prop :=
  (∀ s : State, s.params.geometryOk = true →
    (s.resetPin = some .now ∨ (s.resetPin = some .inExec ∧ s.phase = .exec) →
      ∃ t, step s = .next t ∧ LeftByReset s t ∧ t.oldBusLogs = s.oldBusLogs ++ [s.busLog] ∧
        t.cmdPort = s.cmdPort ∧ t.answers = s.answers ∧ (t.cmdPort = [] → step t = .next t)) ∧
    (s.resetPin = some .inExec →
      (∀ p rest, s.phase = .idle → s.cmdPort = p :: rest →
        ∃ t, step s = .next t ∧ LeftByReset s t ∧ t.oldBusLogs = s.oldBusLogs ++ [s.busLog] ∧
          t.cmdPort = rest ∧ t.answers = s.answers) ∧
      (∀ job k a as old addr bytes, s.phase = .waitBus job k → s.answers = a :: as →
        s.busLog = old ++ [⟨addr, bytes, .pending⟩] →
        ∃ t, step s = .next t ∧ LeftByReset s t ∧
          t.oldBusLogs = s.oldBusLogs ++ [old ++ [⟨addr, bytes, a.status⟩]] ∧
          t.cmdPort = s.cmdPort ∧ t.answers = as) ∧
      ((s.phase = .idle ∧ s.cmdPort = []) ∨ (IsWaiting s ∧ s.answers = []) ∨ s.phase = .halt →
        step s = .next s))) ∧
  ∀ (i : Instr) (s t : State), exec i s = .next t →
    t.resetPin = s.resetPin ∧ t.epoch = s.epoch ∧ t.oldBusLogs = s.oldBusLogs

/-- R250 with R26, R62, R110: a reset between two transactions of an operation. Wherever an operation waits, the answer to
its transaction `k` can come and the reset land before transaction `k + 1` is issued: the old history then ends with the
operation's first `k` transactions answered `ok` and transaction `k` with that answer, nothing pending, and no response is
given. That the moment of the reset is an input is the model's choice (log 12), and so are the draw (log 7) and the response
history begun anew (log 10). -/
def Obligations.ResetBetweenTransactions : Prop :=
  ∀ (i : Instr) (s t : State) (job : BusJob) (k : Nat) (a : BusAnswer),
    s.params.geometryOk = true → exec i s = .next t → t.phase = .waitBus job k →
    ∃ frames frame u, jobFrames job s = .ok frames ∧ frames[k]? = some frame ∧
      step (assertReset .inExec (deliverAnswer a t)) = .next u ∧ LeftByReset s u ∧
      u.oldBusLogs = s.oldBusLogs ++
        [s.busLog ++ (frames.take k).map (okEntry s.params) ++ [⟨s.params.devAddr, frame, a.status⟩]] ∧
      u.cmdPort = s.cmdPort ∧ u.answers = []

/-- R45, R8: the values after reset that the spec gives, at the reference geometry; `FB` is unspecified, so every byte
is the free draw (log 7). -/
def Obligations.ResetValues : Prop :=
  State.reset.inited = false ∧ State.reset.faulted = false ∧ State.reset.scrolling = .unknown ∧
  State.reset.phase = .idle ∧ State.reset.busLog = [] ∧ (∀ i, fbByte State.reset i = Config.fbDraw State.reset.epoch i) ∧
  State.reset.params.width = 128 ∧ State.reset.params.height = 64 ∧ State.reset.params.pages = 8 ∧
  State.reset.params.fbLen = 1024

/-- R26, R62, R110: an operation that waits for the bus and goes on when answers come ends exactly as it would have
ended had the answers been there at once. That the answers to come stand in a list at the port is the model's choice
(log 2), and that a `RENDER` which goes on reads its slice again is its reading of R61 (log 23). -/
def Obligations.WaitingThenAnsweredIsOneRun : Prop :=
  ∀ (i : Instr) (s t : State) (early late : List BusAnswer),
    s.params.geometryOk = true → s.resetPin = none → late ≠ [] →
    exec i { s with answers := early } = .next t → IsWaiting t →
    step { t with answers := late } = exec i { s with answers := early ++ late }

/-! ### framebuffer_writer (20_memory.md, 41_framebuffer_writer.md) -/

/-- R52: pixel `(x, y)` is bit `y mod 8` of byte `(y div 8) * W + x`, a bijection between the pixels in bounds and the
bits of `FB`, with the inverse the rule gives. -/
def Obligations.PixelMapIsABijection : Prop :=
  (∀ (s : State) (x y : Int), InBounds s.params x y →
    ∃ i k : Nat, (i : Int) = y / 8 * s.params.width + x ∧ (k : Int) = y % 8 ∧
      pixelIndex s.params x y = i ∧ pixelBit y = k ∧ pixel s x y = (fbByte s i).getLsbD k) ∧
  ∀ p : Params, p.geometryOk = true →
    (∀ x y, InBounds p x y → pixelIndex p x y < p.fbLen ∧ pixelBit y ≤ 7 ∧
      (x, y) = (((pixelIndex p x y % p.width : Nat) : Int),
        ((8 * (pixelIndex p x y / p.width) + pixelBit y : Nat) : Int))) ∧
    (∀ i k : Nat, i < p.fbLen → k ≤ 7 →
      InBounds p ((i % p.width : Nat) : Int) ((8 * (i / p.width) + k : Nat) : Int) ∧
      pixelIndex p ((i % p.width : Nat) : Int) ((8 * (i / p.width) + k : Nat) : Int) = i ∧
      pixelBit ((8 * (i / p.width) + k : Nat) : Int) = k)

/-- R142, R143, R144: `SETPIX` in bounds completes, changing one bit of one byte and nothing else; out of bounds it
traps `OutOfBounds` with the coordinate's bytes and writes nothing. -/
def Obligations.SetpixWritesOneBitOrTraps : Prop :=
  ∀ (s : State) (x y : Half) (on : Bool), s.params.geometryOk = true →
    (InBounds s.params (coord x) (coord y) →
      ∃ t, exec (.setpix x y on) s = .next t ∧ CompletedWith [] s t ∧
        ∀ i, fbByte t i =
          if i = pixelIndex s.params (coord x) (coord y) then
            (if on then fbByte s i ||| BitVec.ofNat 8 (2 ^ pixelBit (coord y))
             else fbByte s i &&& BitVec.ofNat 8 (255 - 2 ^ pixelBit (coord y)))
          else fbByte s i) ∧
    (¬ InBounds s.params (coord x) (coord y) →
      ∃ t, exec (.setpix x y on) s = .next t ∧
        TrappedWith 0x03#8 ⟨x.extractLsb' 0 8, x.extractLsb' 8 8, y.extractLsb' 0 8, y.extractLsb' 8 8⟩ s t ∧
        t.fb = s.fb)

/-- R145: after `SETPIX x, y, on` the pixel reads `on`, by `Pixel` and by an `FBRD` of its byte, and every other pixel
in bounds is unchanged. -/
def Obligations.SetpixThenReadGivesThePixel : Prop :=
  ∀ (s : State) (x y : Half) (on : Bool), s.params.geometryOk = true → InBounds s.params (coord x) (coord y) →
    ∃ t, exec (.setpix x y on) s = .next t ∧ pixel t (coord x) (coord y) = on ∧
      (∀ x' y', InBounds s.params x' y' → (x', y') ≠ (coord x, coord y) → pixel t x' y' = pixel s x' y') ∧
      (∃ u v, exec (.fbrd (BitVec.ofNat 16 (pixelIndex s.params (coord x) (coord y)))) t = .next u ∧
        u.respLog = t.respLog ++ [[0x00#8, v]] ∧ v.getLsbD (pixelBit (coord y)) = on)

/-- R146: `FBWR` below `FBLEN` stores its byte and nothing else changes; from `FBLEN` on it traps `FbIndexRange`. -/
def Obligations.FbwrStoresOneByteOrTraps : Prop :=
  ∀ (s : State) (idx : Half) (data : Byte),
    (idx.toNat < s.params.fbLen →
      ∃ t, exec (.fbwr idx data) s = .next t ∧ CompletedWith [] s t ∧
        ∀ i, fbByte t i = if i = idx.toNat then data else fbByte s i) ∧
    (s.params.fbLen ≤ idx.toNat →
      ∃ t, exec (.fbwr idx data) s = .next t ∧
        TrappedWith 0x07#8 ⟨BitVec.ofNat 8 (idx.toNat % 256), BitVec.ofNat 8 (idx.toNat / 256), 0x00#8, 0x00#8⟩ s t ∧
        t.fb = s.fb)

/-- R147: `FBRD` below `FBLEN` answers the byte and changes nothing; from `FBLEN` on it traps `FbIndexRange`. -/
def Obligations.FbrdAnswersTheByteOrTraps : Prop :=
  ∀ (s : State) (idx : Half),
    (idx.toNat < s.params.fbLen →
      exec (.fbrd idx) s =
        .next { s with respLog := s.respLog ++ [[0x00#8, fbByte s idx.toNat]], phase := .idle }) ∧
    (s.params.fbLen ≤ idx.toNat →
      ∃ t, exec (.fbrd idx) s = .next t ∧
        TrappedWith 0x07#8 ⟨BitVec.ofNat 8 (idx.toNat % 256), BitVec.ofNat 8 (idx.toNat / 256), 0x00#8, 0x00#8⟩ s t ∧
        t.fb = s.fb)

/-- R58, R46: a byte that nothing has written reads as the reset draw, the same at every read: two `FBRD`s of one index
answer the same, whatever the draw is. -/
def Obligations.FbrdTwiceAnswersTheSame : Prop :=
  ∀ (s t u : State) (idx : Half), idx.toNat < s.params.fbLen →
    exec (.fbrd idx) s = .next t → exec (.fbrd idx) t = .next u →
    ∃ v, u.respLog = s.respLog ++ [[0x00#8, v], [0x00#8, v]] ∧ SameFb s u

/-- R148: `FBFILL` completes with every byte of `FB` its operand, so that no byte depends on the reset draw any more. -/
def Obligations.FbfillStoresEveryByte : Prop :=
  ∀ (s : State) (data : Byte),
    ∃ t, exec (.fbfill data) s = .next t ∧ CompletedWith [] s t ∧ ∀ i, i < s.params.fbLen → fbByte t i = data

/-- R101, R149: `GEOM` completes with `W`, `H`, `PAGES`, `FBLEN`, each low byte first, and changes no other state. -/
def Obligations.GeomAnswersTheGeometry : Prop :=
  ∀ s : State,
    exec .geom s = .next { s with
      respLog := s.respLog ++
        [[0x00#8,
          BitVec.ofNat 8 (s.params.width % 256), BitVec.ofNat 8 (s.params.width / 256),
          BitVec.ofNat 8 (s.params.height % 256), BitVec.ofNat 8 (s.params.height / 256),
          BitVec.ofNat 8 (s.params.height / 8 % 256), BitVec.ofNat 8 (s.params.height / 8 / 256),
          BitVec.ofNat 8 (s.params.height / 8 * s.params.width % 256),
          BitVec.ofNat 8 (s.params.height / 8 * s.params.width / 256)]]
      phase := .idle }

/-! ### bresenham_line_rasterizer (42_line_rasterizer.md) -/

/-- R160, items 1 to 4: the walk starts at one endpoint and ends at the other, has `max(|dx|, |dy|) + 1` points, visits
none twice, and each step moves by at most one in each axis, toward the end, and by exactly one along the longer axis.
R162 fixes which such walk it is: point `n` is `(cx, cy)` after `n` iterations of the loop; so, with `D` and `E` the
distances in `x` and `y`, a point lies within half a unit of the ideal line along the shorter axis, a tie going to the
diagonal step, as in the instances of R162 (e). That the loop is a list of points is the model's reading (log 19). -/
def Obligations.LineWalkIsARasterWalk : Prop :=
  (∀ x0 y0 x1 y1 : Int,
    (linePoints x0 y0 x1 y1).head? = some (x0, y0) ∧
    (linePoints x0 y0 x1 y1).getLast? = some (x1, y1) ∧
    (linePoints x0 y0 x1 y1).length = max (x1 - x0).natAbs (y1 - y0).natAbs + 1 ∧
    (linePoints x0 y0 x1 y1).Nodup ∧
    (∀ n a b a' b', (linePoints x0 y0 x1 y1)[n]? = some (a, b) → (linePoints x0 y0 x1 y1)[n + 1]? = some (a', b') →
      (a' = a ∨ (a' = a + 1 ∧ x0 < x1) ∨ (a' = a - 1 ∧ x1 < x0)) ∧
      (b' = b ∨ (b' = b + 1 ∧ y0 < y1) ∨ (b' = b - 1 ∧ y1 < y0)) ∧
      ((y1 - y0).natAbs ≤ (x1 - x0).natAbs → a' ≠ a) ∧
      ((x1 - x0).natAbs ≤ (y1 - y0).natAbs → b' ≠ b)) ∧
    (∀ n ≤ max (x1 - x0).natAbs (y1 - y0).natAbs,
      (linePoints x0 y0 x1 y1)[n]? =
        some ((lineAdvance^[n] (lineStart x0 y0 x1 y1)).cx, (lineAdvance^[n] (lineStart x0 y0 x1 y1)).cy)) ∧
    (∀ (x y : Int) (D E a b : Nat), (x, y) ∈ linePoints x0 y0 x1 y1 →
      D = (x1 - x0).natAbs → E = (y1 - y0).natAbs → a = (x - x0).natAbs → b = (y - y0).natAbs →
      (E ≤ D → 0 < D → 2 * (b * D) ≤ 2 * (a * E) + D ∧ 2 * (a * E) < 2 * (b * D) + D) ∧
      (D ≤ E → 0 < E → 2 * (a * E) ≤ 2 * (b * D) + E ∧ 2 * (b * D) < 2 * (a * E) + E))) ∧
  linePoints 0 0 2 1 = [(0, 0), (1, 1), (2, 1)] ∧
  linePoints 2 1 0 0 = [(2, 1), (1, 0), (0, 0)] ∧
  linePoints 0 0 5 2 = [(0, 0), (1, 0), (2, 1), (3, 1), (4, 2), (5, 2)]

/-- R164: with both endpoints in bounds `LINE` completes; the pixels of the walk are `on` afterwards and every other
pixel and byte reads as before. The walk has exactly `max(dx, -dy) + 1` points, distinct, from one endpoint to the other,
and on the source's three instances it is the points the rule lists, on R162's (two ties and a line that is neither
straight nor diagonal) those R162 lists. `LineWalkIsARasterWalk` says which walk it is for all endpoints; that the loop is
a list of points is the model's reading (log 19). -/
def Obligations.LineDrawsExactlyItsWalk : Prop :=
  (∀ (s : State) (x0 y0 x1 y1 : Half) (on : Bool), s.params.geometryOk = true →
    InBounds s.params (coord x0) (coord y0) → InBounds s.params (coord x1) (coord y1) →
    ∃ t, exec (.line x0 y0 x1 y1 on) s = .next t ∧ CompletedWith [] s t ∧
      (∀ x y, InBounds s.params x y →
        pixel t x y =
          if (x, y) ∈ linePoints (coord x0) (coord y0) (coord x1) (coord y1) then on else pixel s x y) ∧
      (∀ i, s.params.fbLen ≤ i → fbByte t i = fbByte s i)) ∧
  (∀ x0 y0 x1 y1 : Int,
    (linePoints x0 y0 x1 y1).length = max (x1 - x0).natAbs (y1 - y0).natAbs + 1 ∧
    (linePoints x0 y0 x1 y1).Nodup ∧
    (linePoints x0 y0 x1 y1).head? = some (x0, y0) ∧ (linePoints x0 y0 x1 y1).getLast? = some (x1, y1)) ∧
  linePoints 0 0 7 0 = [(0, 0), (1, 0), (2, 0), (3, 0), (4, 0), (5, 0), (6, 0), (7, 0)] ∧
  linePoints 0 0 0 7 = [(0, 0), (0, 1), (0, 2), (0, 3), (0, 4), (0, 5), (0, 6), (0, 7)] ∧
  linePoints 0 0 4 4 = [(0, 0), (1, 1), (2, 2), (3, 3), (4, 4)] ∧
  linePoints 0 0 2 1 = [(0, 0), (1, 1), (2, 1)] ∧
  linePoints 2 1 0 0 = [(2, 1), (1, 0), (0, 0)] ∧
  linePoints 0 0 5 2 = [(0, 0), (1, 0), (2, 1), (3, 1), (4, 2), (5, 2)]

/-- R163: every visited point lies in the endpoints' rectangle; with both endpoints in bounds `LINE` does not trap; with
one out of bounds it writes the walk's points before the first one out of bounds and traps there, `FINFO` naming it. -/
def Obligations.LineTrapsAtTheFirstPointOutOfBounds : Prop :=
  (∀ x0 y0 x1 y1 x y : Int, (x, y) ∈ linePoints x0 y0 x1 y1 →
    min x0 x1 ≤ x ∧ x ≤ max x0 x1 ∧ min y0 y1 ≤ y ∧ y ≤ max y0 y1) ∧
  (∀ (s : State) (x0 y0 x1 y1 : Half) (on : Bool), s.params.geometryOk = true →
    (InBounds s.params (coord x0) (coord y0) ∧ InBounds s.params (coord x1) (coord y1) →
      ∃ t, exec (.line x0 y0 x1 y1 on) s = .next t ∧ t.phase = .idle) ∧
    (¬ (InBounds s.params (coord x0) (coord y0) ∧ InBounds s.params (coord x1) (coord y1)) →
      ∃ written px py after t,
        linePoints (coord x0) (coord y0) (coord x1) (coord y1) = written ++ (px, py) :: after ∧
        (∀ x y, (x, y) ∈ written → InBounds s.params x y) ∧ ¬ InBounds s.params px py ∧
        exec (.line x0 y0 x1 y1 on) s = .next t ∧
        TrappedWith 0x03#8
          ⟨BitVec.ofInt 8 px, BitVec.ofInt 8 (px / 256), BitVec.ofInt 8 py, BitVec.ofInt 8 (py / 256)⟩ s t ∧
        (∀ x y, InBounds s.params x y → pixel t x y = if (x, y) ∈ written then on else pixel s x y) ∧
        (∀ i, s.params.fbLen ≤ i → fbByte t i = fbByte s i)))

/-- R165: with 16-bit operands the registers of `LINE`'s walk stay in the bounds the rule states, at every iteration.
By `LineWalkIsARasterWalk` the point drawn at iteration `n` is the `(cx, cy)` of these registers. -/
def Obligations.LineRegistersStayBounded : Prop :=
  ∀ (x0 y0 x1 y1 : Half) (n : Nat) (r : LineRegs),
    n ≤ max (coord x1 - coord x0).natAbs (coord y1 - coord y0).natAbs →
    r = lineAdvance^[n] (lineStart (coord x0) (coord y0) (coord x1) (coord y1)) →
    0 ≤ r.dx ∧ r.dx ≤ 65535 ∧ -65535 ≤ r.dy ∧ r.dy ≤ 0 ∧ 3 * r.dy ≤ 2 * r.err ∧ 2 * r.err ≤ 3 * r.dx ∧
    r.err.natAbs ≤ 98303 ∧ (2 * r.err).natAbs ≤ 196606 ∧
    min (coord x0) (coord x1) ≤ r.cx ∧ r.cx ≤ max (coord x0) (coord x1) ∧
    min (coord y0) (coord y1) ≤ r.cy ∧ r.cy ≤ max (coord y0) (coord y1)

/-- R166: a line only turns pixels the way of its operand, and leaves the pixels off its walk; drawing it again changes
nothing; drawing it on and then off leaves the walk's pixels off and every other pixel as it was. -/
def Obligations.LineAgainAndLineErased : Prop :=
  ∀ (s t u v : State) (x0 y0 x1 y1 : Half) (on : Bool), s.params.geometryOk = true →
    InBounds s.params (coord x0) (coord y0) → InBounds s.params (coord x1) (coord y1) →
    exec (.line x0 y0 x1 y1 on) s = .next t → exec (.line x0 y0 x1 y1 on) t = .next u →
    exec (.line x0 y0 x1 y1 (!on)) t = .next v →
    ∀ x y, InBounds s.params x y →
      (pixel s x y = on → pixel t x y = on) ∧
      ((x, y) ∉ linePoints (coord x0) (coord y0) (coord x1) (coord y1) → pixel t x y = pixel s x y) ∧
      pixel u x y = pixel t x y ∧
      pixel v x y =
        if (x, y) ∈ linePoints (coord x0) (coord y0) (coord x1) (coord y1) then !on else pixel s x y

/-! ### glyph_bitmap_blitter (43_glyph_blitter.md) -/

/-- R181, R182: the glyph of each byte value: letters of either case 1 to 26, digits 27 to 36, everything else the blank;
62 values have a glyph of their own and the other 194 have the blank. -/
def Obligations.GlyphOfEveryByte : Prop :=
  (∀ ch : Byte,
    (0x41 ≤ ch.toNat ∧ ch.toNat ≤ 0x5A → glyphOf ch = ch.toNat - 0x41 + 1) ∧
    (0x61 ≤ ch.toNat ∧ ch.toNat ≤ 0x7A → glyphOf ch = ch.toNat - 0x61 + 1) ∧
    (0x30 ≤ ch.toNat ∧ ch.toNat ≤ 0x39 → glyphOf ch = ch.toNat - 0x30 + 27) ∧
    (¬ (0x41 ≤ ch.toNat ∧ ch.toNat ≤ 0x5A) ∧ ¬ (0x61 ≤ ch.toNat ∧ ch.toNat ≤ 0x7A) ∧
      ¬ (0x30 ≤ ch.toNat ∧ ch.toNat ≤ 0x39) → glyphOf ch = 0)) ∧
  ((List.range 256).filter (fun n => decide (1 ≤ glyphOf (BitVec.ofNat 8 n) ∧ glyphOf (BitVec.ofNat 8 n) ≤ 36))).length
    = 62 ∧
  ((List.range 256).filter (fun n => decide (glyphOf (BitVec.ofNat 8 n) = 0))).length = 194

/-- R184 to R187: an off-screen `WCHAR` completes and changes nothing; one with a negative origin traps
`NegativeOrigin` and writes nothing; every other completes, its eight cell bytes replaced by the glyph's, whatever the
character, and every other byte kept. -/
def Obligations.WcharBlitsOneCellOrNothing : Prop :=
  ∀ (s : State) (x y : Half) (ch : Byte), s.params.geometryOk = true →
    (OffScreen s.params (coord x) (coord y) →
      exec (.wchar x y ch) s = .next { s with respLog := s.respLog ++ [[0x00#8]], phase := .idle }) ∧
    (¬ OffScreen s.params (coord x) (coord y) → coord x < 0 ∨ coord y < 0 →
      ∃ t, exec (.wchar x y ch) s = .next t ∧
        TrappedWith 0x04#8 ⟨x.extractLsb' 0 8, x.extractLsb' 8 8, y.extractLsb' 0 8, y.extractLsb' 8 8⟩ s t ∧
        t.fb = s.fb) ∧
    (¬ OffScreen s.params (coord x) (coord y) → 0 ≤ coord x → 0 ≤ coord y →
      ∃ t, exec (.wchar x y ch) s = .next t ∧ CompletedWith [] s t ∧
        ∀ i, fbByte t i =
          if glyphOffset s.params (coord x) (coord y) ≤ i ∧ i < glyphOffset s.params (coord x) (coord y) + 8 then
            s.params.glyphByte (glyphOf ch) (i - glyphOffset s.params (coord x) (coord y))
          else fbByte s i)

/-- R184, R185, R188, R189: `WSTR` tests its origin once; a string that fits completes with its characters side by side
on one page and every other byte kept; a negative origin traps at the first character; one that runs off the right edge
traps `StringOverrun` at its first character past it, the characters before it blitted. -/
def Obligations.WstrBlitsItsCharactersOrTraps : Prop :=
  ∀ (s : State) (x y : Half) (text : List Byte), s.params.geometryOk = true →
    (OffScreen s.params (coord x) (coord y) ∨ text = [] →
      exec (.wstr x y text) s = .next { s with respLog := s.respLog ++ [[0x00#8]], phase := .idle }) ∧
    (¬ OffScreen s.params (coord x) (coord y) → text ≠ [] → coord x < 0 ∨ coord y < 0 →
      ∃ t, exec (.wstr x y text) s = .next t ∧
        TrappedWith 0x04#8 ⟨x.extractLsb' 0 8, x.extractLsb' 8 8, y.extractLsb' 0 8, y.extractLsb' 8 8⟩ s t ∧
        t.fb = s.fb) ∧
    (¬ OffScreen s.params (coord x) (coord y) → 0 ≤ coord x → 0 ≤ coord y →
      TextFits s.params (coord x) text.length →
      ∃ t, exec (.wstr x y text) s = .next t ∧ CompletedWith [] s t ∧
        ∀ i, fbByte t i =
          if glyphOffset s.params (coord x) (coord y) ≤ i ∧
              i < glyphOffset s.params (coord x) (coord y) + 8 * text.length then
            s.params.glyphByte (glyphOf (text.getD ((i - glyphOffset s.params (coord x) (coord y)) / 8) 0x00#8))
              ((i - glyphOffset s.params (coord x) (coord y)) % 8)
          else fbByte s i) ∧
    (¬ OffScreen s.params (coord x) (coord y) → 0 ≤ coord x → 0 ≤ coord y →
      ¬ TextFits s.params (coord x) text.length →
      ∃ j t, 1 ≤ j ∧ j < text.length ∧ coord x + 8 * ((j : Int) - 1) ≤ (s.params.width : Int) - 8 ∧
        coord x + 8 * (j : Int) > (s.params.width : Int) - 8 ∧
        exec (.wstr x y text) s = .next t ∧
        TrappedWith 0x05#8
          ⟨BitVec.ofInt 8 (coord x + 8 * (j : Int)), BitVec.ofInt 8 ((coord x + 8 * (j : Int)) / 256),
            BitVec.ofNat 8 j, BitVec.ofNat 8 text.length⟩ s t ∧
        ∀ i, fbByte t i =
          if glyphOffset s.params (coord x) (coord y) ≤ i ∧
              i < glyphOffset s.params (coord x) (coord y) + 8 * j then
            s.params.glyphByte (glyphOf (text.getD ((i - glyphOffset s.params (coord x) (coord y)) / 8) 0x00#8))
              ((i - glyphOffset s.params (coord x) (coord y)) % 8)
          else fbByte s i)

/-- R188 corner case (b): a string of one character is exactly `WCHAR`. -/
def Obligations.WstrOfOneCharacterIsWchar : Prop :=
  ∀ (s : State) (x y : Half) (ch : Byte), exec (.wstr x y [ch]) s = exec (.wchar x y ch) s

/-- R190 (b), (c), (d), R182: the effect of a text depends on it only through the glyphs of its characters, so a
lower-case text does exactly what its upper-case text does, in every state. -/
def Obligations.TextMattersOnlyThroughItsGlyphs : Prop :=
  ∀ (s : State) (x y : Half) (text text' : List Byte),
    text.map glyphOf = text'.map glyphOf → exec (.wstr x y text) s = exec (.wstr x y text') s

/-- R183, R187 corner case (a), R220: an unsupported character drawn on the panel is no error: it completes and turns its
whole cell off. -/
def Obligations.UnsupportedCharacterErasesItsCell : Prop :=
  ∀ (s : State) (x y : Half) (ch : Byte), s.params.wf = true → glyphOf ch = 0 →
    ¬ OffScreen s.params (coord x) (coord y) → 0 ≤ coord x → 0 ≤ coord y →
    ∃ t, exec (.wchar x y ch) s = .next t ∧ CompletedWith [] s t ∧
      ∀ i < 8, fbByte t (glyphOffset s.params (coord x) (coord y) + i) = 0x00#8

/-! ### display_command_sequencer (40_command_sequencer.md) -/

/-- R120 (with R113, R114): `INIT` sends every byte of `INIT_SEQ` in a command frame of its own; all answered `ok` it
completes `OK` with `INITED = 1`, `SCROLLING = off`; a `fail` ends it at that frame with `FAIL`, `INITED = 0`,
`SCROLLING = unknown`; an answer that has not come leaves it waiting. `FB` is never touched. -/
def Obligations.InitSendsTheBringUpSequence : Prop :=
  ∀ (s : State) (frames : List (List Byte)), frames = s.params.initSeq.map (fun c => [0x80#8, c]) →
    (∀ more, s.answers = List.replicate frames.length .ok ++ more →
      ∃ t, exec .init s = .next t ∧ BusFrame s t ∧ SentAll frames more s t ∧
        t.inited = true ∧ t.scrolling = .off) ∧
    (∀ k more, k < frames.length → s.answers = List.replicate k .ok ++ .fail :: more →
      ∃ t, exec .init s = .next t ∧ BusFrame s t ∧ SentUntilFail frames k more s t ∧
        t.inited = false ∧ t.scrolling = .unknown) ∧
    (∀ k, k < frames.length → s.answers = List.replicate k .ok →
      ∃ t, exec .init s = .next t ∧ BusFrame s t ∧ SentUntilWait .init frames k s t ∧
        t.inited = s.inited ∧ t.scrolling = s.scrolling)

/-- R123 (with R113, R114): `SCROLL` traps `NotInitialised` while `INITED = 0`; else it sends `SCROLL_SEQ(enabled)`
whatever `SCROLLING` is, and sets `SCROLLING` by its operand, or `unknown` on a failure. -/
def Obligations.ScrollSendsItsSequence : Prop :=
  ∀ (s : State) (enabled : Bool) (frames : List (List Byte)),
    frames = (s.params.scrollSeq enabled).map (fun c => [0x80#8, c]) →
    (s.inited = false →
      ∃ t, exec (.scroll enabled) s = .next t ∧
        TrappedWith 0x02#8 ⟨0x07#8, 0x00#8, 0x00#8, 0x00#8⟩ s t ∧ t.fb = s.fb) ∧
    (s.inited = true → ∀ more, s.answers = List.replicate frames.length .ok ++ more →
      ∃ t, exec (.scroll enabled) s = .next t ∧ BusFrame s t ∧ SentAll frames more s t ∧
        t.inited = true ∧ t.scrolling = if enabled then .on else .off) ∧
    (s.inited = true → ∀ k more, k < frames.length → s.answers = List.replicate k .ok ++ .fail :: more →
      ∃ t, exec (.scroll enabled) s = .next t ∧ BusFrame s t ∧ SentUntilFail frames k more s t ∧
        t.inited = true ∧ t.scrolling = .unknown) ∧
    (s.inited = true → ∀ k, k < frames.length → s.answers = List.replicate k .ok →
      ∃ t, exec (.scroll enabled) s = .next t ∧ BusFrame s t ∧ SentUntilWait (.scroll enabled) frames k s t ∧
        t.inited = true ∧ t.scrolling = s.scrolling)

/-- R111, R118, R119, R122, R203 (general knowledge, PRESUMED, log 4): the default tables of the reference instance. -/
def Obligations.ReferenceTables : Prop :=
  Params.reference.initSeq =
    [0xAE#8, 0x20#8, 0x00#8, 0x40#8, 0xA1#8, 0xA8#8, 0x3F#8, 0xC8#8, 0xD3#8, 0x00#8, 0xDA#8, 0x12#8, 0xD5#8,
     0x80#8, 0xD9#8, 0xF1#8, 0xDB#8, 0x30#8, 0x81#8, 0xFF#8, 0xA4#8, 0xA6#8, 0x8D#8, 0x14#8, 0x2E#8, 0xAF#8] ∧
  Params.reference.scrollSeq true = [0x26#8, 0x00#8, 0x00#8, 0x00#8, 0x03#8, 0x00#8, 0xFF#8, 0x2F#8] ∧
  Params.reference.scrollSeq false = [0x26#8, 0x00#8, 0x00#8, 0x00#8, 0x03#8, 0x00#8, 0xFF#8, 0x2E#8] ∧
  Params.reference.devAddr = 0x3C ∧ Params.reference.cmdColAddr = 0x21#8 ∧ Params.reference.cmdPageAddr = 0x22#8

/-- R116 to R118, R121: `INIT_SEQ` ends with the scroll deactivation and then display-on, after every configuration
group; of the arguments that follow the command byte, group 5 has `H - 1` and group 8 `COMPINS(W, H)` (log 17). R10, R122:
the enabling scroll sequence has the start page 0, the end page 3 and the interval 0, each at a place of its own (log 18).
That the disabling sequence is not empty is the model's choice (log 25). -/
def Obligations.SequencesHoldTheirFixedParts : Prop :=
  ∀ p : Params, p.wf = true →
    p.initSeq = (p.initTable.groups.take 15).flatMap p.initGroupBytes ++
      (p.initGroupBytes p.initTable.scrollOff ++ p.initGroupBytes p.initTable.displayOn) ∧
    p.initTable.groups.length = 17 ∧
    p.initTable.groups[4]? = some p.initTable.multiplexRatio ∧
    (∃ args, p.initGroupBytes p.initTable.multiplexRatio = p.initTable.multiplexRatio.cmd :: args ∧
      ∃ b ∈ args, b.toNat = p.height - 1) ∧
    p.initTable.groups[7]? = some p.initTable.comPinConfig ∧
    (∃ args, p.initGroupBytes p.initTable.comPinConfig = p.initTable.comPinConfig.cmd :: args ∧
      p.comPins.value p.width p.height ∈ args) ∧
    (∃ i j k : Nat, i ≠ j ∧ i ≠ k ∧ j ≠ k ∧
      p.scrollOn[i]? = some .startPage ∧ (p.scrollSeq true)[i]? = some 0x00#8 ∧
      p.scrollOn[j]? = some .endPage ∧ (p.scrollSeq true)[j]? = some 0x03#8 ∧
      p.scrollOn[k]? = some .interval ∧ (p.scrollSeq true)[k]? = some 0x00#8) ∧
    p.scrollSeq false ≠ []

/-- R124: every transaction an operation issues is a command frame or a data frame to `DEV_ADDR`, appended to the
history, and only `INIT`, `SCROLL` and `RENDER` issue any. -/
def Obligations.OnlyBusOperationsIssueTransactions : Prop :=
  ∀ (i : Instr) (s t : State), exec i s = .next t →
    ∃ issued, t.busLog = s.busLog ++ issued ∧
      (∀ e ∈ issued, e.addr = s.params.devAddr ∧
        ((e.bytes.length = 2 ∧ e.bytes.head? = some 0x80#8) ∨
         (2 ≤ e.bytes.length ∧ e.bytes.head? = some 0x40#8))) ∧
      (issued ≠ [] → i = .init ∨ (∃ b, i = .scroll b) ∨ ∃ sc ec sp ep, i = .render sc ec sp ep)

/-! ### render_area_to_display_window (44_render_area.md) -/

/-- R204 (with R201 to R203): `RENDER` traps `NotInitialised`, then `BadArea`, before any transaction; else it sends the
six window frames and one data frame of `buflen` contiguous bytes from `start_page * W + start_col` on, contiguous area or
not, and changes no flag, whatever the transport answers. -/
def Obligations.RenderSendsWindowAndSlice : Prop :=
  ∀ (s : State) (sc ec sp ep : Byte) (frames : List (List Byte)),
    frames = [[0x80#8, s.params.cmdColAddr], [0x80#8, sc], [0x80#8, ec], [0x80#8, s.params.cmdPageAddr], [0x80#8, sp],
      [0x80#8, ep],
      0x40#8 :: (List.range ((ec.toNat - sc.toNat + 1) * (ep.toNat - sp.toNat + 1))).map
        (fun m => fbByte s (sp.toNat * s.params.width + sc.toNat + m))] →
    (s.inited = false →
      ∃ t, exec (.render sc ec sp ep) s = .next t ∧
        TrappedWith 0x02#8 ⟨0x06#8, 0x00#8, 0x00#8, 0x00#8⟩ s t ∧ t.fb = s.fb) ∧
    (s.inited = true → ¬ AreaOk s.params ⟨sc, ec, sp, ep⟩ →
      ∃ t, exec (.render sc ec sp ep) s = .next t ∧ TrappedWith 0x06#8 ⟨sc, ec, sp, ep⟩ s t ∧ t.fb = s.fb) ∧
    (s.inited = true → AreaOk s.params ⟨sc, ec, sp, ep⟩ →
      (∀ more, s.answers = List.replicate 7 .ok ++ more →
        ∃ t, exec (.render sc ec sp ep) s = .next t ∧ BusFrame s t ∧ SentAll frames more s t ∧
          t.inited = true ∧ t.scrolling = s.scrolling) ∧
      (∀ k more, k < 7 → s.answers = List.replicate k .ok ++ .fail :: more →
        ∃ t, exec (.render sc ec sp ep) s = .next t ∧ BusFrame s t ∧ SentUntilFail frames k more s t ∧
          t.inited = true ∧ t.scrolling = s.scrolling) ∧
      (∀ k, k < 7 → s.answers = List.replicate k .ok →
        ∃ t, exec (.render sc ec sp ep) s = .next t ∧ BusFrame s t ∧
          SentUntilWait (.render ⟨sc, ec, sp, ep⟩) frames k s t ∧ t.inited = true ∧ t.scrolling = s.scrolling))

/-- R202, R206: the stream of a well-formed area is not empty and lies inside the buffer, contiguous area or not. -/
def Obligations.RenderStaysInsideTheBuffer : Prop :=
  ∀ (p : Params) (a : Area), AreaOk p a →
    1 ≤ areaBuflen a ∧ areaBuflen a ≤ p.fbLen ∧ areaOffset p a + areaBuflen a ≤ p.fbLen

/-- R205: the `m`-th streamed byte is the byte of the column and page where the display puts it, for every `m`, exactly
when the area is contiguous. -/
def Obligations.StreamMatchesWindowExactlyWhenContiguous : Prop :=
  ∀ (p : Params) (a : Area), p.geometryOk = true → AreaOk p a →
    ((∀ m, m < areaBuflen a →
        areaOffset p a + m =
          (a.startPage.toNat + m / areaCols a) * p.width + (a.startCol.toNat + m % areaCols a)) ↔
      (a.startPage = a.endPage ∨ (a.startCol.toNat = 0 ∧ a.endCol.toNat = p.width - 1)))

/-- R97, R202, R207: `RENDERFULL`, answered `ok`, streams all `FBLEN` bytes in one data frame, `FB[0]` first, as the
seventh transaction. -/
def Obligations.RenderfullStreamsTheWholeBuffer : Prop :=
  ∀ (s : State) (more : List BusAnswer), s.params.geometryOk = true → s.inited = true →
    s.answers = List.replicate 7 .ok ++ more →
    ∃ t, exec (asmRenderfull s.params) s = .next t ∧ t.busLog.length = s.busLog.length + 7 ∧ t.phase = .idle ∧
      t.busLog.getLast? =
        some ⟨s.params.devAddr, 0x40#8 :: (List.range s.params.fbLen).map (fbByte s), .ok⟩

/-! ### Traps, flags and what nothing depends on (10_state.md, 60_exceptions.md) -/

/-- R226: a trap latches `FCODE`, `FINFO` and `FAULTED`, responds `TRAP` and halts; everything else is as it was before
the operation, but for `FB` in `LINE` and `WSTR`. -/
def Obligations.TrapsArePrecise : Prop :=
  ∀ (i : Instr) (s t : State), exec i s = .next t → t.phase = .halt →
    (∃ c info, TrappedWith (faultByte c) info s t) ∧
    (t.fb ≠ s.fb → (∃ x0 y0 x1 y1 on, i = .line x0 y0 x1 y1 on) ∨ ∃ x y text, i = .wstr x y text)

/-- R222: `RENDER` and `SCROLL` trap when `INITED = 0`; no other operation looks at it: run with either value, it ends
the same but for the flag itself. -/
def Obligations.OnlyRenderAndScrollLookAtInited : Prop :=
  (∀ (s : State) (sc ec sp ep : Byte), s.inited = false →
    ∃ t, exec (.render sc ec sp ep) s = .next t ∧ TrappedWith 0x02#8 ⟨0x06#8, 0x00#8, 0x00#8, 0x00#8⟩ s t) ∧
  (∀ (s : State) (enabled : Bool), s.inited = false →
    ∃ t, exec (.scroll enabled) s = .next t ∧ TrappedWith 0x02#8 ⟨0x07#8, 0x00#8, 0x00#8, 0x00#8⟩ s t) ∧
  (∀ (i : Instr) (s t : State) (b : Bool), exec i s = .next t →
    (∀ sc ec sp ep, i ≠ .render sc ec sp ep) → (∀ enabled, i ≠ .scroll enabled) →
    ∃ b', exec i { s with inited := b } = .next { t with inited := b' })

/-- R25: no output of CORE depends on `SCROLLING`: a step from two states that differ in it alone ends the same but for
it. -/
def Obligations.NothingDependsOnScrolling : Prop :=
  ∀ (s : State) (v : Scrolling),
    (∀ t, step s = .next t → ∃ v', step { s with scrolling := v } = .next { t with scrolling := v' }) ∧
    (∀ f, step s = .fault f → step { s with scrolling := v } = .fault f) ∧
    (∀ r, step s = .refused r → step { s with scrolling := v } = .refused r)

/-- R24, R45 (log 9): the values of `FCODE` and `FINFO` are never observable: a step from two states that differ in them
alone gives the same responses and the same everything else. -/
def Obligations.NothingDependsOnTheFaultLatch : Prop :=
  ∀ (s t : State) (c : Byte) (info : FaultInfo), step s = .next t →
    ∃ c' info', step { s with fcode := c, finfo := info } = .next { t with fcode := c', finfo := info' }

/-- R221 ("no content of `FB` ever traps"), R63: what `FB` holds, and what its reset draw is, steers nothing: with another
content an operation ends the same way, with the same flags and latch. Its response is the same but for the byte an `FBRD`
answers, and its transactions are the same, one by one, but for the bytes a `RENDER` streams, as many as before. -/
def Obligations.NoContentOfTheBufferSteersAnOperation : Prop :=
  ∀ (i : Instr) (s t : State) (m : Memory) (e : Nat), exec i s = .next t →
    ∃ u, exec i { s with fb := m, epoch := e } = .next u ∧
      u = { t with fb := u.fb, epoch := e, respLog := u.respLog, busLog := u.busLog } ∧
      ((∀ idx, i ≠ .fbrd idx) → u.respLog = t.respLog) ∧
      ((∀ sc ec sp ep, i ≠ .render sc ec sp ep) → u.busLog = t.busLog) ∧
      (u.respLog = t.respLog ∨
        ∃ v v', t.respLog = s.respLog ++ [[0x00#8, v]] ∧ u.respLog = s.respLog ++ [[0x00#8, v']]) ∧
      ∃ issued issued', t.busLog = s.busLog ++ issued ∧ u.busLog = s.busLog ++ issued' ∧
        List.Forall₂ SameButStream issued issued'

/-- R28: nothing in CORE reads `BUSLOG`: with another history before it, a step does the same and keeps that history. -/
def Obligations.NothingReadsTheBusHistory : Prop :=
  ∀ (s t : State) (old : List BusEntry), s.resetPin = none → (IsWaiting s → s.busLog ≠ []) → step s = .next t →
    step { s with busLog := old ++ s.busLog } = .next { t with busLog := old ++ t.busLog }

/-- R32: which operation can change which flag: `INITED` only `INIT`, `SCROLLING` only `INIT` and `SCROLL`, and
`FAULTED` is set by a trap and cleared by no operation. -/
def Obligations.FlagsChangeOnlyAsTheTableSays : Prop :=
  ∀ (i : Instr) (s t : State), exec i s = .next t →
    (i ≠ .init → t.inited = s.inited) ∧
    (i ≠ .init → (∀ enabled, i ≠ .scroll enabled) → t.scrolling = s.scrolling) ∧
    (t.faulted = true ↔ s.faulted = true ∨ t.phase = .halt)

/-- R29: no step and no input changes the constants. -/
def Obligations.ConstantsNeverChange : Prop :=
  (∀ s t : State, step s = .next t → t.params = s.params) ∧
  (∀ (i : Instr) (s t : State), exec i s = .next t → t.params = s.params) ∧
  ∀ (inp : Input) (s : State), (applyInput inp s).params = s.params

/-- R53: on every geometry the spec admits every operation answers a next state, in every state and with every operand.
That an access outside `0 .. FBLEN - 1` would be a fault is the model's choice (log 15); so this says no operation computes
such an index. -/
def Obligations.NoOperationLeavesTheBuffer : Prop :=
  ∀ (i : Instr) (s : State), s.params.geometryOk = true → ∃ t, exec i s = .next t

/-- R185, R260, R264, R201, R222: an operation whose preconditions software keeps does not trap; one whose preconditions
it breaks does. -/
def Obligations.TrapsExactlyWhenAPreconditionIsBroken : Prop :=
  ∀ (i : Instr) (s t : State), s.params.geometryOk = true → exec i s = .next t →
    (t.phase = .halt ↔ ¬ KeepsPreconditions s i)

/-! ### Invariants -/

/-- R26, R28, R53, R62, R110, R111, R124: every step keeps the invariant: canonical memory inside `FB`, `HALT` exactly
while `FAULTED`, no state in the middle of an operation, well-formed transactions to `DEV_ADDR`, at most the last one
pending and exactly while CORE waits, the waiting operation in order. The canonical list of `FB` (log 6) and that no state
between two steps is in `EXEC`, a phase of R26 (log 14), are the model's own. -/
def Obligations.EveryStepKeepsTheInvariant : Prop :=
  ∀ s t : State, Inv s → step s = .next t → Inv t

/-- R45: the state after reset of every CORE the spec admits meets the invariant, the reference instance among them. The
invariant's clauses of logs 6 and 14 are the model's own. -/
def Obligations.ResetMeetsTheInvariant : Prop :=
  (∀ (p : Params) (epoch : Nat), p.wf = true → Inv (State.resetOf p epoch)) ∧ Inv State.reset

/-- R40, R42: whatever the outside world does keeps the invariant, its clauses of logs 6 and 14 among it; that an input
is a change of the lists at the ports is the model's choice (logs 2, 12). -/
def Obligations.InputsKeepTheInvariant : Prop :=
  ∀ (inp : Input) (s : State), Inv s → Inv (applyInput inp s)

/-- R41, R53: from every state that meets the invariant a step answers a next state: no fault and no refusal. What would
be one is the model's choice (logs 5, 14, 15). -/
def Obligations.InvariantStatesAlwaysStep : Prop :=
  ∀ s : State, Inv s → ∃ t, step s = .next t

/-- R121: every step keeps that `INITED = 1`, and every data frame in the history, are preceded by a whole bring-up
sequence answered `ok`. -/
def Obligations.BringUpComesBeforeAnyData : Prop :=
  ∀ s t : State, Inv s → BringUpFirst s → step s = .next t → BringUpFirst t

/-- R121, R222: in every state that a CORE the spec admits can reach, under any packets, answers and resets, a data frame
in the history has the whole bring-up sequence before it; and the invariant holds there, whose canonical list of `FB`
(log 6) and absence of `EXEC` between steps (log 14) are the model's own. -/
def Obligations.ReachableStatesBringUpFirst : Prop :=
  ∀ s : State, Reachable s → Inv s ∧ BringUpFirst s
end

