-- ==== Sys2Proof/Laws/Memory.lean ====
section
/-! SUPPORT. The laws of the framebuffer's list: a read after a write, and that every operation keeps the canonical
form (20_memory.md R58; log 6). -/

namespace Sys2Proof.Machine

@[simp] theorem Memory.lookup_nil (i : Nat) : Memory.lookup [] i = none := rfl

/-- A read after a write to the same index gives the value written. -/
@[simp] theorem Memory.lookup_store_same (m : Memory) (i : Nat) (v : Byte) :
    Memory.lookup (Memory.store m i v) i = some v := by
  induction m with
  | nil => simp [Memory.store, Memory.lookup]
  | cons c m ih =>
    obtain ⟨a, w⟩ := c
    simp only [Memory.store]
    split
    · simp [Memory.lookup]
    · split
      · simp [Memory.lookup]
      · simp [Memory.lookup, show a ≠ i by omega, ih]

/-- A write leaves every other index alone. -/
theorem Memory.lookup_store_ne (m : Memory) {i j : Nat} (v : Byte) (h : j ≠ i) :
    Memory.lookup (Memory.store m i v) j = Memory.lookup m j := by
  induction m with
  | nil => simp [Memory.store, Memory.lookup, h.symm]
  | cons c m ih =>
    obtain ⟨a, w⟩ := c
    simp only [Memory.store]
    split
    · simp [Memory.lookup, h.symm]
    · split
      · simp [Memory.lookup, h.symm, show a ≠ j by omega]
      · simp [Memory.lookup, ih]

/-- The two together. -/
theorem Memory.lookup_store (m : Memory) (i j : Nat) (v : Byte) :
    Memory.lookup (Memory.store m i v) j = if j = i then some v else Memory.lookup m j := by
  split
  · next h => rw [h, Memory.lookup_store_same]
  · next h => exact Memory.lookup_store_ne m v h

/-- A lower start is a weaker claim. -/
theorem Memory.risesFrom_mono {limit lo lo' : Nat} {m : Memory} (h : lo' ≤ lo)
    (hm : Memory.risesFrom limit lo m = true) : Memory.risesFrom limit lo' m = true := by
  cases m with
  | nil => rfl
  | cons c m =>
    simp only [Memory.risesFrom, Bool.and_eq_true, decide_eq_true_eq] at hm ⊢
    exact ⟨⟨by omega, hm.1.2⟩, hm.2⟩

/-- A write inside the limit keeps the order. -/
theorem Memory.risesFrom_store {limit lo i : Nat} {m : Memory} (v : Byte) (hlo : lo ≤ i) (hi : i < limit)
    (hm : Memory.risesFrom limit lo m = true) : Memory.risesFrom limit lo (Memory.store m i v) = true := by
  induction m generalizing lo with
  | nil => simp [Memory.store, Memory.risesFrom, hlo, hi]
  | cons c m ih =>
    obtain ⟨a, w⟩ := c
    simp only [Memory.risesFrom, Bool.and_eq_true, decide_eq_true_eq] at hm
    simp only [Memory.store]
    split
    · simp only [Memory.risesFrom, Bool.and_eq_true, decide_eq_true_eq]
      exact ⟨⟨hlo, hi⟩, ⟨by omega, hm.1.2⟩, hm.2⟩
    · split
      · next _ hia =>
        subst hia
        simp only [Memory.risesFrom, Bool.and_eq_true, decide_eq_true_eq]
        exact ⟨⟨hlo, hi⟩, hm.2⟩
      · simp only [Memory.risesFrom, Bool.and_eq_true, decide_eq_true_eq]
        exact ⟨hm.1, ih (by omega) hm.2⟩

/-- The empty list is canonical. -/
@[simp] theorem Memory.wf_nil (limit : Nat) : Memory.wf limit [] = true := rfl

/-- `Memory.store` keeps the canonical form. -/
theorem Memory.wf_store {limit i : Nat} {m : Memory} (v : Byte) (hi : i < limit) (hm : Memory.wf limit m = true) :
    Memory.wf limit (Memory.store m i v) = true :=
  Memory.risesFrom_store v (Nat.zero_le i) hi hm

/-- A listing of consecutive indices rises. -/
theorem Memory.risesFrom_range' (limit : Nat) (v : Byte) (n lo : Nat) (h : lo + n ≤ limit) :
    Memory.risesFrom limit lo ((List.range' lo n).map (fun i => (i, v))) = true := by
  induction n generalizing lo with
  | zero => rfl
  | succ n ih =>
    simp only [List.range'_succ, List.map_cons, Memory.risesFrom, Bool.and_eq_true, decide_eq_true_eq]
    exact ⟨⟨Nat.le_refl _, by omega⟩, ih (lo + 1) (by omega)⟩

/-- The listing that `fbFill` makes is canonical. -/
theorem Memory.wf_fill (limit : Nat) (v : Byte) :
    Memory.wf limit ((List.range limit).map (fun i => (i, v))) = true := by
  rw [List.range_eq_range']
  exact Memory.risesFrom_range' limit v limit 0 (by omega)

/-- Every index below the limit reads as the byte filled in, and no other is listed. -/
theorem Memory.lookup_fill (limit i : Nat) (v : Byte) :
    Memory.lookup ((List.range limit).map (fun j => (j, v))) i = if i < limit then some v else none := by
  have key : ∀ n lo, Memory.lookup ((List.range' lo n).map (fun j => (j, v))) i
      = if lo ≤ i ∧ i < lo + n then some v else none := by
    intro n
    induction n with
    | zero => intro lo; simp [show ¬ (lo ≤ i ∧ i < lo) by omega]
    | succ n ih =>
      intro lo
      simp only [List.range'_succ, List.map_cons, Memory.lookup, ih]
      by_cases h : lo = i
      · simp [h]
      · simp only [h, if_false]
        exact if_congr (by omega) rfl rfl
  rw [List.range_eq_range', key]
  simp

end Sys2Proof.Machine
end

