-- ==== Sys2Proof/Laws/State.lean ====
section
/-! SUPPORT. One lemma per field per named update of the state, so that no later proof unfolds a record update. -/

namespace Sys2Proof.Machine

/-! ### respond -/

@[simp] theorem respond_params (r : List Byte) (s : State) : (respond r s).params = s.params := rfl
@[simp] theorem respond_fb (r : List Byte) (s : State) : (respond r s).fb = s.fb := rfl
@[simp] theorem respond_inited (r : List Byte) (s : State) : (respond r s).inited = s.inited := rfl
@[simp] theorem respond_faulted (r : List Byte) (s : State) : (respond r s).faulted = s.faulted := rfl
@[simp] theorem respond_fcode (r : List Byte) (s : State) : (respond r s).fcode = s.fcode := rfl
@[simp] theorem respond_finfo (r : List Byte) (s : State) : (respond r s).finfo = s.finfo := rfl
@[simp] theorem respond_scrolling (r : List Byte) (s : State) : (respond r s).scrolling = s.scrolling := rfl
@[simp] theorem respond_phase (r : List Byte) (s : State) : (respond r s).phase = .idle := rfl
@[simp] theorem respond_busLog (r : List Byte) (s : State) : (respond r s).busLog = s.busLog := rfl
@[simp] theorem respond_oldBusLogs (r : List Byte) (s : State) : (respond r s).oldBusLogs = s.oldBusLogs := rfl
@[simp] theorem respond_respLog (r : List Byte) (s : State) : (respond r s).respLog = s.respLog ++ [r] := rfl
@[simp] theorem respond_cmdPort (r : List Byte) (s : State) : (respond r s).cmdPort = s.cmdPort := rfl
@[simp] theorem respond_answers (r : List Byte) (s : State) : (respond r s).answers = s.answers := rfl
@[simp] theorem respond_resetPin (r : List Byte) (s : State) : (respond r s).resetPin = s.resetPin := rfl
@[simp] theorem respond_epoch (r : List Byte) (s : State) : (respond r s).epoch = s.epoch := rfl

/-! ### raiseFault -/

@[simp] theorem raiseFault_params (c : FaultCode) (i : FaultInfo) (s : State) : (raiseFault c i s).params = s.params := rfl
@[simp] theorem raiseFault_fb (c : FaultCode) (i : FaultInfo) (s : State) : (raiseFault c i s).fb = s.fb := rfl
@[simp] theorem raiseFault_inited (c : FaultCode) (i : FaultInfo) (s : State) : (raiseFault c i s).inited = s.inited := rfl
@[simp] theorem raiseFault_faulted (c : FaultCode) (i : FaultInfo) (s : State) : (raiseFault c i s).faulted = true := rfl
@[simp] theorem raiseFault_fcode (c : FaultCode) (i : FaultInfo) (s : State) : (raiseFault c i s).fcode = faultByte c := rfl
@[simp] theorem raiseFault_finfo (c : FaultCode) (i : FaultInfo) (s : State) : (raiseFault c i s).finfo = i := rfl
@[simp] theorem raiseFault_scrolling (c : FaultCode) (i : FaultInfo) (s : State) : (raiseFault c i s).scrolling = s.scrolling := rfl
@[simp] theorem raiseFault_phase (c : FaultCode) (i : FaultInfo) (s : State) : (raiseFault c i s).phase = .halt := rfl
@[simp] theorem raiseFault_busLog (c : FaultCode) (i : FaultInfo) (s : State) : (raiseFault c i s).busLog = s.busLog := rfl
@[simp] theorem raiseFault_oldBusLogs (c : FaultCode) (i : FaultInfo) (s : State) : (raiseFault c i s).oldBusLogs = s.oldBusLogs := rfl
@[simp] theorem raiseFault_respLog (c : FaultCode) (i : FaultInfo) (s : State) : (raiseFault c i s).respLog = s.respLog ++ [trapResponse (faultByte c) i] := rfl
@[simp] theorem raiseFault_cmdPort (c : FaultCode) (i : FaultInfo) (s : State) : (raiseFault c i s).cmdPort = s.cmdPort := rfl
@[simp] theorem raiseFault_answers (c : FaultCode) (i : FaultInfo) (s : State) : (raiseFault c i s).answers = s.answers := rfl
@[simp] theorem raiseFault_resetPin (c : FaultCode) (i : FaultInfo) (s : State) : (raiseFault c i s).resetPin = s.resetPin := rfl
@[simp] theorem raiseFault_epoch (c : FaultCode) (i : FaultInfo) (s : State) : (raiseFault c i s).epoch = s.epoch := rfl

/-! ### issue -/

@[simp] theorem issue_params (j : BusJob) (k : Nat) (b : List Byte) (s : State) : (issue j k b s).params = s.params := rfl
@[simp] theorem issue_fb (j : BusJob) (k : Nat) (b : List Byte) (s : State) : (issue j k b s).fb = s.fb := rfl
@[simp] theorem issue_inited (j : BusJob) (k : Nat) (b : List Byte) (s : State) : (issue j k b s).inited = s.inited := rfl
@[simp] theorem issue_faulted (j : BusJob) (k : Nat) (b : List Byte) (s : State) : (issue j k b s).faulted = s.faulted := rfl
@[simp] theorem issue_fcode (j : BusJob) (k : Nat) (b : List Byte) (s : State) : (issue j k b s).fcode = s.fcode := rfl
@[simp] theorem issue_finfo (j : BusJob) (k : Nat) (b : List Byte) (s : State) : (issue j k b s).finfo = s.finfo := rfl
@[simp] theorem issue_scrolling (j : BusJob) (k : Nat) (b : List Byte) (s : State) : (issue j k b s).scrolling = s.scrolling := rfl
@[simp] theorem issue_phase (j : BusJob) (k : Nat) (b : List Byte) (s : State) : (issue j k b s).phase = .waitBus j k := rfl
@[simp] theorem issue_busLog (j : BusJob) (k : Nat) (b : List Byte) (s : State) : (issue j k b s).busLog = s.busLog ++ [⟨s.params.devAddr, b, .pending⟩] := rfl
@[simp] theorem issue_oldBusLogs (j : BusJob) (k : Nat) (b : List Byte) (s : State) : (issue j k b s).oldBusLogs = s.oldBusLogs := rfl
@[simp] theorem issue_respLog (j : BusJob) (k : Nat) (b : List Byte) (s : State) : (issue j k b s).respLog = s.respLog := rfl
@[simp] theorem issue_cmdPort (j : BusJob) (k : Nat) (b : List Byte) (s : State) : (issue j k b s).cmdPort = s.cmdPort := rfl
@[simp] theorem issue_answers (j : BusJob) (k : Nat) (b : List Byte) (s : State) : (issue j k b s).answers = s.answers := rfl
@[simp] theorem issue_resetPin (j : BusJob) (k : Nat) (b : List Byte) (s : State) : (issue j k b s).resetPin = s.resetPin := rfl
@[simp] theorem issue_epoch (j : BusJob) (k : Nat) (b : List Byte) (s : State) : (issue j k b s).epoch = s.epoch := rfl

/-! ### takeAnswer -/

@[simp] theorem takeAnswer_params (a : BusAnswer) (s : State) : (takeAnswer a s).params = s.params := rfl
@[simp] theorem takeAnswer_fb (a : BusAnswer) (s : State) : (takeAnswer a s).fb = s.fb := rfl
@[simp] theorem takeAnswer_inited (a : BusAnswer) (s : State) : (takeAnswer a s).inited = s.inited := rfl
@[simp] theorem takeAnswer_faulted (a : BusAnswer) (s : State) : (takeAnswer a s).faulted = s.faulted := rfl
@[simp] theorem takeAnswer_fcode (a : BusAnswer) (s : State) : (takeAnswer a s).fcode = s.fcode := rfl
@[simp] theorem takeAnswer_finfo (a : BusAnswer) (s : State) : (takeAnswer a s).finfo = s.finfo := rfl
@[simp] theorem takeAnswer_scrolling (a : BusAnswer) (s : State) : (takeAnswer a s).scrolling = s.scrolling := rfl
@[simp] theorem takeAnswer_phase (a : BusAnswer) (s : State) : (takeAnswer a s).phase = .exec := rfl
@[simp] theorem takeAnswer_busLog (a : BusAnswer) (s : State) : (takeAnswer a s).busLog = setLastAnswer a.status s.busLog := rfl
@[simp] theorem takeAnswer_oldBusLogs (a : BusAnswer) (s : State) : (takeAnswer a s).oldBusLogs = s.oldBusLogs := rfl
@[simp] theorem takeAnswer_respLog (a : BusAnswer) (s : State) : (takeAnswer a s).respLog = s.respLog := rfl
@[simp] theorem takeAnswer_cmdPort (a : BusAnswer) (s : State) : (takeAnswer a s).cmdPort = s.cmdPort := rfl
@[simp] theorem takeAnswer_answers (a : BusAnswer) (s : State) : (takeAnswer a s).answers = s.answers.tail := rfl
@[simp] theorem takeAnswer_resetPin (a : BusAnswer) (s : State) : (takeAnswer a s).resetPin = s.resetPin := rfl
@[simp] theorem takeAnswer_epoch (a : BusAnswer) (s : State) : (takeAnswer a s).epoch = s.epoch := rfl

/-! ### initOkFlags -/

@[simp] theorem initOkFlags_params (s : State) : (initOkFlags s).params = s.params := rfl
@[simp] theorem initOkFlags_fb (s : State) : (initOkFlags s).fb = s.fb := rfl
@[simp] theorem initOkFlags_inited (s : State) : (initOkFlags s).inited = true := rfl
@[simp] theorem initOkFlags_faulted (s : State) : (initOkFlags s).faulted = s.faulted := rfl
@[simp] theorem initOkFlags_fcode (s : State) : (initOkFlags s).fcode = s.fcode := rfl
@[simp] theorem initOkFlags_finfo (s : State) : (initOkFlags s).finfo = s.finfo := rfl
@[simp] theorem initOkFlags_scrolling (s : State) : (initOkFlags s).scrolling = .off := rfl
@[simp] theorem initOkFlags_phase (s : State) : (initOkFlags s).phase = s.phase := rfl
@[simp] theorem initOkFlags_busLog (s : State) : (initOkFlags s).busLog = s.busLog := rfl
@[simp] theorem initOkFlags_oldBusLogs (s : State) : (initOkFlags s).oldBusLogs = s.oldBusLogs := rfl
@[simp] theorem initOkFlags_respLog (s : State) : (initOkFlags s).respLog = s.respLog := rfl
@[simp] theorem initOkFlags_cmdPort (s : State) : (initOkFlags s).cmdPort = s.cmdPort := rfl
@[simp] theorem initOkFlags_answers (s : State) : (initOkFlags s).answers = s.answers := rfl
@[simp] theorem initOkFlags_resetPin (s : State) : (initOkFlags s).resetPin = s.resetPin := rfl
@[simp] theorem initOkFlags_epoch (s : State) : (initOkFlags s).epoch = s.epoch := rfl

/-! ### initFailFlags -/

@[simp] theorem initFailFlags_params (s : State) : (initFailFlags s).params = s.params := rfl
@[simp] theorem initFailFlags_fb (s : State) : (initFailFlags s).fb = s.fb := rfl
@[simp] theorem initFailFlags_inited (s : State) : (initFailFlags s).inited = false := rfl
@[simp] theorem initFailFlags_faulted (s : State) : (initFailFlags s).faulted = s.faulted := rfl
@[simp] theorem initFailFlags_fcode (s : State) : (initFailFlags s).fcode = s.fcode := rfl
@[simp] theorem initFailFlags_finfo (s : State) : (initFailFlags s).finfo = s.finfo := rfl
@[simp] theorem initFailFlags_scrolling (s : State) : (initFailFlags s).scrolling = .unknown := rfl
@[simp] theorem initFailFlags_phase (s : State) : (initFailFlags s).phase = s.phase := rfl
@[simp] theorem initFailFlags_busLog (s : State) : (initFailFlags s).busLog = s.busLog := rfl
@[simp] theorem initFailFlags_oldBusLogs (s : State) : (initFailFlags s).oldBusLogs = s.oldBusLogs := rfl
@[simp] theorem initFailFlags_respLog (s : State) : (initFailFlags s).respLog = s.respLog := rfl
@[simp] theorem initFailFlags_cmdPort (s : State) : (initFailFlags s).cmdPort = s.cmdPort := rfl
@[simp] theorem initFailFlags_answers (s : State) : (initFailFlags s).answers = s.answers := rfl
@[simp] theorem initFailFlags_resetPin (s : State) : (initFailFlags s).resetPin = s.resetPin := rfl
@[simp] theorem initFailFlags_epoch (s : State) : (initFailFlags s).epoch = s.epoch := rfl

/-! ### scrollOkFlags -/

@[simp] theorem scrollOkFlags_params (e : Bool) (s : State) : (scrollOkFlags e s).params = s.params := rfl
@[simp] theorem scrollOkFlags_fb (e : Bool) (s : State) : (scrollOkFlags e s).fb = s.fb := rfl
@[simp] theorem scrollOkFlags_inited (e : Bool) (s : State) : (scrollOkFlags e s).inited = s.inited := rfl
@[simp] theorem scrollOkFlags_faulted (e : Bool) (s : State) : (scrollOkFlags e s).faulted = s.faulted := rfl
@[simp] theorem scrollOkFlags_fcode (e : Bool) (s : State) : (scrollOkFlags e s).fcode = s.fcode := rfl
@[simp] theorem scrollOkFlags_finfo (e : Bool) (s : State) : (scrollOkFlags e s).finfo = s.finfo := rfl
@[simp] theorem scrollOkFlags_scrolling (e : Bool) (s : State) : (scrollOkFlags e s).scrolling = if e then .on else .off := rfl
@[simp] theorem scrollOkFlags_phase (e : Bool) (s : State) : (scrollOkFlags e s).phase = s.phase := rfl
@[simp] theorem scrollOkFlags_busLog (e : Bool) (s : State) : (scrollOkFlags e s).busLog = s.busLog := rfl
@[simp] theorem scrollOkFlags_oldBusLogs (e : Bool) (s : State) : (scrollOkFlags e s).oldBusLogs = s.oldBusLogs := rfl
@[simp] theorem scrollOkFlags_respLog (e : Bool) (s : State) : (scrollOkFlags e s).respLog = s.respLog := rfl
@[simp] theorem scrollOkFlags_cmdPort (e : Bool) (s : State) : (scrollOkFlags e s).cmdPort = s.cmdPort := rfl
@[simp] theorem scrollOkFlags_answers (e : Bool) (s : State) : (scrollOkFlags e s).answers = s.answers := rfl
@[simp] theorem scrollOkFlags_resetPin (e : Bool) (s : State) : (scrollOkFlags e s).resetPin = s.resetPin := rfl
@[simp] theorem scrollOkFlags_epoch (e : Bool) (s : State) : (scrollOkFlags e s).epoch = s.epoch := rfl

/-! ### scrollFailFlags -/

@[simp] theorem scrollFailFlags_params (s : State) : (scrollFailFlags s).params = s.params := rfl
@[simp] theorem scrollFailFlags_fb (s : State) : (scrollFailFlags s).fb = s.fb := rfl
@[simp] theorem scrollFailFlags_inited (s : State) : (scrollFailFlags s).inited = s.inited := rfl
@[simp] theorem scrollFailFlags_faulted (s : State) : (scrollFailFlags s).faulted = s.faulted := rfl
@[simp] theorem scrollFailFlags_fcode (s : State) : (scrollFailFlags s).fcode = s.fcode := rfl
@[simp] theorem scrollFailFlags_finfo (s : State) : (scrollFailFlags s).finfo = s.finfo := rfl
@[simp] theorem scrollFailFlags_scrolling (s : State) : (scrollFailFlags s).scrolling = .unknown := rfl
@[simp] theorem scrollFailFlags_phase (s : State) : (scrollFailFlags s).phase = s.phase := rfl
@[simp] theorem scrollFailFlags_busLog (s : State) : (scrollFailFlags s).busLog = s.busLog := rfl
@[simp] theorem scrollFailFlags_oldBusLogs (s : State) : (scrollFailFlags s).oldBusLogs = s.oldBusLogs := rfl
@[simp] theorem scrollFailFlags_respLog (s : State) : (scrollFailFlags s).respLog = s.respLog := rfl
@[simp] theorem scrollFailFlags_cmdPort (s : State) : (scrollFailFlags s).cmdPort = s.cmdPort := rfl
@[simp] theorem scrollFailFlags_answers (s : State) : (scrollFailFlags s).answers = s.answers := rfl
@[simp] theorem scrollFailFlags_resetPin (s : State) : (scrollFailFlags s).resetPin = s.resetPin := rfl
@[simp] theorem scrollFailFlags_epoch (s : State) : (scrollFailFlags s).epoch = s.epoch := rfl

/-! ### okFlags -/

@[simp] theorem okFlags_params (j : BusJob) (s : State) : (okFlags j s).params = s.params := by cases j <;> rfl
@[simp] theorem okFlags_fb (j : BusJob) (s : State) : (okFlags j s).fb = s.fb := by cases j <;> rfl
@[simp] theorem okFlags_faulted (j : BusJob) (s : State) : (okFlags j s).faulted = s.faulted := by cases j <;> rfl
@[simp] theorem okFlags_fcode (j : BusJob) (s : State) : (okFlags j s).fcode = s.fcode := by cases j <;> rfl
@[simp] theorem okFlags_finfo (j : BusJob) (s : State) : (okFlags j s).finfo = s.finfo := by cases j <;> rfl
@[simp] theorem okFlags_phase (j : BusJob) (s : State) : (okFlags j s).phase = s.phase := by cases j <;> rfl
@[simp] theorem okFlags_busLog (j : BusJob) (s : State) : (okFlags j s).busLog = s.busLog := by cases j <;> rfl
@[simp] theorem okFlags_oldBusLogs (j : BusJob) (s : State) : (okFlags j s).oldBusLogs = s.oldBusLogs := by cases j <;> rfl
@[simp] theorem okFlags_respLog (j : BusJob) (s : State) : (okFlags j s).respLog = s.respLog := by cases j <;> rfl
@[simp] theorem okFlags_cmdPort (j : BusJob) (s : State) : (okFlags j s).cmdPort = s.cmdPort := by cases j <;> rfl
@[simp] theorem okFlags_answers (j : BusJob) (s : State) : (okFlags j s).answers = s.answers := by cases j <;> rfl
@[simp] theorem okFlags_resetPin (j : BusJob) (s : State) : (okFlags j s).resetPin = s.resetPin := by cases j <;> rfl
@[simp] theorem okFlags_epoch (j : BusJob) (s : State) : (okFlags j s).epoch = s.epoch := by cases j <;> rfl

/-! ### failFlags -/

@[simp] theorem failFlags_params (j : BusJob) (s : State) : (failFlags j s).params = s.params := by cases j <;> rfl
@[simp] theorem failFlags_fb (j : BusJob) (s : State) : (failFlags j s).fb = s.fb := by cases j <;> rfl
@[simp] theorem failFlags_faulted (j : BusJob) (s : State) : (failFlags j s).faulted = s.faulted := by cases j <;> rfl
@[simp] theorem failFlags_fcode (j : BusJob) (s : State) : (failFlags j s).fcode = s.fcode := by cases j <;> rfl
@[simp] theorem failFlags_finfo (j : BusJob) (s : State) : (failFlags j s).finfo = s.finfo := by cases j <;> rfl
@[simp] theorem failFlags_phase (j : BusJob) (s : State) : (failFlags j s).phase = s.phase := by cases j <;> rfl
@[simp] theorem failFlags_busLog (j : BusJob) (s : State) : (failFlags j s).busLog = s.busLog := by cases j <;> rfl
@[simp] theorem failFlags_oldBusLogs (j : BusJob) (s : State) : (failFlags j s).oldBusLogs = s.oldBusLogs := by cases j <;> rfl
@[simp] theorem failFlags_respLog (j : BusJob) (s : State) : (failFlags j s).respLog = s.respLog := by cases j <;> rfl
@[simp] theorem failFlags_cmdPort (j : BusJob) (s : State) : (failFlags j s).cmdPort = s.cmdPort := by cases j <;> rfl
@[simp] theorem failFlags_answers (j : BusJob) (s : State) : (failFlags j s).answers = s.answers := by cases j <;> rfl
@[simp] theorem failFlags_resetPin (j : BusJob) (s : State) : (failFlags j s).resetPin = s.resetPin := by cases j <;> rfl
@[simp] theorem failFlags_epoch (j : BusJob) (s : State) : (failFlags j s).epoch = s.epoch := by cases j <;> rfl

/-! ### fbFill -/

@[simp] theorem fbFill_params (v : Byte) (s : State) : (fbFill v s).params = s.params := rfl
@[simp] theorem fbFill_fb (v : Byte) (s : State) : (fbFill v s).fb = (List.range s.params.fbLen).map (fun i => (i, v)) := rfl
@[simp] theorem fbFill_inited (v : Byte) (s : State) : (fbFill v s).inited = s.inited := rfl
@[simp] theorem fbFill_faulted (v : Byte) (s : State) : (fbFill v s).faulted = s.faulted := rfl
@[simp] theorem fbFill_fcode (v : Byte) (s : State) : (fbFill v s).fcode = s.fcode := rfl
@[simp] theorem fbFill_finfo (v : Byte) (s : State) : (fbFill v s).finfo = s.finfo := rfl
@[simp] theorem fbFill_scrolling (v : Byte) (s : State) : (fbFill v s).scrolling = s.scrolling := rfl
@[simp] theorem fbFill_phase (v : Byte) (s : State) : (fbFill v s).phase = s.phase := rfl
@[simp] theorem fbFill_busLog (v : Byte) (s : State) : (fbFill v s).busLog = s.busLog := rfl
@[simp] theorem fbFill_oldBusLogs (v : Byte) (s : State) : (fbFill v s).oldBusLogs = s.oldBusLogs := rfl
@[simp] theorem fbFill_respLog (v : Byte) (s : State) : (fbFill v s).respLog = s.respLog := rfl
@[simp] theorem fbFill_cmdPort (v : Byte) (s : State) : (fbFill v s).cmdPort = s.cmdPort := rfl
@[simp] theorem fbFill_answers (v : Byte) (s : State) : (fbFill v s).answers = s.answers := rfl
@[simp] theorem fbFill_resetPin (v : Byte) (s : State) : (fbFill v s).resetPin = s.resetPin := rfl
@[simp] theorem fbFill_epoch (v : Byte) (s : State) : (fbFill v s).epoch = s.epoch := rfl

/-! ### acceptPacket -/

@[simp] theorem acceptPacket_params (l : List (List Byte)) (s : State) : (acceptPacket l s).params = s.params := rfl
@[simp] theorem acceptPacket_fb (l : List (List Byte)) (s : State) : (acceptPacket l s).fb = s.fb := rfl
@[simp] theorem acceptPacket_inited (l : List (List Byte)) (s : State) : (acceptPacket l s).inited = s.inited := rfl
@[simp] theorem acceptPacket_faulted (l : List (List Byte)) (s : State) : (acceptPacket l s).faulted = s.faulted := rfl
@[simp] theorem acceptPacket_fcode (l : List (List Byte)) (s : State) : (acceptPacket l s).fcode = s.fcode := rfl
@[simp] theorem acceptPacket_finfo (l : List (List Byte)) (s : State) : (acceptPacket l s).finfo = s.finfo := rfl
@[simp] theorem acceptPacket_scrolling (l : List (List Byte)) (s : State) : (acceptPacket l s).scrolling = s.scrolling := rfl
@[simp] theorem acceptPacket_phase (l : List (List Byte)) (s : State) : (acceptPacket l s).phase = .exec := rfl
@[simp] theorem acceptPacket_busLog (l : List (List Byte)) (s : State) : (acceptPacket l s).busLog = s.busLog := rfl
@[simp] theorem acceptPacket_oldBusLogs (l : List (List Byte)) (s : State) : (acceptPacket l s).oldBusLogs = s.oldBusLogs := rfl
@[simp] theorem acceptPacket_respLog (l : List (List Byte)) (s : State) : (acceptPacket l s).respLog = s.respLog := rfl
@[simp] theorem acceptPacket_cmdPort (l : List (List Byte)) (s : State) : (acceptPacket l s).cmdPort = l := rfl
@[simp] theorem acceptPacket_answers (l : List (List Byte)) (s : State) : (acceptPacket l s).answers = s.answers := rfl
@[simp] theorem acceptPacket_resetPin (l : List (List Byte)) (s : State) : (acceptPacket l s).resetPin = s.resetPin := rfl
@[simp] theorem acceptPacket_epoch (l : List (List Byte)) (s : State) : (acceptPacket l s).epoch = s.epoch := rfl

/-! ### presentPacket -/

@[simp] theorem presentPacket_params (p : List Byte) (s : State) : (presentPacket p s).params = s.params := rfl
@[simp] theorem presentPacket_fb (p : List Byte) (s : State) : (presentPacket p s).fb = s.fb := rfl
@[simp] theorem presentPacket_inited (p : List Byte) (s : State) : (presentPacket p s).inited = s.inited := rfl
@[simp] theorem presentPacket_faulted (p : List Byte) (s : State) : (presentPacket p s).faulted = s.faulted := rfl
@[simp] theorem presentPacket_fcode (p : List Byte) (s : State) : (presentPacket p s).fcode = s.fcode := rfl
@[simp] theorem presentPacket_finfo (p : List Byte) (s : State) : (presentPacket p s).finfo = s.finfo := rfl
@[simp] theorem presentPacket_scrolling (p : List Byte) (s : State) : (presentPacket p s).scrolling = s.scrolling := rfl
@[simp] theorem presentPacket_phase (p : List Byte) (s : State) : (presentPacket p s).phase = s.phase := rfl
@[simp] theorem presentPacket_busLog (p : List Byte) (s : State) : (presentPacket p s).busLog = s.busLog := rfl
@[simp] theorem presentPacket_oldBusLogs (p : List Byte) (s : State) : (presentPacket p s).oldBusLogs = s.oldBusLogs := rfl
@[simp] theorem presentPacket_respLog (p : List Byte) (s : State) : (presentPacket p s).respLog = s.respLog := rfl
@[simp] theorem presentPacket_cmdPort (p : List Byte) (s : State) : (presentPacket p s).cmdPort = s.cmdPort ++ [p] := rfl
@[simp] theorem presentPacket_answers (p : List Byte) (s : State) : (presentPacket p s).answers = s.answers := rfl
@[simp] theorem presentPacket_resetPin (p : List Byte) (s : State) : (presentPacket p s).resetPin = s.resetPin := rfl
@[simp] theorem presentPacket_epoch (p : List Byte) (s : State) : (presentPacket p s).epoch = s.epoch := rfl

/-! ### presentNext -/

@[simp] theorem presentNext_params (p : List Byte) (s : State) : (presentNext p s).params = s.params := rfl
@[simp] theorem presentNext_fb (p : List Byte) (s : State) : (presentNext p s).fb = s.fb := rfl
@[simp] theorem presentNext_inited (p : List Byte) (s : State) : (presentNext p s).inited = s.inited := rfl
@[simp] theorem presentNext_faulted (p : List Byte) (s : State) : (presentNext p s).faulted = s.faulted := rfl
@[simp] theorem presentNext_fcode (p : List Byte) (s : State) : (presentNext p s).fcode = s.fcode := rfl
@[simp] theorem presentNext_finfo (p : List Byte) (s : State) : (presentNext p s).finfo = s.finfo := rfl
@[simp] theorem presentNext_scrolling (p : List Byte) (s : State) : (presentNext p s).scrolling = s.scrolling := rfl
@[simp] theorem presentNext_phase (p : List Byte) (s : State) : (presentNext p s).phase = s.phase := rfl
@[simp] theorem presentNext_busLog (p : List Byte) (s : State) : (presentNext p s).busLog = s.busLog := rfl
@[simp] theorem presentNext_oldBusLogs (p : List Byte) (s : State) : (presentNext p s).oldBusLogs = s.oldBusLogs := rfl
@[simp] theorem presentNext_respLog (p : List Byte) (s : State) : (presentNext p s).respLog = s.respLog := rfl
@[simp] theorem presentNext_cmdPort (p : List Byte) (s : State) : (presentNext p s).cmdPort = p :: s.cmdPort := rfl
@[simp] theorem presentNext_answers (p : List Byte) (s : State) : (presentNext p s).answers = s.answers := rfl
@[simp] theorem presentNext_resetPin (p : List Byte) (s : State) : (presentNext p s).resetPin = s.resetPin := rfl
@[simp] theorem presentNext_epoch (p : List Byte) (s : State) : (presentNext p s).epoch = s.epoch := rfl

/-! ### deliverAnswer -/

@[simp] theorem deliverAnswer_params (a : BusAnswer) (s : State) : (deliverAnswer a s).params = s.params := rfl
@[simp] theorem deliverAnswer_fb (a : BusAnswer) (s : State) : (deliverAnswer a s).fb = s.fb := rfl
@[simp] theorem deliverAnswer_inited (a : BusAnswer) (s : State) : (deliverAnswer a s).inited = s.inited := rfl
@[simp] theorem deliverAnswer_faulted (a : BusAnswer) (s : State) : (deliverAnswer a s).faulted = s.faulted := rfl
@[simp] theorem deliverAnswer_fcode (a : BusAnswer) (s : State) : (deliverAnswer a s).fcode = s.fcode := rfl
@[simp] theorem deliverAnswer_finfo (a : BusAnswer) (s : State) : (deliverAnswer a s).finfo = s.finfo := rfl
@[simp] theorem deliverAnswer_scrolling (a : BusAnswer) (s : State) : (deliverAnswer a s).scrolling = s.scrolling := rfl
@[simp] theorem deliverAnswer_phase (a : BusAnswer) (s : State) : (deliverAnswer a s).phase = s.phase := rfl
@[simp] theorem deliverAnswer_busLog (a : BusAnswer) (s : State) : (deliverAnswer a s).busLog = s.busLog := rfl
@[simp] theorem deliverAnswer_oldBusLogs (a : BusAnswer) (s : State) : (deliverAnswer a s).oldBusLogs = s.oldBusLogs := rfl
@[simp] theorem deliverAnswer_respLog (a : BusAnswer) (s : State) : (deliverAnswer a s).respLog = s.respLog := rfl
@[simp] theorem deliverAnswer_cmdPort (a : BusAnswer) (s : State) : (deliverAnswer a s).cmdPort = s.cmdPort := rfl
@[simp] theorem deliverAnswer_answers (a : BusAnswer) (s : State) : (deliverAnswer a s).answers = s.answers ++ [a] := rfl
@[simp] theorem deliverAnswer_resetPin (a : BusAnswer) (s : State) : (deliverAnswer a s).resetPin = s.resetPin := rfl
@[simp] theorem deliverAnswer_epoch (a : BusAnswer) (s : State) : (deliverAnswer a s).epoch = s.epoch := rfl

/-! ### assertReset -/

@[simp] theorem assertReset_params (m : ResetMoment) (s : State) : (assertReset m s).params = s.params := rfl
@[simp] theorem assertReset_fb (m : ResetMoment) (s : State) : (assertReset m s).fb = s.fb := rfl
@[simp] theorem assertReset_inited (m : ResetMoment) (s : State) : (assertReset m s).inited = s.inited := rfl
@[simp] theorem assertReset_faulted (m : ResetMoment) (s : State) : (assertReset m s).faulted = s.faulted := rfl
@[simp] theorem assertReset_fcode (m : ResetMoment) (s : State) : (assertReset m s).fcode = s.fcode := rfl
@[simp] theorem assertReset_finfo (m : ResetMoment) (s : State) : (assertReset m s).finfo = s.finfo := rfl
@[simp] theorem assertReset_scrolling (m : ResetMoment) (s : State) : (assertReset m s).scrolling = s.scrolling := rfl
@[simp] theorem assertReset_phase (m : ResetMoment) (s : State) : (assertReset m s).phase = s.phase := rfl
@[simp] theorem assertReset_busLog (m : ResetMoment) (s : State) : (assertReset m s).busLog = s.busLog := rfl
@[simp] theorem assertReset_oldBusLogs (m : ResetMoment) (s : State) : (assertReset m s).oldBusLogs = s.oldBusLogs := rfl
@[simp] theorem assertReset_respLog (m : ResetMoment) (s : State) : (assertReset m s).respLog = s.respLog := rfl
@[simp] theorem assertReset_cmdPort (m : ResetMoment) (s : State) : (assertReset m s).cmdPort = s.cmdPort := rfl
@[simp] theorem assertReset_answers (m : ResetMoment) (s : State) : (assertReset m s).answers = s.answers := rfl
@[simp] theorem assertReset_resetPin (m : ResetMoment) (s : State) : (assertReset m s).resetPin = some m := rfl
@[simp] theorem assertReset_epoch (m : ResetMoment) (s : State) : (assertReset m s).epoch = s.epoch := rfl

/-! ### resetEvent -/

@[simp] theorem resetEvent_params (s : State) : (resetEvent s).params = s.params := rfl
@[simp] theorem resetEvent_fb (s : State) : (resetEvent s).fb = [] := rfl
@[simp] theorem resetEvent_inited (s : State) : (resetEvent s).inited = false := rfl
@[simp] theorem resetEvent_faulted (s : State) : (resetEvent s).faulted = false := rfl
@[simp] theorem resetEvent_fcode (s : State) : (resetEvent s).fcode = 0x00#8 := rfl
@[simp] theorem resetEvent_finfo (s : State) : (resetEvent s).finfo = FaultInfo.zero := rfl
@[simp] theorem resetEvent_scrolling (s : State) : (resetEvent s).scrolling = .unknown := rfl
@[simp] theorem resetEvent_phase (s : State) : (resetEvent s).phase = .idle := rfl
@[simp] theorem resetEvent_busLog (s : State) : (resetEvent s).busLog = [] := rfl
@[simp] theorem resetEvent_oldBusLogs (s : State) : (resetEvent s).oldBusLogs = s.oldBusLogs ++ [s.busLog] := rfl
@[simp] theorem resetEvent_respLog (s : State) : (resetEvent s).respLog = [] := rfl
@[simp] theorem resetEvent_cmdPort (s : State) : (resetEvent s).cmdPort = s.cmdPort := rfl
@[simp] theorem resetEvent_answers (s : State) : (resetEvent s).answers = s.answers := rfl
@[simp] theorem resetEvent_resetPin (s : State) : (resetEvent s).resetPin = none := rfl
@[simp] theorem resetEvent_epoch (s : State) : (resetEvent s).epoch = s.epoch + 1 := rfl

end Sys2Proof.Machine
end

