-- ==== Sys2Proof/Laws/Framebuffer.lean ====
section
/-! SUPPORT. One spec lemma per framebuffer accessor: when it answers, what it answers, and what it leaves alone. -/

namespace Sys2Proof.Machine

/-- The read depends on the listed bytes and the draw alone. -/
theorem fbByte_congr {s t : State} (hfb : t.fb = s.fb) (he : t.epoch = s.epoch) (i : Nat) :
    fbByte t i = fbByte s i := by
  simp [fbByte, hfb, he]

/-- `FB[i]` answers exactly inside the buffer. -/
theorem fbRead_eq {s : State} {i : Nat} (h : i < s.params.fbLen) : fbRead i s = .ok (fbByte s i) := by
  simp [fbRead, h]

/-- `FB[i] <- v` answers exactly inside the buffer. -/
theorem fbWrite_eq {s : State} {i : Nat} (v : Byte) (h : i < s.params.fbLen) :
    fbWrite i v s = .ok { s with fb := Memory.store s.fb i v } := by
  simp [fbWrite, h]

/-- A byte read after a listed write. -/
theorem fbByte_store (s : State) (i j : Nat) (v : Byte) :
    fbByte { s with fb := Memory.store s.fb i v } j = if j = i then v else fbByte s j := by
  simp only [fbByte, Memory.lookup_store]
  split <;> simp

/-- Everything a write that answers does: one byte changes and nothing else, and the canonical form is kept. -/
theorem fbWrite_spec {s t : State} {i : Nat} {v : Byte} (h : fbWrite i v s = .ok t) :
    i < s.params.fbLen ∧ t = { s with fb := t.fb } ∧ (∀ j, fbByte t j = if j = i then v else fbByte s j) ∧
      (Memory.wf s.params.fbLen s.fb = true → Memory.wf s.params.fbLen t.fb = true) := by
  unfold fbWrite at h
  split at h
  · next hi =>
    cases h
    exact ⟨hi, rfl, fun j => fbByte_store s i j v, fun hm => Memory.wf_store v hi hm⟩
  · cases h

/-- `MemRead(a, n)` answers exactly when the range is inside the buffer. -/
theorem memRead_eq {s : State} {a n : Nat} (h : a + n ≤ s.params.fbLen) :
    memRead a n s = .ok ((List.range n).map (fun j => fbByte s (a + j))) := by
  simp [memRead, h]

/-- `MemRead` depends on the constants, the listed bytes and the draw alone. -/
theorem memRead_congr {s t : State} (hp : t.params = s.params) (hfb : t.fb = s.fb) (he : t.epoch = s.epoch)
    (a n : Nat) : memRead a n t = memRead a n s := by
  simp [memRead, hp, fbByte_congr hfb he]

/-- `MemWrite(a, n, l)` answers when the range is inside the buffer, and then writes exactly that range. -/
theorem memWrite_spec (l : List Byte) (a : Nat) (s : State) (h : a + l.length ≤ s.params.fbLen) :
    ∃ t, memWrite a l s = .ok t ∧ t = { s with fb := t.fb } ∧
      (∀ j, fbByte t j = if a ≤ j ∧ j < a + l.length then l.getD (j - a) 0x00#8 else fbByte s j) ∧
      (Memory.wf s.params.fbLen s.fb = true → Memory.wf s.params.fbLen t.fb = true) := by
  induction l generalizing a s with
  | nil => exact ⟨s, rfl, rfl, fun j => by simp [show ¬ (a ≤ j ∧ j < a) by omega], id⟩
  | cons v l ih =>
    simp only [List.length_cons] at h
    have ha : a < s.params.fbLen := by omega
    let u : State := { s with fb := Memory.store s.fb a v }
    obtain ⟨t, ht, hs, hb, hw⟩ := ih (a + 1) u (by change _ ≤ s.params.fbLen; omega)
    refine ⟨t, ?_, ?_, ?_, ?_⟩
    · simp only [memWrite, fbWrite_eq v ha]
      exact ht
    · rw [hs]
    · intro j
      rw [hb j, fbByte_store]
      simp only [List.length_cons]
      by_cases h1 : j = a
      · subst h1
        simp
      · by_cases h2 : a + 1 ≤ j ∧ j < a + 1 + l.length
        · have h3 : a ≤ j ∧ j < a + (l.length + 1) := by omega
          obtain ⟨k, rfl⟩ : ∃ k, j = a + 1 + k := ⟨j - (a + 1), by omega⟩
          simp only [h2, h3, and_self, if_true]
          rw [show a + 1 + k - (a + 1) = k by omega, show a + 1 + k - a = k + 1 by omega, List.getD_cons_succ]
        · have h3 : ¬ (a ≤ j ∧ j < a + (l.length + 1)) := by omega
          rw [if_neg h2, if_neg h1, if_neg h3]
    · intro hm
      exact hw (Memory.wf_store v ha hm)

/-- `fbFill` writes every index of the buffer. -/
theorem fbByte_fbFill (s : State) (v : Byte) (i : Nat) :
    fbByte (fbFill v s) i = if i < s.params.fbLen then v else Config.fbDraw s.epoch i := by
  simp only [fbByte, fbFill_fb, fbFill_epoch, Memory.lookup_fill]
  split <;> rfl

/-- `fbFill` keeps the canonical form. -/
theorem wf_fbFill (s : State) (v : Byte) : Memory.wf s.params.fbLen (fbFill v s).fb = true := by
  simpa using Memory.wf_fill s.params.fbLen v

/-- A pixel in bounds lies inside the buffer (R52, R53). -/
theorem pixelIndex_lt {p : Params} {x y : Int} (hg : p.geometryOk = true) (hb : InBounds p x y) :
    pixelIndex p x y < p.fbLen := by
  simp only [Params.geometryOk, Bool.and_eq_true, decide_eq_true_eq] at hg
  obtain ⟨hx0, hx, hy0, hy⟩ := hb
  have hpage : y.toNat / 8 + 1 ≤ p.pages := by simp only [Params.pages]; omega
  have hmul : (y.toNat / 8 + 1) * p.width ≤ p.pages * p.width := Nat.mul_le_mul_right _ hpage
  simp only [pixelIndex, Params.fbLen]
  have : x.toNat < p.width := by omega
  nlinarith

/-- `WritePixel` on a pixel in bounds: one byte changes, as R142 says, and nothing else. -/
theorem writePixel_spec {s : State} {x y : Int} (on : Bool) (hg : s.params.geometryOk = true)
    (hb : InBounds s.params x y) :
    ∃ t, writePixel x y on s = .ok t ∧ t = { s with fb := t.fb } ∧
      (∀ j, fbByte t j = if j = pixelIndex s.params x y
        then writtenByte (fbByte s (pixelIndex s.params x y)) y on else fbByte s j) ∧
      (Memory.wf s.params.fbLen s.fb = true → Memory.wf s.params.fbLen t.fb = true) := by
  have hi := pixelIndex_lt hg hb
  refine ⟨{ s with fb := Memory.store s.fb (pixelIndex s.params x y) _ }, ?_, rfl,
    fun j => fbByte_store s _ j _, fun hm => Memory.wf_store _ hi hm⟩
  simp only [writePixel, fbRead_eq hi, fbWrite_eq _ hi]

/-- A bit position is one of a byte. -/
theorem pixelBit_lt (y : Int) : pixelBit y < 8 := by unfold pixelBit; omega

/-- The mask has the pixel's bit alone. -/
theorem pixelMask_getLsbD (y : Int) {k : Nat} (hk : k < 8) :
    (pixelMask y).getLsbD k = decide (k = pixelBit y) := by
  have := pixelBit_lt y
  unfold pixelMask
  interval_cases pixelBit y <;> interval_cases k <;> rfl

/-- `WritePixel` sets the pixel's bit to `on` and keeps the other seven (R142). -/
theorem writtenByte_getLsbD (b : Byte) (y : Int) (on : Bool) {k : Nat} (hk : k < 8) :
    (writtenByte b y on).getLsbD k = if k = pixelBit y then on else b.getLsbD k := by
  have hm := pixelMask_getLsbD y hk
  rw [BitVec.getLsbD_eq_getElem hk] at hm
  unfold writtenByte
  cases on <;> simp [hk, hm] <;> by_cases h : k = pixelBit y <;> simp [h]

/-- Pixels in bounds with the same byte and bit are the same pixel (R52). -/
theorem pixelIndex_inj {p : Params} {x y x' y' : Int} (hb : InBounds p x y) (hb' : InBounds p x' y')
    (hi : pixelIndex p x y = pixelIndex p x' y') (hk : pixelBit y = pixelBit y') : x = x' ∧ y = y' := by
  obtain ⟨hx0, hx, hy0, -⟩ := hb
  obtain ⟨hx0', hx', hy0', -⟩ := hb'
  have hm : ∀ a b : Nat, a < p.width → (b * p.width + a) % p.width = a ∧ (b * p.width + a) / p.width = b := by
    intro a b ha
    constructor
    · rw [Nat.add_comm, Nat.add_mul_mod_self_right, Nat.mod_eq_of_lt ha]
    · rw [Nat.add_comm, Nat.add_mul_div_right _ _ (by omega), Nat.div_eq_of_lt ha, Nat.zero_add]
  simp only [pixelIndex, pixelBit] at hi hk
  have h1 := hm x.toNat (y.toNat / 8) (by omega)
  have h2 := hm x'.toNat (y'.toNat / 8) (by omega)
  rw [hi] at h1
  omega

/-- A glyph cell on the panel lies inside the buffer (R53, R186). -/
theorem glyphOffset_le {p : Params} {x y : Int} (hg : p.geometryOk = true)
    (hon : ¬ OffScreen p x y) : glyphOffset p x y + 8 ≤ p.fbLen := by
  simp only [Params.geometryOk, Bool.and_eq_true, decide_eq_true_eq] at hg
  simp only [OffScreen, not_or] at hon
  have hpage : y.toNat / 8 + 1 ≤ p.pages := by simp only [Params.pages]; omega
  have hmul : (y.toNat / 8 + 1) * p.width ≤ p.pages * p.width := Nat.mul_le_mul_right _ hpage
  have hcol : x.toNat + 8 ≤ p.width := by omega
  simp only [glyphOffset, Params.fbLen]
  nlinarith

/-- A well-formed area's stream lies inside the buffer, and is not empty (R202, R206). -/
theorem area_inside {p : Params} {a : Area} (ha : AreaOk p a) :
    areaOffset p a + areaBuflen a ≤ p.fbLen ∧ 1 ≤ areaBuflen a := by
  obtain ⟨h1, h2, h3, h4⟩ := ha
  simp only [areaOffset, areaBuflen, areaCols, areaPages, Params.fbLen]
  generalize a.startCol.toNat = sc at *
  generalize a.endCol.toNat = ec at *
  generalize a.startPage.toNat = sp at *
  generalize a.endPage.toNat = ep at *
  obtain ⟨n, rfl⟩ : ∃ n, ec = sc + n := ⟨ec - sc, by omega⟩
  obtain ⟨m, rfl⟩ : ∃ m, ep = sp + m := ⟨ep - sp, by omega⟩
  rw [show sc + n - sc + 1 = n + 1 by omega, show sp + m - sp + 1 = m + 1 by omega]
  have hw : (sp + m + 1) * p.width ≤ p.pages * p.width := Nat.mul_le_mul_right _ (by omega)
  constructor <;> nlinarith [Nat.mul_le_mul_left m (show n + 1 ≤ p.width by omega)]

end Sys2Proof.Machine
end

