-- ==== Sys2Proof/Laws/Bus.lean ====
section
/-! SUPPORT. What a bus operation's run through its transactions can do: the history it leaves when every answer is
`ok`, when one is `fail`, and when one has not come (R110, R113, R114). -/

namespace Sys2Proof.Machine

/-- Replacing the answer of a history's last transaction. -/
@[simp] theorem setLastAnswer_append (a : BusStatus) (l : List BusEntry) (e : BusEntry) :
    setLastAnswer a (l ++ [e]) = l ++ [{ e with answer := a }] := by
  induction l with
  | nil => rfl
  | cons f l ih =>
    cases l with
    | nil => rfl
    | cons g l => simpa [setLastAnswer] using ih

/-- A transaction that is issued and answered `ok`. -/
theorem takeAnswer_issue (a : BusAnswer) (job : BusJob) (k : Nat) (f : List Byte) (s : State) :
    takeAnswer a (issue job k f s) =
      { s with busLog := s.busLog ++ [⟨s.params.devAddr, f, a.status⟩], answers := s.answers.tail, phase := .exec } := by
  simp [takeAnswer, issue]

/-- What finishing with `OK` leaves. -/
theorem finishOk_eq (job : BusJob) (s : State) :
    finishOk job s = { s with inited := (okFlags job s).inited, scrolling := (okFlags job s).scrolling,
                              respLog := s.respLog ++ [[0x00#8]], phase := .idle } := by
  cases job <;> rfl

/-- What finishing with `FAIL` leaves. -/
theorem finishFail_eq (job : BusJob) (s : State) :
    finishFail job s = { s with inited := (failFlags job s).inited, scrolling := (failFlags job s).scrolling,
                                respLog := s.respLog ++ [[0x01#8]], phase := .idle } := by
  cases job <;> rfl

/-- Every frame answered `ok`: all are in the history, and the operation finishes. -/
theorem sendFrom_allOk (job : BusJob) (frames : List (List Byte)) (k : Nat) (s : State) (more : List BusAnswer)
    (h : s.answers = List.replicate frames.length .ok ++ more) :
    sendFrom job frames k s = finishOk job
      { s with busLog := s.busLog ++ frames.map (okEntry s.params), answers := more } := by
  induction frames generalizing k s with
  | nil =>
    have hmore : more = s.answers := by simpa using h.symm
    simp [sendFrom, hmore]
  | cons f fs ih =>
    have hcons : s.answers = .ok :: (List.replicate fs.length .ok ++ more) := by
      rw [h]; simp [List.replicate_succ]
    rw [sendFrom, hcons]
    simp only [takeAnswer_issue, hcons, List.tail_cons]
    rw [ih _ _ rfl]
    cases job <;> simp [finishOk_eq, okEntry, BusAnswer.status, okFlags, initOkFlags, scrollOkFlags]

/-- Frame `j` answered `fail`: it is the last in the history, and the operation ends with `FAIL` (R114). -/
theorem sendFrom_fail (job : BusJob) (frames : List (List Byte)) (k j : Nat) (s : State) (more : List BusAnswer)
    (frame : List Byte) (hj : frames[j]? = some frame)
    (h : s.answers = List.replicate j .ok ++ .fail :: more) :
    sendFrom job frames k s = finishFail job
      { s with busLog := s.busLog ++ (frames.take j).map (okEntry s.params) ++ [⟨s.params.devAddr, frame, .fail⟩],
               answers := more, phase := .exec } := by
  induction frames generalizing k j s with
  | nil => simp at hj
  | cons f fs ih =>
    cases j with
    | zero =>
      simp only [List.getElem?_cons_zero, Option.some.injEq] at hj
      subst hj
      have hcons : s.answers = .fail :: more := by simpa using h
      rw [sendFrom, hcons]
      simp [takeAnswer_issue, hcons, BusAnswer.status]
    | succ j =>
      have hcons : s.answers = .ok :: (List.replicate j .ok ++ .fail :: more) := by
        rw [h]; simp [List.replicate_succ]
      rw [sendFrom, hcons]
      simp only [takeAnswer_issue, hcons, List.tail_cons]
      rw [ih _ j _ (by simpa using hj) rfl]
      simp [okEntry, BusAnswer.status]

/-- Frame `j` not answered: it is pending, and CORE waits (R110). -/
theorem sendFrom_wait (job : BusJob) (frames : List (List Byte)) (k j : Nat) (s : State)
    (frame : List Byte) (hj : frames[j]? = some frame) (h : s.answers = List.replicate j .ok) :
    sendFrom job frames k s =
      { s with busLog := s.busLog ++ (frames.take j).map (okEntry s.params) ++ [⟨s.params.devAddr, frame, .pending⟩],
               answers := [], phase := .waitBus job (k + j) } := by
  induction frames generalizing k j s with
  | nil => simp at hj
  | cons f fs ih =>
    cases j with
    | zero =>
      simp only [List.getElem?_cons_zero, Option.some.injEq] at hj
      subst hj
      have hcons : s.answers = [] := by simpa using h
      rw [sendFrom, hcons]
      simp [issue, hcons]
    | succ j =>
      have hcons : s.answers = .ok :: List.replicate j .ok := by
        rw [h]; simp [List.replicate_succ]
      rw [sendFrom, hcons]
      simp only [takeAnswer_issue, hcons, List.tail_cons]
      rw [ih _ j _ (by simpa using hj) rfl]
      simp [okEntry, BusAnswer.status, show k + 1 + j = k + (j + 1) by omega]

/-- Frame `j` answered `ok` after the frames before it: the run goes on from the next frame, as a resumed operation does
(R110). -/
theorem sendFrom_goOn (job : BusJob) (frames : List (List Byte)) (k j : Nat) (s : State) (more : List BusAnswer)
    (frame : List Byte) (hj : frames[j]? = some frame) (h : s.answers = List.replicate j .ok ++ .ok :: more) :
    sendFrom job frames k s = sendFrom job (frames.drop (j + 1)) (k + j + 1)
      { s with busLog := s.busLog ++ (frames.take j).map (okEntry s.params) ++ [⟨s.params.devAddr, frame, .ok⟩],
               answers := more, phase := .exec } := by
  induction frames generalizing k j s with
  | nil => simp at hj
  | cons f fs ih =>
    cases j with
    | zero =>
      simp only [List.getElem?_cons_zero, Option.some.injEq] at hj
      subst hj
      have hcons : s.answers = .ok :: more := by simpa using h
      rw [sendFrom, hcons]
      simp only [takeAnswer_issue, hcons, List.tail_cons]
      simp [BusAnswer.status]
    | succ j =>
      have hcons : s.answers = .ok :: (List.replicate j .ok ++ .ok :: more) := by
        rw [h]; simp [List.replicate_succ]
      rw [sendFrom, hcons]
      simp only [takeAnswer_issue, hcons, List.tail_cons]
      rw [ih _ j _ (by simpa using hj) rfl]
      simp [okEntry, BusAnswer.status, show k + 1 + j + 1 = k + (j + 1) + 1 by omega]

/-- The three cases are all there are: for `n` frames the answers say all `ok`, a `fail` at some frame, or nothing yet
at some frame. -/
theorem answers_cases (n : Nat) (answers : List BusAnswer) :
    (∃ more, answers = List.replicate n .ok ++ more) ∨
    (∃ j more, j < n ∧ answers = List.replicate j .ok ++ .fail :: more) ∨
    (∃ j, j < n ∧ answers = List.replicate j .ok) := by
  induction n generalizing answers with
  | zero => exact .inl ⟨answers, rfl⟩
  | succ n ih =>
    cases answers with
    | nil => exact .inr (.inr ⟨0, by omega, rfl⟩)
    | cons a as =>
      cases a with
      | fail => exact .inr (.inl ⟨0, as, by omega, rfl⟩)
      | ok =>
        obtain ⟨more, h⟩ | ⟨j, more, hj, h⟩ | ⟨j, hj, h⟩ := ih as
        · exact .inl ⟨more, by rw [h]; simp [List.replicate_succ]⟩
        · exact .inr (.inl ⟨j + 1, more, by omega, by rw [h]; simp [List.replicate_succ]⟩)
        · exact .inr (.inr ⟨j + 1, by omega, by rw [h]; simp [List.replicate_succ]⟩)

/-- A bus operation's transactions depend on the constants, the framebuffer and the draw alone. -/
theorem jobFrames_congr (job : BusJob) {s t : State} (hp : t.params = s.params) (hfb : t.fb = s.fb)
    (he : t.epoch = s.epoch) : jobFrames job t = jobFrames job s := by
  cases job <;> simp [jobFrames, hp, memRead_congr hp hfb he]

/-- A well-formed area has its transactions: six command frames and one data frame (R204, R206). -/
theorem jobFrames_render {s : State} {a : Area} (ha : AreaOk s.params a) :
    jobFrames (.render a) s = .ok (seqFrames (windowSeq s.params a) ++
      [dataFrame ((List.range (areaBuflen a)).map (fun m => fbByte s (areaOffset s.params a + m)))]) := by
  simp [jobFrames, memRead_eq (area_inside ha).1]

/-- The bring-up sequence has at least its 17 commands (R116). -/
theorem initSeq_ne_nil (p : Params) : p.initSeq ≠ [] := by
  simp [Params.initSeq, InitTable.groups, Params.initGroupBytes]

end Sys2Proof.Machine
end

