-- ==== Sys2Proof/Laws/Decode.lean ====
section
/-! SUPPORT. Packet fields: a 16-bit field and its two bytes give each other (R81, R102); an `fl` byte and its boolean
(R81, R94). -/

namespace Sys2Proof

/-- `{hi, lo}` is the number `hi * 256 + lo` (R13). -/
theorem half_toNat (lo hi : Byte) : (half lo hi).toNat = hi.toNat * 256 + lo.toNat := by
  have h := Nat.shiftLeft_add_eq_or_of_lt (show lo.toNat < 2 ^ 8 from lo.isLt) hi.toNat
  rw [half, BitVec.toNat_append, ← h, Nat.shiftLeft_eq]

/-- The low byte is the value mod 256. -/
theorem loByte_toNat (v : Half) : (loByte v).toNat = v.toNat % 256 := by
  simp [loByte, BitVec.extractLsb'_toNat]

/-- The high byte is the value div 256. -/
theorem hiByte_toNat (v : Half) : (hiByte v).toNat = v.toNat / 256 := by
  have := v.isLt
  simp only [hiByte, BitVec.extractLsb'_toNat, Nat.shiftRight_eq_div_pow]
  omega

@[simp] theorem half_lo_hi (v : Half) : half (loByte v) (hiByte v) = v := by
  apply BitVec.eq_of_toNat_eq
  rw [half_toNat, loByte_toNat, hiByte_toNat]
  omega

@[simp] theorem lo_half (lo hi : Byte) : loByte (half lo hi) = lo := by
  apply BitVec.eq_of_toNat_eq
  rw [loByte_toNat, half_toNat]
  have := lo.isLt
  omega

@[simp] theorem hi_half (lo hi : Byte) : hiByte (half lo hi) = hi := by
  apply BitVec.eq_of_toNat_eq
  rw [hiByte_toNat, half_toNat]
  have := lo.isLt
  omega

/-- An `fl` byte that the encoder makes decodes to its boolean. -/
@[simp] theorem withFlag_flagByte (b : Bool) (make : Bool → Instr) :
    withFlag (flagByte b) make = .instr (make b) := by
  cases b <;> rfl

/-- An `fl` byte without reserved bits is one the encoder makes. -/
theorem flagByte_of_reserved_zero (fl : Byte) (h : fl &&& 0xFE#8 = 0x00#8) :
    flagByte (fl.getLsbD 0) = fl := by
  revert h; revert fl; decide

end Sys2Proof
end

