-- ==== Sys2Proof/Laws/Drawing.lean ====
section
/-! SUPPORT. One spec lemma per drawing operation that several meanings share: a glyph cell (R186), a run of points
(R162, R163), and the loop of `WSTR` (R188). -/

namespace Sys2Proof.Machine

/-- A glyph has eight column bytes. -/
@[simp] theorem glyphRow_length (p : Params) (g : Nat) : (p.glyphRow g).length = 8 := by
  simp [Params.glyphRow]

/-- A glyph's column bytes. -/
theorem glyphRow_getD (p : Params) (g : Nat) {i : Nat} (h : i < 8) :
    (p.glyphRow g).getD i 0x00#8 = p.glyphByte g i := by
  simp [Params.glyphRow, List.getD_eq_getElem?_getD, h]

/-- `BlitGlyph` on the panel: the eight bytes of the cell are the glyph's, and nothing else changes (R186). -/
theorem blitGlyph_spec {s : State} {x y : Int} (g : Nat) (hg : s.params.geometryOk = true)
    (hon : ¬ OffScreen s.params x y) :
    ∃ t, blitGlyph x y g s = .ok t ∧ t = { s with fb := t.fb } ∧
      (∀ i, fbByte t i =
        if glyphOffset s.params x y ≤ i ∧ i < glyphOffset s.params x y + 8 then
          s.params.glyphByte g (i - glyphOffset s.params x y)
        else fbByte s i) ∧
      (Memory.wf s.params.fbLen s.fb = true → Memory.wf s.params.fbLen t.fb = true) := by
  obtain ⟨t, ht, hs, hb, hw⟩ := memWrite_spec (s.params.glyphRow g) (glyphOffset s.params x y) s
    (by simpa using glyphOffset_le hg hon)
  refine ⟨t, ht, hs, fun i => ?_, hw⟩
  rw [hb i, glyphRow_length]
  by_cases h : glyphOffset s.params x y ≤ i ∧ i < glyphOffset s.params x y + 8
  · rw [if_pos h, if_pos h, glyphRow_getD _ _ (by omega)]
  · rw [if_neg h, if_neg h]

/-- The bytes that writing a run of points leaves, whatever their order: each point's bit is `on`. -/
def plottedByte (p : Params) (on : Bool) : List (Int × Int) → Nat → Byte → Byte
  | [], _, b => b
  | (x, y) :: rest, i, b =>
    plottedByte p on rest i (if i = pixelIndex p x y then writtenByte b y on else b)

/-- Writing a run of points in bounds leaves the bit of each point of the run `on`, and every other bit as it was. -/
theorem plottedByte_getLsbD {p : Params} (on : Bool) (ps : List (Int × Int)) {x y : Int} (b : Byte)
    (hb : InBounds p x y) (hps : ∀ a c, (a, c) ∈ ps → InBounds p a c) :
    (plottedByte p on ps (pixelIndex p x y) b).getLsbD (pixelBit y) =
      if (x, y) ∈ ps then on else b.getLsbD (pixelBit y) := by
  induction ps generalizing b with
  | nil => simp [plottedByte]
  | cons q rest ih =>
    obtain ⟨u, v⟩ := q
    have hq : InBounds p u v := hps u v (by simp)
    rw [plottedByte, ih _ (fun a c h => hps a c (by simp [h]))]
    by_cases hr : (x, y) ∈ rest
    · simp [hr]
    · rw [if_neg hr]
      by_cases he : pixelIndex p x y = pixelIndex p u v
      · rw [if_pos he, writtenByte_getLsbD _ _ _ (pixelBit_lt y)]
        by_cases hk : pixelBit y = pixelBit v
        · obtain ⟨rfl, rfl⟩ := pixelIndex_inj hb hq he hk
          simp
        · rw [if_neg hk, if_neg (by rintro (_ | ⟨_, h⟩) <;> [exact hk rfl; exact hr h])]
      · rw [if_neg he, if_neg (by rintro (_ | ⟨_, h⟩) <;> [exact he rfl; exact hr h])]

/-- A byte outside the buffer is no point's. -/
theorem plottedByte_outside {p : Params} (on : Bool) (ps : List (Int × Int)) {i : Nat} (b : Byte)
    (hg : p.geometryOk = true) (hi : p.fbLen ≤ i) (hps : ∀ a c, (a, c) ∈ ps → InBounds p a c) :
    plottedByte p on ps i b = b := by
  induction ps generalizing b with
  | nil => rfl
  | cons q rest ih =>
    obtain ⟨u, v⟩ := q
    have := pixelIndex_lt hg (hps u v (by simp))
    rw [plottedByte, if_neg (by omega), ih _ (fun a c h => hps a c (by simp [h]))]

/-- Points in bounds are all written, and the operation completes; nothing but the framebuffer, the response port and
the phase changes. -/
theorem plotPoints_inBounds (on : Bool) (ps : List (Int × Int)) (s : State) (hg : s.params.geometryOk = true)
    (hps : ∀ x y, (x, y) ∈ ps → InBounds s.params x y) :
    ∃ t, plotPoints on ps s = .ok t ∧ CompletedWith [] s t ∧
      (∀ i, fbByte t i = plottedByte s.params on ps i (fbByte s i)) ∧
      (Memory.wf s.params.fbLen s.fb = true → Memory.wf s.params.fbLen t.fb = true) := by
  induction ps generalizing s with
  | nil => exact ⟨_, rfl, rfl, fun i => rfl, id⟩
  | cons q rest ih =>
    obtain ⟨x, y⟩ := q
    have hb : InBounds s.params x y := hps x y (by simp)
    obtain ⟨u, hu, hus, hub, huw⟩ := writePixel_spec on hg hb
    have hp : u.params = s.params := by rw [hus]
    obtain ⟨t, ht, hts, htb, htw⟩ := ih u (by rw [hp]; exact hg)
      (fun a b hab => by rw [hp]; exact hps a b (by simp [hab]))
    refine ⟨t, ?_, ?_, fun i => ?_, fun hm => ?_⟩
    · simp only [plotPoints, if_pos hb, hu]
      exact ht
    · rw [CompletedWith] at hts ⊢
      rw [hts, hus]
    · rw [htb i, hp, hub i]
      simp only [plottedByte]
      split
      · next h => rw [h]
      · rfl
    · rw [hp] at htw
      exact htw (huw hm)

/-- The first point out of bounds traps, the points before it written (R163). -/
theorem plotPoints_outOfBounds (on : Bool) (ps after : List (Int × Int)) (x y : Int) (s : State)
    (hg : s.params.geometryOk = true) (hps : ∀ a b, (a, b) ∈ ps → InBounds s.params a b)
    (hxy : ¬ InBounds s.params x y) :
    ∃ t, plotPoints on (ps ++ (x, y) :: after) s = .ok t ∧ TrappedWith 0x03#8 (pointInfo x y) s t ∧
      (∀ i, fbByte t i = plottedByte s.params on ps i (fbByte s i)) ∧
      (Memory.wf s.params.fbLen s.fb = true → Memory.wf s.params.fbLen t.fb = true) := by
  induction ps generalizing s with
  | nil =>
    refine ⟨raiseFault .outOfBounds (pointInfo x y) s, ?_, rfl, fun i => rfl, id⟩
    simp only [List.nil_append, plotPoints, if_neg hxy]
  | cons q rest ih =>
    obtain ⟨a, b⟩ := q
    have hb : InBounds s.params a b := hps a b (by simp)
    obtain ⟨u, hu, hus, hub, huw⟩ := writePixel_spec on hg hb
    have hp : u.params = s.params := by rw [hus]
    obtain ⟨t, ht, hts, htb, htw⟩ := ih u (by rw [hp]; exact hg)
      (fun c d hcd => by rw [hp]; exact hps c d (by simp [hcd])) (by rw [hp]; exact hxy)
    refine ⟨t, ?_, ?_, fun i => ?_, fun hm => ?_⟩
    · simp only [List.cons_append, plotPoints, if_pos hb, hu]
      exact ht
    · rw [TrappedWith] at hts ⊢
      rw [hts, hus]
    · rw [htb i, hp, hub i]
      simp only [plottedByte]
      split
      · next h => rw [h]
      · rfl
    · rw [hp] at htw
      exact htw (huw hm)

/-- The cell of character `j` stands `8 * j` bytes after that of character 0. -/
theorem glyphOffset_add {p : Params} {x : Int} (y : Int) (hx : 0 ≤ x) (j : Nat) :
    glyphOffset p (x + 8 * (j : Int)) y = glyphOffset p x y + 8 * j := by
  simp only [glyphOffset]
  omega

/-- Characters that fit are blitted side by side, and the loop of `WSTR` goes on with the rest (R188). -/
theorem drawText_spec {x y : Int} (n : Nat) (hx : 0 ≤ x) (hy : 0 ≤ y) (text rest : List Byte) (j : Nat) (s : State)
    (hg : s.params.geometryOk = true) (hpage : ¬ y > (s.params.height : Int) - 8)
    (hfit : ∀ k, j ≤ k → k < j + text.length → x + 8 * (k : Int) ≤ (s.params.width : Int) - 8) :
    ∃ t, drawText x y n (text ++ rest) j s = drawText x y n rest (j + text.length) t ∧ t = { s with fb := t.fb } ∧
      ∀ i, fbByte t i =
        if glyphOffset s.params x y + 8 * j ≤ i ∧ i < glyphOffset s.params x y + 8 * (j + text.length) then
          s.params.glyphByte (glyphOf (text.getD ((i - (glyphOffset s.params x y + 8 * j)) / 8) 0x00#8))
            ((i - (glyphOffset s.params x y + 8 * j)) % 8)
        else fbByte s i := by
  induction text generalizing j s with
  | nil => exact ⟨s, rfl, rfl, fun i => by rw [if_neg (by simp)]⟩
  | cons c l ih =>
    have hc := hfit j (Nat.le_refl _) (by simp)
    obtain ⟨u, hu, hus, hub, -⟩ := blitGlyph_spec (s := s) (x := x + 8 * (j : Int)) (y := y) (glyphOf c) hg
      (by simp only [OffScreen]; omega)
    have hp : u.params = s.params := by rw [hus]
    obtain ⟨t, ht, hts, htb⟩ := ih (j + 1) u (by rwa [hp]) (by rwa [hp])
      (fun k hk hk' => by rw [hp]; exact hfit k (by omega) (by simp; omega))
    refine ⟨t, ?_, by rw [hts, hus], fun i => ?_⟩
    · simp only [List.cons_append, drawText]
      rw [if_neg (by omega), if_neg (by omega), hu]
      simp only [ht, List.length_cons]
      congr 1
      omega
    · rw [htb i, hp, hub i, glyphOffset_add y hx]
      simp only [List.length_cons]
      generalize glyphOffset s.params x y = o
      by_cases h1 : o + 8 * (j + 1) ≤ i ∧ i < o + 8 * (j + 1 + l.length)
      · rw [if_pos h1, if_pos (by omega),
          show (i - (o + 8 * j)) / 8 = (i - (o + 8 * (j + 1))) / 8 + 1 by omega,
          show (i - (o + 8 * j)) % 8 = (i - (o + 8 * (j + 1))) % 8 by omega, List.getD_cons_succ]
      · rw [if_neg h1]
        by_cases h2 : o + 8 * j ≤ i ∧ i < o + 8 * j + 8
        · rw [if_pos h2, if_pos (by omega), show (i - (o + 8 * j)) / 8 = 0 by omega,
            show (i - (o + 8 * j)) % 8 = i - (o + 8 * j) by omega]
          rfl
        · rw [if_neg h2, if_neg (by omega)]

/-- The walk visits at least its first point. -/
theorem lineWalk_head (x1 y1 : Int) (n : Nat) (r : LineRegs) :
    (lineWalk x1 y1 n r).head? = some (r.cx, r.cy) := by
  cases n <;> rfl

end Sys2Proof.Machine
end

