-- ==== Sys2Proof/Laws/Line.lean ====
section
/-! SUPPORT. The line walk as arithmetic (R162, R164, R165): after `n` iterations it has moved `a` columns and `b` rows,
`err` is `(b + 1) * D - (a + 1) * E`, and on the longer axis it has moved at every iteration. -/

namespace Sys2Proof.Machine

/-- What `n` iterations of the walk from `(x0, y0)` towards `(x1, y1)` have done, `D` and `E` being the distances. -/
structure LineState (x0 y0 x1 y1 D E : Int) (n a b : Nat) (r : LineRegs) : Prop where
  cx : r.cx = x0 + r.sx * a
  cy : r.cy = y0 + r.sy * b
  dx : r.dx = D
  dy : r.dy = -E
  sx : r.sx = if x0 < x1 then 1 else -1
  sy : r.sy = if y0 < y1 then 1 else -1
  err : r.err = (b + 1) * D - (a + 1) * E
  le_a : a ≤ n
  le_b : b ≤ n
  wide : E ≤ D → a = n ∧ -E ≤ 2 * r.err ∧ 2 * r.err ≤ 3 * D - 2 * E
  tall : D ≤ E → b = n ∧ 2 * D - 3 * E ≤ 2 * r.err ∧ 2 * r.err ≤ D
  nearWide : E ≤ D → 0 < D → D - 2 * E < 2 * r.err
  nearTall : D ≤ E → 0 < E → 2 * r.err < 2 * D - E

/-- Before the first iteration. -/
theorem lineStart_state (x0 y0 x1 y1 : Int) :
    LineState x0 y0 x1 y1 (x1 - x0).natAbs (y1 - y0).natAbs 0 0 0 (lineStart x0 y0 x1 y1) := by
  refine ⟨by simp [lineStart], by simp [lineStart], rfl, rfl, rfl, rfl, ?_, Nat.le_refl _, Nat.le_refl _,
    fun h => ⟨rfl, ?_⟩, fun h => ⟨rfl, ?_⟩, fun h h' => ?_, fun h h' => ?_⟩ <;> simp only [lineStart, Nat.cast_zero] <;> omega

/-- One iteration moves by one or not at all in each axis, and keeps the account. -/
theorem lineAdvance_state {x0 y0 x1 y1 D E : Int} {n a b : Nat} {r : LineRegs} (hD : 0 ≤ D) (hE : 0 ≤ E)
    (h : LineState x0 y0 x1 y1 D E n a b r) :
    ∃ a' b', (a' = a ∨ a' = a + 1) ∧ (b' = b ∨ b' = b + 1) ∧ (E ≤ D → a' = a + 1) ∧ (D ≤ E → b' = b + 1) ∧
      LineState x0 y0 x1 y1 D E (n + 1) a' b' (lineAdvance r) := by
  obtain ⟨hcx, hcy, hdx, hdy, hsx, hsy, herr, ha, hb, hwide, htall, hnw, hnt⟩ := h
  refine ⟨if 2 * r.err ≥ r.dy then a + 1 else a, if 2 * r.err ≤ r.dx then b + 1 else b, ?_, ?_, ?_, ?_, ?_⟩
  · split <;> simp
  · split <;> simp
  · intro hw
    rw [if_pos (by have := hwide hw; omega)]
  · intro ht
    rw [if_pos (by have := htall ht; omega)]
  · refine ⟨?_, ?_, hdx, hdy, hsx, hsy, ?_, ?_, ?_, ?_, ?_, fun hw h0 => ?_, fun ht h0 => ?_⟩
    · simp only [lineAdvance]
      split <;> push_cast [hcx] <;> ring
    · simp only [lineAdvance]
      split <;> push_cast [hcy] <;> ring
    · simp only [lineAdvance, herr, hdx, hdy]
      split <;> split <;> push_cast <;> ring
    · split <;> omega
    · split <;> omega
    · intro hw
      have hw' := hwide hw
      simp only [lineAdvance, hdx, hdy] at hw' ⊢
      rw [if_pos (by omega)]
      refine ⟨by rw [hw'.1], ?_⟩
      split <;> split <;> omega
    · intro ht
      have ht' := htall ht
      simp only [lineAdvance, hdx, hdy] at ht' ⊢
      rw [if_pos (show 2 * r.err ≤ D by omega)]
      refine ⟨by rw [ht'.1], ?_⟩
      split <;> split <;> omega
    · have hw' := hwide hw
      have hn := hnw hw h0
      simp only [lineAdvance, hdx, hdy]
      split <;> split <;> omega
    · have ht' := htall ht
      have hn := hnt ht h0
      simp only [lineAdvance, hdx, hdy]
      split <;> split <;> omega

/-- Every iteration keeps the account. -/
theorem lineIterate_state (x0 y0 x1 y1 : Int) (n : Nat) :
    ∃ a b, LineState x0 y0 x1 y1 (x1 - x0).natAbs (y1 - y0).natAbs n a b
      (lineAdvance^[n] (lineStart x0 y0 x1 y1)) := by
  induction n with
  | zero => exact ⟨0, 0, lineStart_state x0 y0 x1 y1⟩
  | succ n ih =>
    obtain ⟨a, b, h⟩ := ih
    obtain ⟨a', b', -, -, -, -, h'⟩ := lineAdvance_state (by omega) (by omega) h
    exact ⟨a', b', by rw [Function.iterate_succ_apply']; exact h'⟩

/-- Neither axis moves past its end in `max(D, E)` iterations, and both have arrived after exactly that many. -/
theorem LineState.arrived {x0 y0 x1 y1 : Int} {n a b : Nat} {r : LineRegs}
    (h : LineState x0 y0 x1 y1 (x1 - x0).natAbs (y1 - y0).natAbs n a b r)
    (hn : n ≤ max (x1 - x0).natAbs (y1 - y0).natAbs) :
    a ≤ (x1 - x0).natAbs ∧ b ≤ (y1 - y0).natAbs ∧
      (n = max (x1 - x0).natAbs (y1 - y0).natAbs → a = (x1 - x0).natAbs ∧ b = (y1 - y0).natAbs) := by
  obtain ⟨-, -, -, -, -, -, herr, ha, hb, hwide, htall, -, -⟩ := h
  generalize (x1 - x0).natAbs = D at *
  generalize (y1 - y0).natAbs = E at *
  rcases Nat.le_total E D with hED | hDE
  · obtain ⟨rfl, h1, h2⟩ := hwide (by exact_mod_cast hED)
    rw [Nat.max_eq_left hED] at hn ⊢
    rw [herr] at h1 h2
    have hbE : b ≤ E := by
      by_contra hlt
      have h3 : ((E : Int) + 1) ≤ b := by omega
      have h4 : (a : Int) ≤ D := by exact_mod_cast hn
      have h5 : ((E : Int) + 2) * D ≤ (b + 1) * D := by nlinarith
      have h6 : ((a : Int) + 1) * E ≤ (D + 1) * E := by nlinarith
      have h7 : 0 < b := by omega
      nlinarith
    refine ⟨hn, hbE, fun hna => ⟨hna, ?_⟩⟩
    by_contra hne
    have h3 : (b : Int) + 1 ≤ E := by omega
    have h4 : ((b : Int) + 1) * D ≤ E * D := by nlinarith
    rw [hna] at h1
    nlinarith
  · obtain ⟨rfl, h1, h2⟩ := htall (by exact_mod_cast hDE)
    rw [Nat.max_eq_right hDE] at hn ⊢
    rw [herr] at h1 h2
    have haD : a ≤ D := by
      by_contra hlt
      have h3 : ((D : Int) + 1) ≤ a := by omega
      have h4 : (b : Int) ≤ E := by exact_mod_cast hn
      have h5 : ((D : Int) + 2) * E ≤ (a + 1) * E := by nlinarith
      have h6 : ((b : Int) + 1) * D ≤ (E + 1) * D := by nlinarith
      have h7 : 0 < a := by omega
      nlinarith
    refine ⟨haD, hn, fun hnb => ⟨?_, hnb⟩⟩
    by_contra hne
    have h3 : (a : Int) + 1 ≤ D := by omega
    have h4 : ((a : Int) + 1) * E ≤ D * E := by nlinarith
    rw [hnb] at h2
    nlinarith

/-- The walk stops at its end and nowhere before. -/
theorem LineState.at_end_iff {x0 y0 x1 y1 : Int} {n a b : Nat} {r : LineRegs}
    (h : LineState x0 y0 x1 y1 (x1 - x0).natAbs (y1 - y0).natAbs n a b r)
    (hn : n ≤ max (x1 - x0).natAbs (y1 - y0).natAbs) :
    (r.cx = x1 ∧ r.cy = y1) ↔ n = max (x1 - x0).natAbs (y1 - y0).natAbs := by
  obtain ⟨ha, hb, harr⟩ := h.arrived hn
  obtain ⟨hcx, hcy, -, -, hsx, hsy, -, han, hbn, hwide, htall, -, -⟩ := h
  rw [hcx, hcy, hsx, hsy]
  constructor
  · rintro ⟨h1, h2⟩
    have h1' : a = (x1 - x0).natAbs := by split at h1 <;> omega
    have h2' : b = (y1 - y0).natAbs := by split at h2 <;> omega
    omega
  · intro hmax
    obtain ⟨h1, h2⟩ := harr hmax
    constructor <;> split <;> omega

/-- The points of the walk, one for each iteration (R164). -/
theorem linePoints_eq (x0 y0 x1 y1 : Int) :
    linePoints x0 y0 x1 y1 = (List.range (max (x1 - x0).natAbs (y1 - y0).natAbs + 1)).map
      (fun n => ((lineAdvance^[n] (lineStart x0 y0 x1 y1)).cx, (lineAdvance^[n] (lineStart x0 y0 x1 y1)).cy)) := by
  have key : ∀ m n, n + m = max (x1 - x0).natAbs (y1 - y0).natAbs →
      lineWalk x1 y1 m (lineAdvance^[n] (lineStart x0 y0 x1 y1)) = (List.range' n (m + 1)).map
        (fun n => ((lineAdvance^[n] (lineStart x0 y0 x1 y1)).cx, (lineAdvance^[n] (lineStart x0 y0 x1 y1)).cy)) := by
    intro m
    induction m with
    | zero => intro n _; rfl
    | succ m ih =>
      intro n hn
      obtain ⟨a, b, h⟩ := lineIterate_state x0 y0 x1 y1 n
      have hne : ¬ ((lineAdvance^[n] (lineStart x0 y0 x1 y1)).cx = x1 ∧
          (lineAdvance^[n] (lineStart x0 y0 x1 y1)).cy = y1) := by
        rw [h.at_end_iff (by omega)]
        omega
      rw [lineWalk, if_neg hne, List.range'_succ, List.map_cons, ← ih (n + 1) (by omega),
        Function.iterate_succ_apply']
  rw [linePoints, List.range_eq_range']
  exact key _ 0 (by omega)

/-- A point of the walk lies within half a unit of the ideal line along the shorter axis, a tie going to the diagonal
step (R162 (e)). -/
theorem LineState.near {x0 y0 x1 y1 : Int} {D E n a b : Nat} {r : LineRegs}
    (h : LineState x0 y0 x1 y1 D E n a b r) :
    (E ≤ D → 0 < D → 2 * (b * D) ≤ 2 * (a * E) + D ∧ 2 * (a * E) < 2 * (b * D) + D) ∧
    (D ≤ E → 0 < E → 2 * (a * E) ≤ 2 * (b * D) + E ∧ 2 * (b * D) < 2 * (a * E) + E) := by
  have herr := h.err
  refine ⟨fun hw h0 => ?_, fun ht h0 => ?_⟩
  · have h1 := h.wide (by exact_mod_cast hw)
    have h2 := h.nearWide (by exact_mod_cast hw) (by exact_mod_cast h0)
    zify
    constructor <;> linarith
  · have h1 := h.tall (by exact_mod_cast ht)
    have h2 := h.nearTall (by exact_mod_cast ht) (by exact_mod_cast h0)
    zify
    constructor <;> linarith

/-- `a` and `b` are how far the walk has gone in each axis. -/
theorem LineState.gone {x0 y0 x1 y1 D E : Int} {n a b : Nat} {r : LineRegs}
    (h : LineState x0 y0 x1 y1 D E n a b r) : (r.cx - x0).natAbs = a ∧ (r.cy - y0).natAbs = b := by
  rw [h.cx, h.cy, h.sx, h.sy]
  constructor <;> split <;> omega

/-- Every visited point is one of the account, inside the endpoints' rectangle (R163). -/
theorem mem_linePoints {x0 y0 x1 y1 x y : Int} (h : (x, y) ∈ linePoints x0 y0 x1 y1) :
    min x0 x1 ≤ x ∧ x ≤ max x0 x1 ∧ min y0 y1 ≤ y ∧ y ≤ max y0 y1 := by
  rw [linePoints_eq] at h
  obtain ⟨n, hn, he⟩ := List.mem_map.1 h
  obtain ⟨a, b, hs⟩ := lineIterate_state x0 y0 x1 y1 n
  have hn' := List.mem_range.1 hn
  obtain ⟨ha, hb, -⟩ := hs.arrived (by omega)
  simp only [Prod.mk.injEq] at he
  obtain ⟨rfl, rfl⟩ := he
  rw [hs.cx, hs.cy, hs.sx, hs.sy]
  refine ⟨?_, ?_, ?_, ?_⟩ <;> split <;> omega

end Sys2Proof.Machine
end

