-- ==== Sys2Proof/Laws/Step.lean ====
section
/-! SUPPORT. What one step can do, said once (R26, R41, R250): each case of the sequencer's turn as an equation, and the
inversion "if a step answers next, then one of these". -/

namespace Sys2Proof.Machine

/-- A meaning's result is a next state exactly when it has one. -/
@[simp] theorem outcome_eq_next {r : Except Fault State} {t : State} :
    outcome r = .next t ↔ r = .ok t := by
  cases r <;> simp [outcome]

theorem step_reset {s : State} {m : ResetMoment} (hg : s.params.geometryOk = true) (hr : s.resetPin = some m) :
    step s = .next (resetTurn m s) := by
  simp [step, sequencerTurn, hg, hr]

/-- Entering `EXEC` changes the ports and the last answer alone. -/
theorem enterExec_frame {s t : State} (h : enterExec s = some t) :
    t.params = s.params ∧ t.epoch = s.epoch ∧ t.oldBusLogs = s.oldBusLogs ∧ t.phase = .exec := by
  unfold enterExec at h
  split at h
  · split at h <;> cases h; exact ⟨rfl, rfl, rfl, rfl⟩
  · next hp => cases h; exact ⟨rfl, rfl, rfl, hp⟩
  · split at h <;> cases h; exact ⟨rfl, rfl, rfl, rfl⟩
  · cases h

/-- A reset of any state with the constants and the draw of `s` leaves what a reset of `s` leaves. -/
theorem leftByReset_resetEvent {s u : State} (hp : u.params = s.params) (he : u.epoch = s.epoch) :
    LeftByReset s (resetEvent u) :=
  ⟨hp, rfl, rfl, rfl, rfl, rfl, fun i => by simp [fbByte, he], rfl, rfl⟩

/-- Everything a turn with reset asserted can be: the reset lands, or CORE waits for it to. -/
theorem resetTurn_cases (m : ResetMoment) (s : State) :
    (resetTurn m s = s ∧ m = .inExec ∧ enterExec s = none) ∨
    ∃ u, resetTurn m s = resetEvent u ∧ (u = s ∨ enterExec s = some u) ∧
      u.params = s.params ∧ u.epoch = s.epoch ∧ u.oldBusLogs = s.oldBusLogs := by
  cases m with
  | now => exact .inr ⟨s, rfl, .inl rfl, rfl, rfl, rfl⟩
  | inExec =>
    cases h : enterExec s with
    | none => exact .inl ⟨by simp [resetTurn, h], rfl, rfl⟩
    | some u =>
      obtain ⟨hp, he, ho, -⟩ := enterExec_frame h
      exact .inr ⟨u, by simp [resetTurn, h], .inr rfl, hp, he, ho⟩

theorem step_idle {s : State} {p : List Byte} {rest : List (List Byte)} {i : Instr}
    (hg : s.params.geometryOk = true) (hr : s.resetPin = none) (hp : s.phase = .idle)
    (hc : s.cmdPort = p :: rest) (hd : decode p = .instr i) : step s = exec i (acceptPacket rest s) := by
  simp [step, sequencerTurn, hg, hr, hp, idleTurn, hc, hd]

theorem step_illegal {s : State} {p : List Byte} {rest : List (List Byte)} {r : Illegal}
    (hg : s.params.geometryOk = true) (hr : s.resetPin = none) (hp : s.phase = .idle)
    (hc : s.cmdPort = p :: rest) (hd : decode p = .illegal r) :
    step s = .next (raiseFault .illegalCommand (illegalInfo p) (acceptPacket rest s)) := by
  simp [step, sequencerTurn, hg, hr, hp, idleTurn, hc, hd]

theorem step_idle_empty {s : State} (hg : s.params.geometryOk = true) (hr : s.resetPin = none)
    (hp : s.phase = .idle) (hc : s.cmdPort = []) : step s = .next s := by
  simp [step, sequencerTurn, hg, hr, hp, idleTurn, hc]

theorem step_halt {s : State} (hg : s.params.geometryOk = true) (hr : s.resetPin = none) (hp : s.phase = .halt) :
    step s = .next s := by
  simp [step, sequencerTurn, hg, hr, hp]

theorem step_wait_empty {s : State} {job : BusJob} {k : Nat} (hg : s.params.geometryOk = true)
    (hr : s.resetPin = none) (hp : s.phase = .waitBus job k) (ha : s.answers = []) : step s = .next s := by
  simp [step, sequencerTurn, hg, hr, hp, waitTurn, ha]

theorem step_wait {s : State} {job : BusJob} {k : Nat} {a : BusAnswer} {as : List BusAnswer}
    (hg : s.params.geometryOk = true) (hr : s.resetPin = none) (hp : s.phase = .waitBus job k)
    (ha : s.answers = a :: as) : step s = outcome (resumeJob job k a s) := by
  simp [step, sequencerTurn, hg, hr, hp, waitTurn, ha]

/-- Everything a step that answers next can be. -/
theorem step_cases {s t : State} (h : step s = .next t) :
    s.params.geometryOk = true ∧
    ((∃ m, s.resetPin = some m ∧ t = resetTurn m s) ∨
     (s.resetPin = none ∧
      ((s.phase = .idle ∧ s.cmdPort = [] ∧ t = s) ∨
       (∃ p rest i, s.phase = .idle ∧ s.cmdPort = p :: rest ∧ decode p = .instr i ∧
         exec i (acceptPacket rest s) = .next t) ∨
       (∃ p rest r, s.phase = .idle ∧ s.cmdPort = p :: rest ∧ decode p = .illegal r ∧
         t = raiseFault .illegalCommand (illegalInfo p) (acceptPacket rest s)) ∨
       (∃ job k, s.phase = .waitBus job k ∧ s.answers = [] ∧ t = s) ∨
       (∃ job k a as, s.phase = .waitBus job k ∧ s.answers = a :: as ∧ resumeJob job k a s = .ok t) ∨
       (s.phase = .halt ∧ t = s)))) := by
  simp only [step, sequencerTurn] at h
  split at h
  · cases h
  · next hg =>
    refine ⟨by simpa using hg, ?_⟩
    split at h
    · next m hr => cases h; exact .inl ⟨m, hr, rfl⟩
    · next hr =>
      refine .inr ⟨hr, ?_⟩
      split at h
      · next hp =>
        simp only [idleTurn] at h
        split at h
        · next hc => cases h; exact .inl ⟨hp, hc, rfl⟩
        · next p rest hc =>
          split at h
          · next i hd => exact .inr (.inl ⟨p, rest, i, hp, hc, hd, h⟩)
          · next r hd => cases h; exact .inr (.inr (.inl ⟨p, rest, r, hp, hc, hd, rfl⟩))
      · cases h
      · next job k hp =>
        simp only [waitTurn] at h
        split at h
        · next ha => cases h; exact .inr (.inr (.inr (.inl ⟨job, k, hp, ha, rfl⟩)))
        · next a as ha =>
          exact .inr (.inr (.inr (.inr (.inl ⟨job, k, a, as, hp, ha, by simpa using h⟩))))
      · next hp => cases h; exact .inr (.inr (.inr (.inr (.inr ⟨hp, rfl⟩))))

/-- An idle CORE whose reset is not asserted runs exactly the operation that `withFetchWord` presents (log 11). -/
theorem step_withFetchWord {s : State} {nbits w : Nat} {i : Instr} (hg : s.params.geometryOk = true)
    (hr : s.resetPin = none) (hp : s.phase = .idle) (hd : decodeTableWord nbits w = some i) :
    step (s.withFetchWord nbits w) = exec i { s with phase := .exec } := by
  have hdec : decode (tablePacket nbits w) = .instr i := by
    simp only [decodeTableWord] at hd
    split at hd
    · next j hj => cases hd; exact hj
    · cases hd
  exact step_idle (s := s.withFetchWord nbits w) (rest := s.cmdPort) hg hr hp rfl hdec

end Sys2Proof.Machine
end

