-- ==== Sys2Proof/Laws/Exec.lean ====
section
/-! SUPPORT. Everything an operation can do, said once: it completes, it traps, or it is a bus operation that sends its
frames (R26, R41). -/

namespace Sys2Proof.Machine

/-- `t` is `s` but for the framebuffer, whose canonical form is kept. -/
def OnlyFb (s t : State) : Prop :=
  t = { s with fb := t.fb } ∧ (Memory.wf s.params.fbLen s.fb = true → Memory.wf s.params.fbLen t.fb = true)

/-- Writing only the framebuffer twice is writing only the framebuffer. -/
theorem OnlyFb.trans {s t u : State} (h : OnlyFb s t) (h' : OnlyFb t u) : OnlyFb s u := by
  have hp : t.params = s.params := by rw [h.1]
  refine ⟨by rw [h'.1, h.1], fun hm => ?_⟩
  have := h'.2
  rw [hp] at this
  exact this (h.2 hm)

/-- A pixel write that answers writes only the framebuffer. -/
theorem writePixel_onlyFb {x y : Int} {on : Bool} {s t : State} (h : writePixel x y on s = .ok t) : OnlyFb s t := by
  unfold writePixel at h
  split at h
  · cases h
  · have := fbWrite_spec h
    exact ⟨this.2.1, this.2.2.2⟩

/-- `MemWrite` that answers writes only the framebuffer. -/
theorem memWrite_onlyFb {l : List Byte} {a : Nat} {s t : State} (h : memWrite a l s = .ok t) : OnlyFb s t := by
  induction l generalizing a s with
  | nil => cases h; exact ⟨rfl, id⟩
  | cons v l ih =>
    simp only [memWrite] at h
    split at h
    · cases h
    · next u hu =>
      have hw := fbWrite_spec hu
      exact OnlyFb.trans ⟨hw.2.1, hw.2.2.2⟩ (ih h)

/-- A run of points completes or traps `OutOfBounds`. -/
theorem plotPoints_cases {on : Bool} {ps : List (Int × Int)} {s t : State} (h : plotPoints on ps s = .ok t) :
    (CompletedWith [] s t ∨ ∃ info, TrappedWith (faultByte .outOfBounds) info s t) ∧
      (Memory.wf s.params.fbLen s.fb = true → Memory.wf s.params.fbLen t.fb = true) := by
  induction ps generalizing s with
  | nil => cases h; exact ⟨.inl rfl, id⟩
  | cons q rest ih =>
    obtain ⟨x, y⟩ := q
    simp only [plotPoints] at h
    split at h
    · split at h
      · cases h
      · next u hu =>
        obtain ⟨hus, huw⟩ := writePixel_onlyFb hu
        have hp : u.params = s.params := by rw [hus]
        obtain ⟨hr, hw⟩ := ih h
        rw [hp] at hw
        refine ⟨?_, fun hm => hw (huw hm)⟩
        rcases hr with hr | ⟨info, hr⟩
        · left; rw [CompletedWith] at hr ⊢; rw [hr, hus]
        · right; refine ⟨info, ?_⟩; rw [TrappedWith] at hr ⊢; rw [hr, hus]
    · cases h; exact ⟨.inr ⟨_, rfl⟩, id⟩

/-- The loop of `WSTR` completes or traps. -/
theorem drawText_cases {x y : Int} {n j : Nat} {text : List Byte} {s t : State} (h : drawText x y n text j s = .ok t) :
    (CompletedWith [] s t ∨ ∃ c info, TrappedWith (faultByte c) info s t) ∧
      (Memory.wf s.params.fbLen s.fb = true → Memory.wf s.params.fbLen t.fb = true) := by
  induction text generalizing j s with
  | nil => cases h; exact ⟨.inl rfl, id⟩
  | cons ch rest ih =>
    simp only [drawText] at h
    split at h
    · cases h; exact ⟨.inr ⟨.negativeOrigin, _, rfl⟩, id⟩
    · split at h
      · cases h; exact ⟨.inr ⟨.stringOverrun, _, rfl⟩, id⟩
      · split at h
        · cases h
        · next u hu =>
          obtain ⟨hus, huw⟩ := memWrite_onlyFb hu
          have hp : u.params = s.params := by rw [hus]
          obtain ⟨hr, hw⟩ := ih h
          rw [hp] at hw
          refine ⟨?_, fun hm => hw (huw hm)⟩
          rcases hr with hr | ⟨c, info, hr⟩
          · left; rw [CompletedWith] at hr ⊢; rw [hr, hus]
          · right; refine ⟨c, info, ?_⟩; rw [TrappedWith] at hr ⊢; rw [hr, hus]

/-- A framebuffer write followed by `respond(OK)` completes. -/
theorem respondOk_cases {r : Except Fault State} {s t : State} (hr : ∀ u, r = .ok u → OnlyFb s u)
    (h : respondOk r = .ok t) :
    CompletedWith [] s t ∧ (Memory.wf s.params.fbLen s.fb = true → Memory.wf s.params.fbLen t.fb = true) := by
  cases r with
  | error f => cases h
  | ok u =>
    cases h
    obtain ⟨hus, huw⟩ := hr u rfl
    exact ⟨by rw [CompletedWith, hus]; rfl, huw⟩

/-- The host operation of a bus operation. -/
def jobInstr : BusJob → Instr
  | .init => .init
  | .scroll enabled => .scroll enabled
  | .render a => .render a.startCol a.endCol a.startPage a.endPage

/-- What a bus operation has checked before its first transaction (R222, R201). -/
def JobReady (job : BusJob) (s : State) : Prop :=
  (job ≠ .init → s.inited = true) ∧ ∀ a, job = .render a → AreaOk s.params a

/-- Everything an operation that answers next can do. -/
theorem exec_cases {i : Instr} {s t : State} (h : exec i s = .next t) :
    (isBusOp i = false ∧ (∃ data, CompletedWith data s t) ∧
      (Memory.wf s.params.fbLen s.fb = true → Memory.wf s.params.fbLen t.fb = true)) ∨
    ((∃ c info, TrappedWith (faultByte c) info s t) ∧
      (t.fb ≠ s.fb → (∃ x0 y0 x1 y1 on, i = .line x0 y0 x1 y1 on) ∨ ∃ x y text, i = .wstr x y text) ∧
      (Memory.wf s.params.fbLen s.fb = true → Memory.wf s.params.fbLen t.fb = true)) ∨
    (∃ job frames, i = jobInstr job ∧ JobReady job s ∧ jobFrames job s = .ok frames ∧
      t = sendFrom job frames 0 s) := by
  have trap : ∀ c info, t = raiseFault c info s →
      (∃ c info, TrappedWith (faultByte c) info s t) ∧
      (t.fb ≠ s.fb → (∃ x0 y0 x1 y1 on, i = .line x0 y0 x1 y1 on) ∨ ∃ x y text, i = .wstr x y text) ∧
      (Memory.wf s.params.fbLen s.fb = true → Memory.wf s.params.fbLen t.fb = true) := by
    rintro c info rfl
    exact ⟨⟨c, info, rfl⟩, fun hne => absurd rfl hne, id⟩
  have job : ∀ job, startJob job s = .ok t → ∃ frames, jobFrames job s = .ok frames ∧ t = sendFrom job frames 0 s := by
    intro job hj
    unfold startJob at hj
    split at hj
    · cases hj
    · next frames hf => cases hj; exact ⟨frames, hf, rfl⟩
  cases i with
  | init =>
    obtain ⟨frames, hf, ht⟩ := job .init (by simpa [exec, execInit] using h)
    exact .inr (.inr ⟨.init, frames, rfl, ⟨fun hn => absurd rfl hn, fun a ha => by cases ha⟩, hf, ht⟩)
  | setpix x y on =>
    simp only [exec, execSetpix] at h
    split at h
    · obtain ⟨hc, hw⟩ := respondOk_cases (fun u hu => writePixel_onlyFb hu) (outcome_eq_next.1 h)
      exact .inl ⟨rfl, ⟨[], hc⟩, hw⟩
    · cases h; exact .inr (.inl (trap _ _ rfl))
  | line x0 y0 x1 y1 on =>
    obtain ⟨hr, hw⟩ := plotPoints_cases (by simpa [exec, execLine] using h)
    rcases hr with hr | ⟨info, hr⟩
    · exact .inl ⟨rfl, ⟨[], hr⟩, hw⟩
    · exact .inr (.inl ⟨⟨_, info, hr⟩, fun _ => .inl ⟨x0, y0, x1, y1, on, rfl⟩, hw⟩)
  | wchar x y ch =>
    simp only [exec, execWchar] at h
    split at h
    · cases h; exact .inl ⟨rfl, ⟨[], rfl⟩, id⟩
    · split at h
      · cases h; exact .inr (.inl (trap _ _ rfl))
      · obtain ⟨hc, hw⟩ := respondOk_cases (fun u hu => memWrite_onlyFb hu) (outcome_eq_next.1 h)
        exact .inl ⟨rfl, ⟨[], hc⟩, hw⟩
  | wstr x y text =>
    simp only [exec, execWstr] at h
    split at h
    · cases h; exact .inl ⟨rfl, ⟨[], rfl⟩, id⟩
    · obtain ⟨hr, hw⟩ := drawText_cases (outcome_eq_next.1 h)
      rcases hr with hr | hr
      · exact .inl ⟨rfl, ⟨[], hr⟩, hw⟩
      · exact .inr (.inl ⟨hr, fun _ => .inr ⟨x, y, text, rfl⟩, hw⟩)
  | render sc ec sp ep =>
    simp only [exec, execRender] at h
    split at h
    · cases h; exact .inr (.inl (trap _ _ rfl))
    · next hi =>
      split at h
      · next ha =>
        obtain ⟨frames, hf, ht⟩ := job _ (outcome_eq_next.1 h)
        exact .inr (.inr ⟨_, frames, rfl, ⟨fun _ => by simpa using hi, fun a he => by cases he; exact ha⟩, hf, ht⟩)
      · cases h; exact .inr (.inl (trap _ _ rfl))
  | scroll enabled =>
    simp only [exec, execScroll] at h
    split at h
    · cases h; exact .inr (.inl (trap _ _ rfl))
    · next hi =>
      obtain ⟨frames, hf, ht⟩ := job _ (outcome_eq_next.1 h)
      exact .inr (.inr ⟨_, frames, rfl, ⟨fun _ => by simpa using hi, fun a ha => by cases ha⟩, hf, ht⟩)
  | fbwr idx data =>
    simp only [exec, execFbwr] at h
    split at h
    · cases h; exact .inr (.inl (trap _ _ rfl))
    · obtain ⟨hc, hw⟩ := respondOk_cases
        (fun u hu => ⟨(fbWrite_spec hu).2.1, (fbWrite_spec hu).2.2.2⟩) (outcome_eq_next.1 h)
      exact .inl ⟨rfl, ⟨[], hc⟩, hw⟩
  | fbrd idx =>
    simp only [exec, execFbrd] at h
    split at h
    · cases h; exact .inr (.inl (trap _ _ rfl))
    · split at h
      · cases h
      · next v _ => cases h; exact .inl ⟨rfl, ⟨[v], rfl⟩, id⟩
  | fbfill data =>
    cases h
    exact .inl ⟨rfl, ⟨[], rfl⟩, fun _ => wf_fbFill s data⟩
  | geom =>
    cases h
    exact .inl ⟨rfl, ⟨_, rfl⟩, id⟩

/-- How a bus operation's run ends: every frame answered `ok`, one answered `fail`, or one not answered. -/
theorem sendFrom_cases (job : BusJob) (frames : List (List Byte)) (k : Nat) (s : State) :
    (∃ more, s.answers = List.replicate frames.length .ok ++ more ∧ sendFrom job frames k s = finishOk job
      { s with busLog := s.busLog ++ frames.map (okEntry s.params), answers := more }) ∨
    (∃ j more frame, j < frames.length ∧ s.answers = List.replicate j .ok ++ .fail :: more ∧ frames[j]? = some frame ∧
      sendFrom job frames k s = finishFail job
        { s with
          busLog := s.busLog ++ (frames.take j).map (okEntry s.params) ++ [⟨s.params.devAddr, frame, .fail⟩]
          answers := more
          phase := .exec }) ∨
    (∃ j frame, j < frames.length ∧ s.answers = List.replicate j .ok ∧ frames[j]? = some frame ∧
      sendFrom job frames k s =
        { s with
          busLog := s.busLog ++ (frames.take j).map (okEntry s.params) ++ [⟨s.params.devAddr, frame, .pending⟩]
          answers := []
          phase := .waitBus job (k + j) }) := by
  obtain ⟨more, h⟩ | ⟨j, more, hj, h⟩ | ⟨j, hj, h⟩ := answers_cases frames.length s.answers
  · exact .inl ⟨more, h, sendFrom_allOk job frames k s more h⟩
  · have hf : frames[j]? = some frames[j] := List.getElem?_eq_getElem hj
    exact .inr (.inl ⟨j, more, _, hj, h, hf, sendFrom_fail job frames k j s more _ hf h⟩)
  · have hf : frames[j]? = some frames[j] := List.getElem?_eq_getElem hj
    exact .inr (.inr ⟨j, _, hj, h, hf, sendFrom_wait job frames k j s _ hf h⟩)

/-- An operation that has made its checks begins its job. -/
theorem exec_jobInstr {job : BusJob} {s : State} (h : JobReady job s) :
    exec (jobInstr job) s = outcome (startJob job s) := by
  cases job with
  | init => rfl
  | scroll enabled => simp [jobInstr, exec, execScroll, h.1 (by simp)]
  | render a =>
    simp only [jobInstr, exec, execRender, h.1 (by simp), if_pos (h.2 a rfl)]
    rfl

/-- What a bus operation's run leaves alone, and how it ends: idle with one response, or waiting with none. -/
theorem sendFrom_ends (job : BusJob) (frames : List (List Byte)) (k : Nat) (s : State) :
    BusFrame s (sendFrom job frames k s) ∧
    (((sendFrom job frames k s).phase = .idle ∧ ∃ r, (sendFrom job frames k s).respLog = s.respLog ++ [r]) ∨
      ∃ j, (sendFrom job frames k s).phase = .waitBus job (k + j) ∧ (sendFrom job frames k s).respLog = s.respLog) ∧
    (job ≠ .init → (sendFrom job frames k s).inited = s.inited) ∧
    (∀ a, job = .render a → (sendFrom job frames k s).scrolling = s.scrolling) := by
  obtain ⟨more, -, h⟩ | ⟨j, more, f, -, -, -, h⟩ | ⟨j, f, -, -, -, h⟩ := sendFrom_cases job frames k s
  · rw [h, finishOk_eq]
    refine ⟨rfl, .inl ⟨rfl, _, rfl⟩, ?_, ?_⟩ <;> cases job <;> simp [okFlags, scrollOkFlags]
  · rw [h, finishFail_eq]
    refine ⟨rfl, .inl ⟨rfl, _, rfl⟩, ?_, ?_⟩ <;> cases job <;> simp [failFlags, scrollFailFlags]
  · rw [h]
    exact ⟨rfl, .inr ⟨j, rfl, rfl⟩, fun _ => rfl, fun _ _ => rfl⟩

/-- Every frame a bus operation sends is a command frame of two bytes or a data frame of two or more (R98, R99,
R124). -/
theorem jobFrames_ok {job : BusJob} {s : State} {frames : List (List Byte)} (hj : JobReady job s)
    (h : jobFrames job s = .ok frames) : ∀ f ∈ frames, FrameOk f := by
  have seq : ∀ (l : List Byte) (f : List Byte), f ∈ seqFrames l → FrameOk f := by
    intro l f hf
    obtain ⟨c, -, rfl⟩ := List.mem_map.1 hf
    exact .inl ⟨c, rfl⟩
  intro f hf
  cases job with
  | init => cases h; exact seq _ f hf
  | scroll enabled => cases h; exact seq _ f hf
  | render a =>
    rw [jobFrames_render (hj.2 a rfl)] at h
    cases h
    rcases List.mem_append.1 hf with hf | hf
    · exact seq _ f hf
    · rw [List.mem_singleton.1 hf]
      obtain ⟨n, hn⟩ : ∃ n, areaBuflen a = n + 1 := ⟨areaBuflen a - 1, by have := (area_inside (hj.2 a rfl)).2; omega⟩
      exact .inr ⟨_, _, by rw [dataFrame, hn, List.range_succ_eq_map]; rfl⟩

end Sys2Proof.Machine
end

