-- ==== Sys2Proof/Laws/PerInstr.lean ====
section
/-! SUPPORT. A statement made of each operation as syntax: the shape of its packet (R80, R82). -/

namespace Sys2Proof.Laws.PacketShape

/-- The packet of a well-formed operation begins with its opcode and has the length R82 gives that opcode. -/
def Statement (i : Instr) : Prop :=
  i.wf = true →
    (encode i).head? = some (opcode i) ∧
      requiredLength (opcode i) ((encode i).getD 5 0x00#8).toNat = some (encode i).length

theorem init : Statement .init := fun _ => ⟨rfl, rfl⟩

theorem setpix (x y : Half) (on : Bool) : Statement (.setpix x y on) := fun _ => ⟨rfl, rfl⟩

theorem line (x0 y0 x1 y1 : Half) (on : Bool) : Statement (.line x0 y0 x1 y1 on) := fun _ => ⟨rfl, rfl⟩

theorem wchar (x y : Half) (ch : Byte) : Statement (.wchar x y ch) := fun _ => ⟨rfl, rfl⟩

theorem wstr (x y : Half) (text : List Byte) : Statement (.wstr x y text) := by
  intro h
  simp only [Instr.wf, decide_eq_true_eq] at h
  refine ⟨rfl, ?_⟩
  simp [encode, opcode, requiredLength, halfBytes, Nat.mod_eq_of_lt (show text.length < 256 by omega)]
  omega

theorem render (sc ec sp ep : Byte) : Statement (.render sc ec sp ep) := fun _ => ⟨rfl, rfl⟩

theorem scroll (enabled : Bool) : Statement (.scroll enabled) := fun _ => ⟨rfl, rfl⟩

theorem fbwr (idx : Half) (data : Byte) : Statement (.fbwr idx data) := fun _ => ⟨rfl, rfl⟩

theorem fbrd (idx : Half) : Statement (.fbrd idx) := fun _ => ⟨rfl, rfl⟩

theorem fbfill (data : Byte) : Statement (.fbfill data) := fun _ => ⟨rfl, rfl⟩

theorem geom : Statement .geom := fun _ => ⟨rfl, rfl⟩

end Sys2Proof.Laws.PacketShape
end

