-- ==== Sys2Proof/Laws/Tables.lean ====
section
/-! SUPPORT. The reference instance is a CORE the spec admits, whatever its free glyph bytes are (R8, R183; log 8). -/

namespace Sys2Proof

/-- The free glyph table of the reference instance meets R183, whatever its free bytes are (log 8). -/
theorem reference_wf : Params.reference.wf = true := by
  have hlen : ∀ g, (freeGlyphRow g).length = 8 := by
    intro g
    unfold freeGlyphRow
    by_cases h0 : g = 0
    · simp [h0, blankGlyph]
    · rw [if_neg h0]
      by_cases h1 : g = 1 ∧ (List.range 8).map (Config.glyphByte g) = blankGlyph
      · simp only [if_pos h1]; rfl
      · simp only [if_neg h1]; simp
  have hA : freeGlyphRow 1 ≠ blankGlyph := by
    unfold freeGlyphRow
    rw [if_neg (by decide)]
    by_cases h1 : (List.range 8).map (Config.glyphByte 1) = blankGlyph
    · simp only [true_and, if_pos h1]; decide
    · simp only [true_and, if_neg h1]; exact h1
  have h0 : Params.reference.glyph[0]? = some blankGlyph := rfl
  have h1 : Params.reference.glyph[1]? = some (freeGlyphRow 1) := rfl
  have hg : Params.reference.glyphOk = true := by
    simp only [Params.glyphOk, Bool.and_eq_true, decide_eq_true_eq, List.all_eq_true]
    refine ⟨⟨⟨rfl, ?_⟩, h0⟩, ?_⟩
    · intro row hrow
      obtain ⟨g, -, rfl⟩ := List.mem_map.1 hrow
      exact hlen g
    · rw [h0, h1]
      simpa using hA
  have hrest : (Params.reference.geometryOk && Params.reference.initTable.wf && Params.reference.scrollOk) = true := by
    decide
  simp only [Params.wf, hg, Bool.and_true]
  exact hrest

end Sys2Proof
end

