-- ==== Sys2Proof/Tests/Slice0.lean ====
section
/-! SUPPORT. Tests. Expected values are the spec's own: the vectors V<n> of 95_test_vectors.md and the examples of the
rules, with the stand-in glyph table `TG` of that file. -/

namespace Sys2Proof.Tests

-- Kernel evaluations one after another: each waiting one would hold a thread of its own.
set_option Elab.async false

open Sys2Proof.Machine

/-! ### The states the tests start from -/

/-- The test-only glyph table of 95_test_vectors.md: `TG[0]` zero, `TG[g][i] = (8 * g + i) mod 251`. -/
def testGlyph : List (List Byte) :=
  (List.range 37).map (fun g => (List.range 8).map (fun i => BitVec.ofNat 8 (if g = 0 then 0 else (8 * g + i) % 251)))

/-- The reference instance with the default tables and `TG`. -/
def testParams : Params := Params.referenceWith testGlyph

/-- Just after reset. -/
def fresh : State := State.resetOf testParams 0

/-- `FB` all `v`. -/
def filled (v : Byte) : State := fbFill v fresh

/-- `FB[i] = i mod 256`, `INITED = 1`, `n` answers `ok` to come. -/
def ready (n : Nat) : State :=
  { fresh with
    fb := (List.range 1024).map (fun i => (i, BitVec.ofNat 8 i)), inited := true, answers := List.replicate n .ok }

/-- The next state, where there is one. -/
def after (r : Host.Outcome State Fault Refusal) (ok : State → Bool) : Bool :=
  match r with
  | .next t => ok t
  | .fault _ | .refused _ => false

/-- An outcome that `after` accepts is a next state that it accepts. -/
theorem next_of_after {r : Host.Outcome State Fault Refusal} {ok : State → Bool} (h : after r ok = true) :
    ∃ t, r = .next t ∧ ok t = true := by
  cases r with
  | next t => exact ⟨t, rfl, h⟩
  | fault f => cases h
  | refused f => cases h

/-- The bytes `FB[i .. i + n - 1]`. -/
def bytesAt (t : State) (i n : Nat) : List Byte := (List.range n).map (fun j => fbByte t (i + j))

/-- The bytes of the transactions in `BUSLOG`. -/
def sent (t : State) : List (List Byte) := t.busLog.map (fun e => e.bytes)

/-! ### Well-formedness: each check refuses an ill-formed term -/

theorem test_wf_accepts : testParams.wf = true := by decide +kernel

theorem test_wf_text_accepts_255 : (Instr.wstr 0#16 0#16 (List.replicate 255 0x41#8)).wf = true := by decide +kernel

theorem test_wf_text_refuses_256 : (Instr.wstr 0#16 0#16 (List.replicate 256 0x41#8)).wf = false := by decide +kernel

theorem test_wf_geometry_refuses :
    [{ testParams with width := 7 }, { testParams with width := 257 }, { testParams with height := 0 },
     { testParams with height := 264 }, { testParams with height := 60 }].map Params.geometryOk
      = [false, false, false, false, false] := by decide +kernel

theorem test_wf_initTable_refuses :
    [{ defaultInitTable with multiplexRatio := litGroup 0xA8#8 [0x3F#8] },
     { defaultInitTable with comPinConfig := litGroup 0xDA#8 [] }].map InitTable.wf = [false, false] := by decide

theorem test_wf_scroll_refuses :
    [{ testParams with scrollOn := [.endPage, .interval] }, { testParams with scrollOn := [.startPage, .interval] },
     { testParams with scrollOn := [.startPage, .endPage] }, { testParams with scrollOff := [] }].map Params.scrollOk
      = [false, false, false, false] := by decide +kernel

theorem test_wf_glyph_refuses :
    [{ testParams with glyph := testGlyph.take 36 }, { testParams with glyph := testGlyph.set 36 [0x00#8] },
     { testParams with glyph := testGlyph.set 0 (List.replicate 8 0xFF#8) },
     { testParams with glyph := testGlyph.set 1 blankGlyph }].map Params.glyphOk
      = [false, false, false, false] := by decide +kernel

/-! ### Decoding: packets written out from the format tables R83 to R93 (V1 to V9) -/

theorem test_decode_init : decode [0x01#8] = .instr .init := by decide

theorem test_decode_setpix :
    decode [0x02#8, 0x01#8, 0x2C#8, 0x01#8, 0x00#8, 0x80#8] = .instr (.setpix 300#16 0x8000#16 true) := by decide

theorem test_decode_line :
    decode [0x03#8, 0x01#8, 0x0A#8, 0x00#8, 0x05#8, 0x00#8, 0x02#8, 0x00#8, 0x08#8, 0x00#8]
      = .instr (.line 10#16 5#16 2#16 8#16 true) := by decide

theorem test_decode_wchar :
    decode [0x04#8, 0x10#8, 0x00#8, 0x0D#8, 0x00#8, 0x62#8] = .instr (.wchar 16#16 13#16 0x62#8) := by decide

theorem test_decode_wstr :
    decode [0x05#8, 0x00#8, 0x00#8, 0x00#8, 0x00#8, 0x02#8, 0x41#8, 0x31#8]
      = .instr (.wstr 0#16 0#16 [0x41#8, 0x31#8]) := by decide

theorem test_decode_render :
    decode [0x06#8, 0x10#8, 0x17#8, 0x01#8, 0x02#8] = .instr (.render 16#8 23#8 1#8 2#8) := by decide

theorem test_decode_scroll : decode [0x07#8, 0x01#8] = .instr (.scroll true) := by decide

theorem test_decode_fbwr : decode [0x08#8, 0x85#8, 0x00#8, 0xFF#8] = .instr (.fbwr 133#16 0xFF#8) := by decide

theorem test_decode_fbrd : decode [0x09#8, 0xFF#8, 0x03#8] = .instr (.fbrd 1023#16) := by decide

theorem test_decode_fbfill : decode [0x0A#8, 0xAA#8] = .instr (.fbfill 0xAA#8) := by decide

theorem test_decode_geom : decode [0x0B#8] = .instr .geom := by decide

/-- V110 to V127: one illegal packet for each clause of R94. -/
theorem test_decode_illegal :
    [decode [], decode [0x0C#8], decode [0x01#8, 0x00#8], decode [0x05#8, 0#8, 0#8, 0#8, 0#8, 0x02#8, 0x41#8],
     decode [0x07#8, 0x02#8]]
      = [.illegal .emptyPacket, .illegal (.badOpcode 0x0C#8), .illegal (.badLength 0x01#8 2),
         .illegal (.badLength 0x05#8 7), .illegal (.reservedFlagBits 0x02#8)] := by decide

/-- Bit 0 of the table's number is bit 0 of byte 0; missing operand bytes are zero. -/
theorem test_decodeTableWord :
    decodeTableWord 48 0x000A00050102 = some (.setpix 5#16 10#16 true) ∧
    decodeTableWord 8 0x05 = some (.wstr 0#16 0#16 []) ∧ decodeTableWord 8 0x0C = none := by decide +kernel

/-- Example of R96: the syntax has `on` last. -/
theorem test_asm :
    asmLine (.setpix (BitVec.ofInt 16 (-1)) 0#16 false) = "SETPIX -1, 0, 0" ∧
    asmLine (.wstr 0#16 0#16 [0x41#8, 0x31#8]) = "WSTR 0, 0, \"A1\"" := by decide +kernel

/-! ### Operations -/

/-- V18, V19: the other bits of the byte are kept. -/
theorem test_setpix_one_bit :
    after (exec (.setpix 5#16 10#16 true) (filled 0xA1#8))
      (fun t => decide (bytesAt t 132 3 = [0xA1#8, 0xA5#8, 0xA1#8] ∧ t.respLog = [[0x00#8]] ∧ t.phase = .idle)) = true ∧
    after (exec (.setpix 5#16 15#16 false) (filled 0xA4#8)) (fun t => decide (fbByte t 133 = 0x24#8)) = true := by
  decide +kernel

/-- V134: `x = W + 3` traps and does not reach the next page. -/
theorem test_setpix_traps :
    after (exec (.setpix 131#16 0#16 true) fresh)
      (fun t => decide (t.respLog = [[0xFF#8, 0x03#8, 0x83#8, 0x00#8, 0x00#8, 0x00#8]] ∧ t.phase = .halt ∧ t.fb = []))
      = true := by decide +kernel

/-- V40: a shallow line of negative direction over two pages. -/
theorem test_line_points :
    linePoints 10 5 2 8 = [(10, 5), (9, 5), (8, 6), (7, 6), (6, 7), (5, 7), (4, 7), (3, 8), (2, 8)] ∧
    after (exec (.line 10#16 5#16 2#16 8#16 true) (filled 0x00#8))
      (fun t => decide (bytesAt t 3 8 = [0#8, 0x80#8, 0x80#8, 0x80#8, 0x40#8, 0x40#8, 0x20#8, 0x20#8] ∧
        bytesAt t 129 4 = [0#8, 1#8, 1#8, 0#8])) = true := by decide +kernel

/-- V154: the points before the first one out of bounds are written. -/
theorem test_line_traps :
    after (exec (.line 126#16 0#16 129#16 3#16 true) (filled 0x00#8))
      (fun t => decide (bytesAt t 125 4 = [0#8, 1#8, 2#8, 0#8] ∧
        t.respLog = [[0xFF#8, 0x03#8, 0x80#8, 0x00#8, 0x02#8, 0x00#8]])) = true := by decide +kernel

/-- V48: the row snaps to its page and the letter folds. -/
theorem test_wchar_cell :
    after (exec (.wchar 16#16 13#16 0x62#8) (filled 0xFF#8))
      (fun t => decide (bytesAt t 143 10 =
        [0xFF#8, 0x10#8, 0x11#8, 0x12#8, 0x13#8, 0x14#8, 0x15#8, 0x16#8, 0x17#8, 0xFF#8])) = true := by decide +kernel

/-- V161, V164, V167: off-screen is a silent no-op and wins over a negative origin, which traps. -/
theorem test_wchar_origin :
    after (exec (.wchar 0#16 57#16 0x41#8) fresh) (fun t => decide (t.fb = [] ∧ t.respLog = [[0x00#8]])) = true ∧
    after (exec (.wchar 0xFFFF#16 60#16 0x41#8) fresh) (fun t => decide (t.respLog = [[0x00#8]])) = true ∧
    after (exec (.wchar 0#16 0xFFFF#16 0x41#8) fresh)
      (fun t => decide (t.respLog = [[0xFF#8, 0x04#8, 0x00#8, 0x00#8, 0xFF#8, 0xFF#8]])) = true := by decide +kernel

/-- V54: characters advance by eight columns. -/
theorem test_wstr_advances :
    after (exec (.wstr 0#16 0#16 [0x41#8, 0x31#8]) (filled 0x00#8))
      (fun t => decide (bytesAt t 6 5 = [0x0E#8, 0x0F#8, 0xE0#8, 0xE1#8, 0xE2#8] ∧ fbByte t 16 = 0#8)) = true := by
  decide +kernel

/-- V63: a blank third character still overruns; the two before it are drawn. -/
theorem test_wstr_overrun :
    after (exec (.wstr 112#16 8#16 [0x48#8, 0x49#8, 0x21#8]) (filled 0x00#8))
      (fun t => decide (t.respLog = [[0xFF#8, 0x05#8, 0x80#8, 0x00#8, 0x02#8, 0x03#8]] ∧
        bytesAt t 240 1 = [0x40#8] ∧ bytesAt t 255 2 = [0x4F#8, 0#8])) = true := by decide +kernel

/-- V76: an area that is not contiguous streams contiguous bytes all the same. -/
theorem test_render_slice :
    after (exec (.render 8#8 15#8 0#8 1#8) (ready 7))
      (fun t => decide (sent t =
        [[0x80#8, 0x21#8], [0x80#8, 0x08#8], [0x80#8, 0x0F#8], [0x80#8, 0x22#8], [0x80#8, 0x00#8], [0x80#8, 0x01#8],
         [0x40#8, 0x08#8, 0x09#8, 0x0A#8, 0x0B#8, 0x0C#8, 0x0D#8, 0x0E#8, 0x0F#8, 0x10#8, 0x11#8, 0x12#8, 0x13#8,
          0x14#8, 0x15#8, 0x16#8, 0x17#8]] ∧ t.respLog = [[0x00#8]])) = true := by decide +kernel

/-- V79, V82: `NotInitialised` comes before `BadArea`. -/
theorem test_render_traps :
    after (exec (.render 0#8 127#8 0#8 8#8) (ready 7))
      (fun t => decide (t.respLog = [[0xFF#8, 0x06#8, 0x00#8, 0x7F#8, 0x00#8, 0x08#8]] ∧ t.busLog = [])) = true ∧
    after (exec (.render 5#8 4#8 0#8 0#8) fresh)
      (fun t => decide (t.respLog = [[0xFF#8, 0x02#8, 0x06#8, 0x00#8, 0x00#8, 0x00#8]])) = true := by decide +kernel

/-- V90: the 26 command frames. -/
theorem test_init_sends :
    after (exec .init { fresh with answers := List.replicate 26 .ok })
      (fun t => decide (sent t = [0xAE#8, 0x20#8, 0x00#8, 0x40#8, 0xA1#8, 0xA8#8, 0x3F#8, 0xC8#8, 0xD3#8, 0x00#8,
        0xDA#8, 0x12#8, 0xD5#8, 0x80#8, 0xD9#8, 0xF1#8, 0xDB#8, 0x30#8, 0x81#8, 0xFF#8, 0xA4#8, 0xA6#8, 0x8D#8, 0x14#8,
        0x2E#8, 0xAF#8].map (fun c => [0x80#8, c]) ∧ t.inited = true ∧ t.scrolling = .off)) = true := by decide +kernel

/-- V96: a failure at transaction 11 ends `INIT` there. -/
theorem test_init_fails :
    after (exec .init { fresh with answers := List.replicate 11 .ok ++ [.fail] })
      (fun t => decide (t.busLog.length = 12 ∧ t.busLog.getLast? = some ⟨0x3C, [0x80#8, 0x12#8], .fail⟩ ∧
        t.inited = false ∧ t.respLog = [[0x01#8]] ∧ t.phase = .idle)) = true := by decide +kernel

/-- V92, V93: only the last byte differs. -/
theorem test_scroll_sends :
    after (exec (.scroll true) (ready 8))
      (fun t => decide (sent t = [0x26#8, 0#8, 0#8, 0#8, 0x03#8, 0#8, 0xFF#8, 0x2F#8].map (fun c => [0x80#8, c]) ∧
        t.scrolling = .on)) = true ∧
    after (exec (.scroll false) (ready 8))
      (fun t => decide (t.scrolling = .off ∧ (sent t).getLast? = some [0x80#8, 0x2E#8])) = true := by decide +kernel

/-- V94, V100. -/
theorem test_scroll_traps_and_fails :
    after (exec (.scroll true) fresh)
      (fun t => decide (t.respLog = [[0xFF#8, 0x02#8, 0x07#8, 0x00#8, 0x00#8, 0x00#8]] ∧ t.busLog = [])) = true ∧
    after (exec (.scroll true) { ready 0 with answers := [.ok, .ok, .ok, .fail] })
      (fun t => decide (t.scrolling = .unknown ∧ t.inited = true ∧ t.busLog.length = 4)) = true := by decide +kernel

/-- V31, V32: the last index, and the first past it. -/
theorem test_fbwr :
    after (exec (.fbwr 1023#16 0xA5#8) fresh) (fun t => decide (t.fb = [(1023, 0xA5#8)])) = true ∧
    after (exec (.fbwr 1024#16 0x01#8) fresh)
      (fun t => decide (t.respLog = [[0xFF#8, 0x07#8, 0x00#8, 0x04#8, 0x00#8, 0x00#8]] ∧ t.fb = [])) = true := by
  decide +kernel

/-- V30, V33. -/
theorem test_fbrd :
    after (exec (.fbrd 133#16) (filled 0xFF#8)) (fun t => decide (t.respLog = [[0x00#8, 0xFF#8]])) = true ∧
    after (exec (.fbrd 0xFFFF#16) fresh)
      (fun t => decide (t.respLog = [[0xFF#8, 0x07#8, 0xFF#8, 0xFF#8, 0x00#8, 0x00#8]])) = true := by decide +kernel

/-- V36: a byte nothing has written reads as the reset draw, whatever it is. -/
theorem test_fbrd_draw :
    exec (.fbrd 0#16) fresh = .next { fresh with respLog := [[0x00#8, Config.fbDraw 0 0]], phase := .idle } := by
  simp [exec, execFbrd, fbRead, fbByte, respond, okResponse, fresh, State.resetOf, testParams, Params.referenceWith,
    Params.fbLen, Params.pages]

/-- V34. -/
theorem test_fbfill :
    after (exec (.fbfill 0xFF#8) fresh)
      (fun t => decide (t.fb = (List.range 1024).map (fun i => (i, 0xFF#8)) ∧ Memory.wf 1024 t.fb = true)) = true := by
  decide +kernel

/-- V35. -/
theorem test_geom :
    after (exec .geom fresh)
      (fun t => decide (t.respLog = [[0#8, 0x80#8, 0#8, 0x40#8, 0#8, 0x08#8, 0#8, 0#8, 0x04#8]])) = true := by
  decide +kernel

/-! ### Steps -/

/-- V116: an illegal packet traps through the step. -/
theorem test_step_illegal :
    after (step { fresh with cmdPort := [[0x02#8, 0x02#8, 0#8, 0#8, 0#8, 0#8]] })
      (fun t => decide (t.respLog = [[0xFF#8, 0x01#8, 0x02#8, 0x06#8, 0x00#8, 0x00#8]] ∧ t.cmdPort = [])) = true := by
  decide +kernel

/-- V101, and the answer that comes after all. -/
theorem test_step_waits_and_resumes :
    after (step { fresh with cmdPort := [[0x01#8]] })
      (fun t => decide (t.phase = .waitBus .init 0 ∧ t.busLog = [⟨0x3C, [0x80#8, 0xAE#8], .pending⟩] ∧ t.respLog = []) &&
        after (step { t with answers := [.fail] })
          (fun u => decide (u.phase = .idle ∧ u.busLog = [⟨0x3C, [0x80#8, 0xAE#8], .fail⟩] ∧ u.respLog = [[0x01#8]])))
      = true := by decide +kernel

/-- R250: reset while a transaction is pending. -/
theorem test_step_reset :
    after (step { fresh with resetPin := some .now, phase := .waitBus .init 0, busLog := [⟨0x3C, [0x80#8, 0xAE#8], .pending⟩] })
      (fun t => decide (t.phase = .idle ∧ t.busLog = [] ∧ t.epoch = 1 ∧
        t.oldBusLogs = [[⟨0x3C, [0x80#8, 0xAE#8], .pending⟩]])) = true := by decide +kernel

/-- R250: reset in EXEC, after the answer to transaction 0 and before transaction 1; nothing is pending in the old history. -/
theorem test_step_reset_between_transactions :
    after (step (assertReset .inExec { fresh with
      phase := .waitBus .init 0, busLog := [⟨0x3C, [0x80#8, 0xAE#8], .pending⟩], answers := [.ok] }))
      (fun t => decide (t.phase = .idle ∧ t.busLog = [] ∧ t.respLog = [] ∧ t.epoch = 1 ∧
        t.oldBusLogs = [[⟨0x3C, [0x80#8, 0xAE#8], .ok⟩]])) = true := by decide +kernel

/-- Every opcode, its operand bytes zero, runs as the first operation after reset. -/
theorem test_withFetchWord :
    (List.range 11).all (fun k => after (step (State.reset.withFetchWord 8 (k + 1))) (fun t => decide (t.cmdPort = [])))
      = true := by decide +kernel

/-- A geometry outside R7 is refused (U29). -/
theorem test_step_not_an_instance :
    step { fresh with params := { testParams with height := 60 } } = .refused .notAnInstance := by
  rfl

/-! ### The reference instance and the invariants -/

/-- The state after a successful `INIT` on the test instance. -/
def inited : State :=
  { fresh with inited := true, scrolling := .off, respLog := [[0x00#8]],
               busLog := (seqFrames testParams.initSeq).map (okEntry testParams) }

theorem inited_is_after_init :
    after (exec .init { fresh with answers := List.replicate 26 .ok }) (fun t => decide (t = inited)) = true := by
  decide +kernel

/-- A CORE waiting for the answer to the first transaction of a second `INIT`. -/
def waiting : State :=
  { inited with phase := .waitBus .init 0, busLog := inited.busLog ++ [⟨0x3C, [0x80#8, 0xAE#8], .pending⟩] }

theorem okLog_frames {e : BusEntry} (h : e ∈ (seqFrames testParams.initSeq).map (okEntry testParams)) :
    (e.addr = testParams.devAddr ∧ FrameOk e.bytes) ∧ e.answer = .ok := by
  obtain ⟨f, hf, rfl⟩ := List.mem_map.1 h
  obtain ⟨c, -, rfl⟩ := List.mem_map.1 hf
  exact ⟨⟨rfl, .inl ⟨c, rfl⟩⟩, rfl⟩

theorem witness_inv_inited : Inv inited where
  params := test_wf_accepts
  memory := rfl
  halted := by simp [inited, fresh, State.resetOf]
  latch := by simp [inited, fresh, State.resetOf]
  between := by simp [inited, fresh, State.resetOf]
  frames := fun _ he => (okLog_frames he).1
  pending := by
    intro n e he
    have hok := (okLog_frames (List.mem_of_getElem? he)).2
    simp [hok, IsWaiting, inited, fresh, State.resetOf]
  waiting := by intro job k h; simp [inited, fresh, State.resetOf] at h

theorem witness_inv_waiting : Inv waiting where
  params := test_wf_accepts
  memory := rfl
  halted := by simp [waiting, inited, fresh, State.resetOf]
  latch := by simp [waiting, inited, fresh, State.resetOf]
  between := by simp [waiting]
  frames := by
    intro e he
    rcases List.mem_append.1 he with he | he
    · exact (okLog_frames he).1
    · rw [List.mem_singleton.1 he]; exact ⟨rfl, .inl ⟨_, rfl⟩⟩
  pending := by
    intro n e he
    have hlen : inited.busLog.length = 26 := by rfl
    have hw : IsWaiting waiting := ⟨.init, 0, rfl⟩
    have hlen' : waiting.busLog.length = 27 := by rfl
    rw [hlen']
    change (inited.busLog ++ [_])[n]? = some e at he
    rw [List.getElem?_append] at he
    split at he
    · next hn =>
      have hok := (okLog_frames (List.mem_of_getElem? he)).2
      simp only [hok, hw, and_true]
      constructor
      · intro h; cases h
      · intro h; omega
    · next hn =>
      have h0 : n = 26 := by
        by_contra hne
        rw [List.getElem?_eq_none (by simp; omega)] at he
        cases he
      subst h0
      simp only [hlen, Nat.sub_self, List.getElem?_cons_zero, Option.some.injEq] at he
      subst he
      simp [hw]
  waiting := by
    intro job k h
    cases h
    exact ⟨seqFrames testParams.initSeq, [0x80#8, 0xAE#8], inited.busLog, rfl, rfl, by simp [waiting]; rfl,
      fun h => absurd rfl h, fun a h => by cases h⟩

theorem witness_bringUpFirst : BringUpFirst inited :=
  ⟨fun _ => ⟨[], [], by simp [inited]; rfl⟩, by
    intro before e after h hd
    have he : e ∈ inited.busLog := by rw [h]; simp
    obtain ⟨f, hf, rfl⟩ := List.mem_map.1 he
    obtain ⟨c, -, rfl⟩ := List.mem_map.1 hf
    simp [okEntry, commandFrame, ctrlCmd, ctrlData] at hd⟩

/-! ### Witnesses: for each statement with hypotheses, concrete states and operands that meet them together -/

/-- DecodeOfEncodeIsTheOperation: the longest text, and every coordinate extreme. -/
theorem witness_decodeOfEncode : (Instr.wstr 0#16 0#16 (List.replicate 255 0x41#8)).wf = true ∧
    (Instr.line 0#16 0x8000#16 0x7FFF#16 0xFFFF#16 true).wf = true := by decide +kernel

/-- DecodedPacketIsTheEncoding. -/
theorem witness_decodedPacket : decode [0x05#8, 0x01#8, 0x00#8, 0x02#8, 0x00#8, 0x01#8, 0x7A#8]
    = .instr (.wstr 1#16 2#16 [0x7A#8]) := by decide

/-- An idle CORE with one packet at its port. -/
def withPacket (p : List Byte) : State := { fresh with cmdPort := [p] }

/-- IllegalPacketsAreThoseOfTheRuleAndTrap: a packet one byte too long. -/
theorem witness_illegalPacket : (withPacket [0x0B#8, 0x00#8]).params.geometryOk = true ∧
    (withPacket [0x0B#8, 0x00#8]).resetPin = none ∧ (withPacket [0x0B#8, 0x00#8]).phase = .idle ∧
    (withPacket [0x0B#8, 0x00#8]).cmdPort = [0x0B#8, 0x00#8] :: [] ∧
    decode [0x0B#8, 0x00#8] = .illegal (.badLength 0x0B#8 2) := by decide +kernel

/-- StepRunsTheDecodedOperation, and the first clause of OneResponsePerPacketOrWaiting. -/
theorem witness_idlePacket : (withPacket [0x0B#8]).params.geometryOk = true ∧ (withPacket [0x0B#8]).resetPin = none ∧
    (withPacket [0x0B#8]).phase = .idle ∧ (withPacket [0x0B#8]).cmdPort = [0x0B#8] :: [] ∧
    decode [0x0B#8] = .instr .geom ∧ after (step (withPacket [0x0B#8])) (fun _ => true) = true := by decide +kernel

/-- The second clause of OneResponsePerPacketOrWaiting. -/
theorem witness_waitingStep : waiting.params.geometryOk = true ∧ waiting.resetPin = none ∧
    waiting.phase = .waitBus .init 0 ∧ after (step waiting) (fun _ => true) = true ∧
    after (step { waiting with answers := [.fail] }) (fun t => decide (t.phase = .idle)) = true := by decide +kernel

/-- A CORE in HALT. -/
def halted : State := raiseFault .badArea FaultInfo.zero fresh

/-- HaltIsLeftByResetAlone, both clauses, and the first clause of ResetInAnyPhase, with its two cases. -/
theorem witness_halted : halted.phase = .halt ∧ halted.params.geometryOk = true ∧ halted.resetPin = none ∧
    (assertReset .now halted).phase = .halt ∧ (assertReset .now halted).resetPin = some .now ∧
    (assertReset .now waiting).params.geometryOk = true ∧ (assertReset .now waiting).resetPin = some .now ∧
    (assertReset .inExec (acceptPacket [] fresh)).resetPin = some .inExec ∧
    (assertReset .inExec (acceptPacket [] fresh)).phase = .exec := by decide +kernel

/-- ResetInAnyPhase, the clauses of a reset that lands in EXEC: accepting a packet, taking an answer, nothing to do. -/
theorem witness_resetInExec : (assertReset .inExec (withPacket [0x0B#8])).phase = .idle ∧
    (assertReset .inExec (withPacket [0x0B#8])).cmdPort = [0x0B#8] :: [] ∧
    (assertReset .inExec (deliverAnswer .ok waiting)).phase = .waitBus .init 0 ∧
    (assertReset .inExec (deliverAnswer .ok waiting)).answers = [.ok] ∧
    (assertReset .inExec (deliverAnswer .ok waiting)).busLog =
      inited.busLog ++ [⟨0x3C, [0x80#8, 0xAE#8], .pending⟩] ∧
    ((assertReset .inExec fresh).phase = .idle ∧ (assertReset .inExec fresh).cmdPort = []) ∧
    (assertReset .inExec waiting).answers = [] ∧ (assertReset .inExec halted).phase = .halt := by decide +kernel

/-- ResetBetweenTransactions: an `INIT` that waits for the answer to its transaction 2. -/
theorem witness_resetBetweenTransactions : fresh.params.geometryOk = true ∧
    ∃ t, exec .init { fresh with answers := [.ok, .ok] } = .next t ∧ t.phase = .waitBus .init 2 := by
  refine ⟨by decide +kernel, ?_⟩
  obtain ⟨t, ht, hp⟩ := next_of_after (r := exec .init { fresh with answers := [.ok, .ok] })
    (ok := fun t => decide (t.phase = .waitBus .init 2)) (by decide +kernel)
  exact ⟨t, ht, of_decide_eq_true hp⟩

/-- StalledBusStallsForEver. -/
theorem witness_stalled : waiting.params.geometryOk = true ∧ waiting.resetPin = none ∧
    waiting.phase = .waitBus .init 0 ∧ waiting.answers = [] := by decide +kernel

/-- WaitingThenAnsweredIsOneRun: two early answers, then the rest. -/
theorem witness_waitingThenAnswered : fresh.params.geometryOk = true ∧ fresh.resetPin = none ∧
    [BusAnswer.ok] ≠ [] ∧ ∃ t, exec .init { fresh with answers := [.ok, .ok] } = .next t ∧ IsWaiting t := by
  refine ⟨by decide +kernel, rfl, by decide, ?_⟩
  obtain ⟨t, ht, hp⟩ := next_of_after (r := exec .init { fresh with answers := [.ok, .ok] })
    (ok := fun t => decide (t.phase = .waitBus .init 2)) (by decide +kernel)
  exact ⟨t, ht, .init, 2, of_decide_eq_true hp⟩

/-- PixelMapIsABijection, SetpixWritesOneBitOrTraps, SetpixThenReadGivesThePixel, LineDrawsExactlyItsWalk and
LineTrapsAtTheFirstPointOutOfBounds: pixels at both corners, and each way out of bounds. -/
theorem witness_bounds :
    fresh.params.geometryOk = true ∧
    InBounds fresh.params (coord 0#16) (coord 0#16) ∧ InBounds fresh.params (coord 127#16) (coord 63#16) ∧
    ¬ InBounds fresh.params (coord 128#16) (coord 0#16) ∧ ¬ InBounds fresh.params (coord 0#16) (coord 64#16) ∧
    ¬ InBounds fresh.params (coord 0xFFFF#16) (coord 0#16) ∧
    ¬ InBounds fresh.params (coord 0#16) (coord 0xFFFF#16) := by decide +kernel

/-- PixelMapIsABijection: the last bit of the last byte. -/
theorem witness_lastBit : fresh.params.geometryOk = true ∧ 1023 < fresh.params.fbLen ∧ 7 ≤ 7 := by decide +kernel

/-- FbwrStoresOneByteOrTraps and FbrdAnswersTheByteOrTraps: the last index and the first past it. -/
theorem witness_indices : (1023#16).toNat < fresh.params.fbLen ∧ fresh.params.fbLen ≤ (1024#16).toNat := by
  decide +kernel

/-- FbrdTwiceAnswersTheSame. -/
theorem witness_fbrdTwice : (1023#16).toNat < fresh.params.fbLen ∧
    after (exec (.fbrd 1023#16) fresh) (fun t => after (exec (.fbrd 1023#16) t) (fun _ => true)) = true := by
  decide +kernel

/-- LineWalkIsARasterWalk, LineTrapsAtTheFirstPointOutOfBounds: consecutive points of a walk, the last among them. -/
theorem witness_walkPoints : (linePoints 0 0 2 1)[1]? = some (1, 1) ∧ (linePoints 0 0 2 1)[1 + 1]? = some (2, 1) ∧
    (2, 1) ∈ linePoints 0 0 2 1 := by decide +kernel

/-- LineWalkIsARasterWalk: a wide tie in both directions and a tall one, each point on its walk (R162 (e)). -/
theorem witness_walkTie : ((1, 1) : Int × Int) ∈ linePoints 0 0 2 1 ∧ ((1, 0) : Int × Int) ∈ linePoints 2 1 0 0 ∧
    ((1, 1) : Int × Int) ∈ linePoints 0 0 1 2 ∧ 1 ≤ max ((2 : Int) - 0).natAbs ((1 : Int) - 0).natAbs ∧
    ((1 : Int) - 0).natAbs ≤ ((2 : Int) - 0).natAbs ∧ 0 < ((2 : Int) - 0).natAbs := by decide +kernel

/-- LineRegistersStayBounded: the last iteration of the longest line. -/
theorem witness_lineRegisters :
    65535 ≤ max (coord 0x7FFF#16 - coord 0x8000#16).natAbs (coord 2#16 - coord 0#16).natAbs := by decide +kernel

/-- LineAgainAndLineErased. -/
theorem witness_lineAgain : fresh.params.geometryOk = true ∧ InBounds fresh.params (coord 0#16) (coord 0#16) ∧
    InBounds fresh.params (coord 2#16) (coord 1#16) ∧
    after (exec (.line 0#16 0#16 2#16 1#16 true) fresh) (fun t =>
      after (exec (.line 0#16 0#16 2#16 1#16 true) t) (fun _ =>
        after (exec (.line 0#16 0#16 2#16 1#16 false) t) (fun _ => true))) = true := by decide +kernel

/-- WcharBlitsOneCellOrNothing and WstrBlitsItsCharactersOrTraps: the last cell on the panel, one column and one row past
it, and negative origins. -/
theorem witness_origins : fresh.params.geometryOk = true ∧
    ¬ OffScreen fresh.params (coord 120#16) (coord 56#16) ∧ 0 ≤ coord 120#16 ∧ 0 ≤ coord 56#16 ∧
    OffScreen fresh.params (coord 121#16) (coord 0#16) ∧ OffScreen fresh.params (coord 0#16) (coord 57#16) ∧
    ¬ OffScreen fresh.params (coord 0xFFFF#16) (coord 0#16) ∧ coord 0xFFFF#16 < 0 ∧
    ¬ OffScreen fresh.params (coord 0#16) (coord 0xFFFF#16) := by decide +kernel

/-- WstrBlitsItsCharactersOrTraps: sixteen characters fit from column 0 and seventeen do not. -/
theorem witness_textFits : ¬ OffScreen fresh.params (coord 0#16) (coord 0#16) ∧ 0 ≤ coord 0#16 ∧
    TextFits fresh.params (coord 0#16) (List.replicate 16 0x41#8).length ∧
    ¬ TextFits fresh.params (coord 0#16) (List.replicate 17 0x41#8).length := by
  refine ⟨by decide +kernel, by decide, .inr (by decide +kernel), ?_⟩
  rintro (h | h)
  · simp at h
  · exact absurd h (by decide +kernel)

/-- TextMattersOnlyThroughItsGlyphs: two texts with the same glyphs. -/
theorem witness_sameGlyphs : [0x41#8, 0x3F#8].map glyphOf = [0x61#8, 0x20#8].map glyphOf := by decide

/-- UnsupportedCharacterErasesItsCell: a question mark in the last cell. -/
theorem witness_unsupported : fresh.params.wf = true ∧ glyphOf 0x3F#8 = 0 ∧
    ¬ OffScreen fresh.params (coord 120#16) (coord 56#16) ∧ 0 ≤ coord 120#16 ∧ 0 ≤ coord 56#16 := by decide +kernel

/-- InitSendsTheBringUpSequence: all answered, a failure at the last frame, and a wait at the first. -/
theorem witness_initAnswers :
    let frames := (ready 26).params.initSeq.map (fun c => [0x80#8, c])
    (ready 26).answers = List.replicate frames.length .ok ++ [] ∧ 25 < frames.length ∧ 0 < frames.length ∧
    fresh.answers = List.replicate 0 .ok := by decide +kernel

/-- ScrollSendsItsSequence: each clause. -/
theorem witness_scrollAnswers :
    let frames := ((ready 8).params.scrollSeq true).map (fun c => [0x80#8, c])
    fresh.inited = false ∧ (ready 8).inited = true ∧ (ready 8).answers = List.replicate frames.length .ok ++ [] ∧
    7 < frames.length ∧ (ready 0).inited = true ∧ (ready 0).answers = List.replicate 0 .ok := by decide +kernel

/-- SequencesHoldTheirFixedParts: the reference height and the greatest, whose `H - 1` is the greatest byte. -/
theorem witness_sequences : testParams.wf = true ∧ ({ testParams with height := 256 } : Params).wf = true := by
  decide +kernel

/-- RenderSendsWindowAndSlice, RenderStaysInsideTheBuffer, StreamMatchesWindowExactlyWhenContiguous: well-formed areas at
both corners, one that is not contiguous, and each way of being ill-formed. -/
theorem witness_areas : fresh.inited = false ∧ (ready 7).inited = true ∧ (ready 7).params.geometryOk = true ∧
    AreaOk (ready 7).params ⟨0#8, 0#8, 0#8, 0#8⟩ ∧ AreaOk (ready 7).params ⟨127#8, 127#8, 7#8, 7#8⟩ ∧
    AreaOk (ready 7).params ⟨8#8, 15#8, 0#8, 1#8⟩ ∧ ¬ Contiguous (ready 7).params ⟨8#8, 15#8, 0#8, 1#8⟩ ∧
    ¬ AreaOk (ready 7).params ⟨5#8, 4#8, 0#8, 0#8⟩ ∧ ¬ AreaOk (ready 7).params ⟨0#8, 128#8, 0#8, 0#8⟩ ∧
    ¬ AreaOk (ready 7).params ⟨0#8, 0#8, 3#8, 2#8⟩ ∧ ¬ AreaOk (ready 7).params ⟨0#8, 0#8, 0#8, 8#8⟩ ∧
    (ready 7).answers = List.replicate 7 .ok ++ [] ∧ 6 < 7 ∧ (ready 6).answers = List.replicate 6 .ok := by
  decide +kernel

/-- RenderfullStreamsTheWholeBuffer. -/
theorem witness_renderfull : (ready 7).params.geometryOk = true ∧ (ready 7).inited = true ∧
    (ready 7).answers = List.replicate 7 .ok ++ [] := by decide +kernel

/-- TrapsArePrecise and the other statements over `exec i s = next t`: a trap that has written part of its line, on a
geometry of R7, by an operation that is neither `RENDER` nor `SCROLL`. -/
theorem witness_trap : fresh.params.geometryOk = true ∧
    after (exec (.line 127#16 0#16 128#16 0#16 true) fresh)
      (fun t => decide (t.phase = .halt) && decide (t.fb.length = 1)) = true := by decide +kernel

/-- OnlyBusOperationsIssueTransactions: a transaction; OnlyRenderAndScrollLookAtInited: an `INITED` of 0. -/
theorem witness_transaction : after (exec .init fresh) (fun t => decide (t.busLog.length = 1)) = true ∧
    fresh.inited = false := by decide +kernel

/-- NoContentOfTheBufferSteersAnOperation: an `FBRD` that answers, and a `RENDER` that streams. -/
theorem witness_contentRead : after (exec (.fbrd 0#16) fresh) (fun t => decide (t.respLog.length = 1)) = true ∧
    after (exec (.render 0#8 7#8 0#8 0#8) (ready 7)) (fun t => decide (t.busLog.length = 7)) = true := by
  decide +kernel

/-- NothingReadsTheBusHistory, NothingDependsOnScrolling, NothingDependsOnTheFaultLatch, ConstantsNeverChange: a waiting
CORE with a history, that steps. -/
theorem witness_history : waiting.resetPin = none ∧ (IsWaiting waiting → waiting.busLog ≠ []) ∧
    after (step { waiting with answers := [.ok] }) (fun _ => true) = true :=
  ⟨rfl, fun _ => by simp [waiting], by decide +kernel⟩

/-- EveryStepKeepsTheInvariant and InputsKeepTheInvariant: an idle and a waiting CORE that step. -/
theorem witness_invariant : (Inv inited ∧ after (step inited) (fun _ => true) = true) ∧
    (Inv waiting ∧ after (step waiting) (fun _ => true) = true) :=
  ⟨⟨witness_inv_inited, by decide +kernel⟩, ⟨witness_inv_waiting, by decide +kernel⟩⟩

/-- ResetMeetsTheInvariant. -/
theorem witness_admitted : testParams.wf = true ∧ Params.reference.wf = true := ⟨test_wf_accepts, reference_wf⟩

/-- BringUpComesBeforeAnyData. -/
theorem witness_bringUp : Inv inited ∧ BringUpFirst inited ∧ after (step inited) (fun _ => true) = true :=
  ⟨witness_inv_inited, witness_bringUpFirst, by decide +kernel⟩

/-- ReachableStatesBringUpFirst. -/
theorem witness_reachable : Reachable fresh := .ofReset testParams 0 test_wf_accepts

end Sys2Proof.Tests
end

section
/-! What an admitted CORE's constants say of its two sequences (R10, R116 to R118, R121, R122). -/

namespace Sys2Proof.Machine

/-- What the four checks of an admitted CORE say: R7, R116 to R118, R122 and R180. -/
theorem wf_parts {p : Params} (hp : p.wf = true) :
    p.geometryOk = true ∧ p.initTable.wf = true ∧ p.scrollOk = true ∧ p.glyphOk = true := by
  simpa [Params.wf, and_assoc] using hp

/-- A panel height less one is a byte's value: `H` is at most 256 (R7). -/
theorem initByte_muxRatio_toNat {p : Params} (hg : p.geometryOk = true) :
    (p.initByte .muxRatio).toNat = p.height - 1 := by
  simp only [Params.geometryOk, Bool.and_eq_true, decide_eq_true_eq] at hg
  simp only [Params.initByte, BitVec.toNat_ofNat]
  omega

/-- `INIT_SEQ` is its 15 configuration groups, then scroll deactivation, then display-on (R116, R121). -/
theorem initSeq_eq_config_append (p : Params) :
    p.initSeq = (p.initTable.groups.take 15).flatMap p.initGroupBytes ++
      (p.initGroupBytes p.initTable.scrollOff ++ p.initGroupBytes p.initTable.displayOn) := by
  have hlast : p.initTable.groups.drop 15 = [p.initTable.scrollOff, p.initTable.displayOn] := rfl
  calc p.initSeq = (p.initTable.groups.take 15 ++ p.initTable.groups.drop 15).flatMap p.initGroupBytes := by
        rw [List.take_append_drop, Params.initSeq]
    _ = _ := by rw [List.flatMap_append, hlast, List.flatMap_cons, List.flatMap_singleton]

/-- An argument of a group has its byte among those that follow the command byte (R116). -/
theorem initGroupBytes_arg (p : Params) {g : InitGroup} {a : InitByte} (ha : a ∈ g.args) :
    ∃ args, p.initGroupBytes g = g.cmd :: args ∧ p.initByte a ∈ args :=
  ⟨g.args.map p.initByte, rfl, List.mem_map_of_mem ha⟩

/-- A place of the enabling sequence holds the byte its element stands for (R122). -/
theorem scrollSeq_true_getElem? {p : Params} {i : Nat} {e : ScrollByte} (h : p.scrollOn[i]? = some e) :
    (p.scrollSeq true)[i]? = some (scrollByteValue e) := by
  simp [Params.scrollSeq, h]

/-- Different elements of a list stand at different places. -/
theorem index_ne_of_getElem?_ne {α : Type} {l : List α} {i j : Nat} {a b : α} (hi : l[i]? = some a)
    (hj : l[j]? = some b) (hab : a ≠ b) : i ≠ j := by
  rintro rfl
  exact hab (Option.some.inj (hi.symm.trans hj))

/-- The three constants of R10 stand at three places of the enabling sequence (R122, log 18). -/
theorem scrollOn_constants {p : Params} (hs : p.scrollOk = true) :
    ∃ i j k : Nat, i ≠ j ∧ i ≠ k ∧ j ≠ k ∧
      p.scrollOn[i]? = some .startPage ∧ p.scrollOn[j]? = some .endPage ∧ p.scrollOn[k]? = some .interval := by
  simp only [Params.scrollOk, Bool.and_eq_true, List.contains_iff_mem] at hs
  obtain ⟨⟨⟨hstart, hend⟩, hinterval⟩, -⟩ := hs
  obtain ⟨i, hi⟩ := List.mem_iff_getElem?.mp hstart
  obtain ⟨j, hj⟩ := List.mem_iff_getElem?.mp hend
  obtain ⟨k, hk⟩ := List.mem_iff_getElem?.mp hinterval
  exact ⟨i, j, k, index_ne_of_getElem?_ne hi hj (by decide), index_ne_of_getElem?_ne hi hk (by decide),
    index_ne_of_getElem?_ne hj hk (by decide), hi, hj, hk⟩

/-- The disabling sequence of an admitted CORE is not empty (log 25). -/
theorem scrollSeq_false_ne_nil {p : Params} (hs : p.scrollOk = true) : p.scrollSeq false ≠ [] := by
  simp only [Params.scrollOk, Bool.and_eq_true] at hs
  obtain ⟨-, hoff⟩ := hs
  simpa [Params.scrollSeq] using hoff

/-- Settles O35: the group order gives the two last groups, the well-formedness of the tables the marked elements, and
each of them stands for its byte. -/
theorem sequencesHoldTheirFixedParts : Obligations.SequencesHoldTheirFixedParts := by
  intro p hp
  obtain ⟨hg, ht, hs, -⟩ := wf_parts hp
  simp only [InitTable.wf, Bool.and_eq_true, List.contains_iff_mem] at ht
  obtain ⟨hmux, hcom⟩ := ht
  obtain ⟨muxArgs, hmuxBytes, hmuxMem⟩ := initGroupBytes_arg p hmux
  obtain ⟨i, j, k, hij, hik, hjk, hi, hj, hk⟩ := scrollOn_constants hs
  exact ⟨initSeq_eq_config_append p, rfl, rfl,
    ⟨muxArgs, hmuxBytes, _, hmuxMem, initByte_muxRatio_toNat hg⟩, rfl, initGroupBytes_arg p hcom,
    ⟨i, j, k, hij, hik, hjk, hi, scrollSeq_true_getElem? hi, hj, scrollSeq_true_getElem? hj, hk,
      scrollSeq_true_getElem? hk⟩,
    scrollSeq_false_ne_nil hs⟩

end Sys2Proof.Machine
end

section
/-! The invariant of the machine: at reset, under inputs, and over every step (10_state.md R24, R26, R28, R41). -/

namespace Sys2Proof.Machine

/-! ### States with no transaction pending -/

/-- A transaction as the history holds it once it has been answered (R98, R99, R111, R124). -/
def AnsweredFrame (p : Params) (e : BusEntry) : Prop := e.addr = p.devAddr ∧ FrameOk e.bytes ∧ e.answer ≠ .pending

/-- What `Inv` says in every phase but `WAITBUS` of the constants, the framebuffer and the history; it also holds in the
middle of an operation, between two transactions. -/
structure Settled (s : State) : Prop where
  params : s.params.wf = true
  memory : Memory.wf s.params.fbLen s.fb = true
  log : ∀ e ∈ s.busLog, AnsweredFrame s.params e

/-- More answered transactions keep a state settled. -/
theorem Settled.extend {s t : State} {new : List BusEntry} (h : Settled s) (hp : t.params = s.params)
    (hm : Memory.wf s.params.fbLen t.fb = true) (hl : t.busLog = s.busLog ++ new)
    (hnew : ∀ e ∈ new, AnsweredFrame s.params e) : Settled t where
  params := by rw [hp]; exact h.params
  memory := by rw [hp]; exact hm
  log := by
    rw [hp, hl]
    intro e he
    exact (List.mem_append.1 he).elim (h.log e) (hnew e)

/-- A settled state that is idle and healthy, or halted with a code of R221 in its latch, meets the invariant. -/
theorem Settled.inv {s : State} (h : Settled s)
    (hend : (s.phase = .idle ∧ s.faulted = false) ∨
      (s.phase = .halt ∧ s.faulted = true ∧ ∃ c, s.fcode = faultByte c)) : Inv s := by
  have hphase : ¬ IsWaiting s := by
    rintro ⟨job, k, hw⟩
    rcases hend with ⟨hp, -⟩ | ⟨hp, -⟩ <;> simp [hp] at hw
  exact {
    params := h.params
    memory := h.memory
    halted := by rcases hend with ⟨hp, hf⟩ | ⟨hp, hf, -⟩ <;> simp [hp, hf]
    latch := fun hf => hend.elim (fun hi => absurd (hi.2.symm.trans hf) (by decide)) (fun hh => hh.2.2)
    between := by rcases hend with ⟨hp, -⟩ | ⟨hp, -⟩ <;> simp [hp]
    frames := fun e he => ⟨(h.log e he).1, (h.log e he).2.1⟩
    pending := fun n e he => ⟨fun hp => absurd hp (h.log e (List.mem_of_getElem? he)).2.2, fun hw => absurd hw.2 hphase⟩
    waiting := fun job k hw => absurd ⟨job, k, hw⟩ hphase }

/-- While CORE is not in `HALT` it has not faulted (R26). -/
theorem Inv.faulted_eq_false {s : State} (h : Inv s) (hp : s.phase ≠ .halt) : s.faulted = false := by
  simpa using fun hf => hp (h.halted.2 hf)

/-- Where nothing is pending the invariant settles the state (R28, R110). -/
theorem Inv.settled {s : State} (h : Inv s) (hw : ¬ IsWaiting s) : Settled s where
  params := h.params
  memory := h.memory
  log := fun e he => by
    obtain ⟨n, hn⟩ := List.mem_iff_getElem?.1 he
    exact ⟨(h.frames e he).1, (h.frames e he).2, fun hp => hw ((h.pending n e hn).1 hp).2⟩

/-- Every transaction but the last has been answered (R62). -/
theorem Inv.answered_before_last {s : State} {before : List BusEntry} {last : BusEntry} (h : Inv s)
    (hl : s.busLog = before ++ [last]) : ∀ e ∈ before, AnsweredFrame s.params e := by
  intro e he
  have hmem : e ∈ s.busLog := by rw [hl]; exact List.mem_append_left _ he
  obtain ⟨n, hn⟩ := List.mem_iff_getElem?.1 he
  have hlt : n < before.length := (List.getElem?_eq_some_iff.1 hn).1
  have hn' : s.busLog[n]? = some e := by rw [hl, List.getElem?_append_left hlt, hn]
  refine ⟨(h.frames e hmem).1, (h.frames e hmem).2, fun hp => ?_⟩
  have hlast := ((h.pending n e hn').1 hp).1
  rw [hl, List.length_append, List.length_singleton] at hlast
  omega

/-! ### The ways an operation ends -/

/-- A completed operation leaves the invariant (R100). -/
theorem Settled.inv_of_completed {s t : State} {data : List Byte} (h : Settled s) (hf : s.faulted = false)
    (ht : CompletedWith data s t) (hm : Memory.wf s.params.fbLen t.fb = true) : Inv t := by
  rw [CompletedWith] at ht
  have hs : Settled t := h.extend (new := []) (by rw [ht]) hm (by rw [ht]; simp) (by simp)
  exact hs.inv (.inl ⟨by rw [ht], by rw [ht]; exact hf⟩)

/-- A trapped operation leaves the invariant (R226). -/
theorem Settled.inv_of_trapped {s t : State} {c : FaultCode} {info : FaultInfo} (h : Settled s)
    (ht : TrappedWith (faultByte c) info s t) (hm : Memory.wf s.params.fbLen t.fb = true) : Inv t := by
  rw [TrappedWith] at ht
  have hs : Settled t := h.extend (new := []) (by rw [ht]) hm (by rw [ht]; simp) (by simp)
  exact hs.inv (.inr ⟨by rw [ht], by rw [ht], c, by rw [ht]⟩)

/-- A bus operation that has issued its transaction `k` and waits leaves the invariant (R110). -/
theorem Settled.inv_of_issue {s : State} {job : BusJob} {k : Nat} {frames : List (List Byte)} {frame : List Byte}
    {old : List BusEntry} (h : Settled s) (hf : s.faulted = false) (hj : JobReady job s)
    (hframes : jobFrames job s = .ok frames) (hk : frames[k]? = some frame)
    (hlog : s.busLog = old ++ (frames.take k).map (okEntry s.params)) : Inv (issue job k frame s) where
  params := h.params
  memory := h.memory
  halted := by simp [hf]
  latch := by simp [hf]
  between := by simp
  frames := by
    intro e he
    rcases List.mem_append.1 he with he | he
    · exact ⟨(h.log e he).1, (h.log e he).2.1⟩
    · rw [List.mem_singleton.1 he]
      exact ⟨rfl, jobFrames_ok hj hframes frame (List.mem_of_getElem? hk)⟩
  pending := by
    intro n e he
    have hwait : IsWaiting (issue job k frame s) := ⟨job, k, rfl⟩
    simp only [issue_busLog, List.length_append, List.length_singleton, hwait, and_true] at he ⊢
    rcases Nat.lt_trichotomy n s.busLog.length with hn | hn | hn
    · rw [List.getElem?_append_left hn] at he
      exact iff_of_false (h.log e (List.mem_of_getElem? he)).2.2 (by omega)
    · subst hn
      rw [List.getElem?_concat_length] at he
      cases he
      exact iff_of_true rfl rfl
    · rw [List.getElem?_eq_none (by simpa using hn)] at he
      cases he
  waiting := by
    rintro job' k' hw
    cases hw
    refine ⟨frames, frame, old, ?_, hk, ?_, hj⟩
    · exact (jobFrames_congr job rfl rfl rfl).trans hframes
    · rw [issue_busLog, hlog, issue_params]

/-- Frames of a bus operation that were answered are answered frames of the history. -/
theorem okEntries_answered (p : Params) {frames : List (List Byte)} (h : ∀ f ∈ frames, FrameOk f) :
    ∀ e ∈ frames.map (okEntry p), AnsweredFrame p e := by
  intro e he
  obtain ⟨f, hf, rfl⟩ := List.mem_map.1 he
  exact ⟨rfl, h f hf, by simp [okEntry]⟩

/-- A bus operation's run from transaction `k` on, after `k` transactions answered `ok`, leaves the invariant. -/
theorem Settled.inv_of_sendFrom {s : State} {job : BusJob} {k : Nat} {frames : List (List Byte)}
    {old : List BusEntry} (h : Settled s) (hf : s.faulted = false) (hj : JobReady job s)
    (hframes : jobFrames job s = .ok frames)
    (hlog : s.busLog = old ++ (frames.take k).map (okEntry s.params)) :
    Inv (sendFrom job (frames.drop k) k s) := by
  have hok : ∀ f ∈ frames.drop k, FrameOk f := fun f hmem => jobFrames_ok hj hframes f (List.mem_of_mem_drop hmem)
  obtain ⟨more, -, hsend⟩ | ⟨j, more, frame, -, -, hframe, hsend⟩ | ⟨j, frame, -, hans, hframe, hsend⟩ :=
    sendFrom_cases job (frames.drop k) k s
  · rw [hsend, finishOk_eq]
    exact Settled.inv (h.extend rfl h.memory rfl (okEntries_answered _ hok)) (.inl ⟨rfl, hf⟩)
  · rw [hsend, finishFail_eq]
    refine Settled.inv (h.extend rfl h.memory (List.append_assoc ..) fun e he => ?_) (.inl ⟨rfl, hf⟩)
    rcases List.mem_append.1 he with he | he
    · exact okEntries_answered _ (fun f hmem => hok f (List.mem_of_mem_take hmem)) e he
    · rw [List.mem_singleton.1 he]
      exact ⟨rfl, hok frame (List.mem_of_getElem? hframe), by simp⟩
  · rw [hsend]
    let u : State := { s with
      busLog := s.busLog ++ ((frames.drop k).take j).map (okEntry s.params)
      answers := [] }
    have hu : Settled u := h.extend rfl h.memory rfl
      (okEntries_answered _ fun f hmem => hok f (List.mem_of_mem_take hmem))
    refine hu.inv_of_issue (frames := frames) (k := k + j) (old := old) hf hj
      ((jobFrames_congr job rfl rfl rfl).trans hframes) (by rwa [List.getElem?_drop] at hframe) ?_
    show s.busLog ++ _ = _
    rw [hlog, List.take_add, List.map_append, List.append_assoc]

/-! ### Every step -/

/-- A reset of any state with admitted constants leaves the invariant (R45, R250). -/
theorem inv_resetEvent {s : State} (hp : s.params.wf = true) : Inv (resetEvent s) := by
  have hs : Settled (resetEvent s) := ⟨hp, rfl, by simp⟩
  exact hs.inv (.inl ⟨rfl, rfl⟩)

/-- An operation run from a settled, healthy state leaves the invariant. -/
theorem Settled.inv_of_exec {i : Instr} {s t : State} (h : Settled s) (hf : s.faulted = false)
    (hexec : exec i s = .next t) : Inv t := by
  obtain ⟨-, ⟨data, ht⟩, hm⟩ | ⟨⟨c, info, ht⟩, -, hm⟩ | ⟨job, frames, -, hj, hframes, rfl⟩ := exec_cases hexec
  · exact h.inv_of_completed hf ht (hm h.memory)
  · exact h.inv_of_trapped ht (hm h.memory)
  · exact h.inv_of_sendFrom (k := 0) (old := s.busLog) hf hj hframes (by simp)

/-- A waiting operation that goes on leaves the invariant. -/
theorem Inv.inv_of_resumeJob {s t : State} {job : BusJob} {k : Nat} {a : BusAnswer} (h : Inv s)
    (hp : s.phase = .waitBus job k) (hr : resumeJob job k a s = .ok t) : Inv t := by
  obtain ⟨frames, frame, old, hframes, hk, hlog, hj⟩ := h.waiting job k hp
  have hf : s.faulted = false := h.faulted_eq_false (by simp [hp])
  have htaken : (takeAnswer a s).busLog =
      old ++ (frames.take k).map (okEntry s.params) ++ [⟨s.params.devAddr, frame, a.status⟩] := by
    rw [takeAnswer_busLog, hlog, setLastAnswer_append]
  have hframe : FrameOk frame := jobFrames_ok hj hframes frame (List.mem_of_getElem? hk)
  have hs : Settled (takeAnswer a s) := by
    refine ⟨h.params, h.memory, fun e he => ?_⟩
    rw [htaken] at he
    rcases List.mem_append.1 he with he | he
    · exact h.answered_before_last hlog e he
    · rw [List.mem_singleton.1 he]
      exact ⟨rfl, hframe, by cases a <;> simp [BusAnswer.status]⟩
  cases a with
  | fail =>
    cases hr
    rw [finishFail_eq]
    exact Settled.inv (hs.extend (new := []) rfl hs.memory (by simp) (by simp)) (.inl ⟨rfl, hf⟩)
  | ok =>
    simp only [resumeJob, hframes, Except.ok.injEq] at hr
    subst hr
    refine hs.inv_of_sendFrom (old := old) hf hj ((jobFrames_congr job rfl rfl rfl).trans hframes) ?_
    rw [htaken, List.take_add_one, hk]
    simp [okEntry, BusAnswer.status]

/-- Settles O51: each way a step can go ends idle and healthy, halted with its code latched, or waiting in order. -/
theorem everyStepKeepsTheInvariant : Obligations.EveryStepKeepsTheInvariant := by
  intro s t h hstep
  have hidle : ∀ rest, s.phase = .idle →
      Settled (acceptPacket rest s) ∧ (acceptPacket rest s).faulted = false := by
    intro rest hp
    have hs : Settled s := h.settled (by rintro ⟨job, k, hw⟩; simp [hp] at hw)
    exact ⟨⟨hs.params, hs.memory, hs.log⟩, h.faulted_eq_false (by simp [hp])⟩
  obtain ⟨-, ⟨m, -, rfl⟩ | ⟨-, ⟨-, -, rfl⟩ | ⟨p, rest, i, hp, -, -, hexec⟩ | ⟨p, rest, r, hp, -, -, rfl⟩ |
    ⟨job, k, -, -, rfl⟩ | ⟨job, k, a, as, hp, -, hresume⟩ | ⟨-, rfl⟩⟩⟩ := step_cases hstep
  · obtain ⟨hstay, -⟩ | ⟨u, hu, -, hpar, -⟩ := resetTurn_cases m s
    · rwa [hstay]
    · rw [hu]
      exact inv_resetEvent (by rw [hpar]; exact h.params)
  · exact h
  · exact (hidle rest hp).1.inv_of_exec (hidle rest hp).2 hexec
  · exact (hidle rest hp).1.inv_of_trapped rfl h.memory
  · exact h
  · exact h.inv_of_resumeJob hp hresume
  · exact h

/-- Settles O52: no history, no byte written, idle and healthy. -/
theorem resetMeetsTheInvariant : Obligations.ResetMeetsTheInvariant := by
  have hreset : ∀ (p : Params) (epoch : Nat), p.wf = true → Inv (State.resetOf p epoch) := fun p epoch hp =>
    Settled.inv ⟨hp, rfl, by simp [State.resetOf]⟩ (.inl ⟨rfl, rfl⟩)
  exact ⟨hreset, hreset _ _ reference_wf⟩

/-- Settles O53: an input changes a port, of which the invariant says nothing. -/
theorem inputsKeepTheInvariant : Obligations.InputsKeepTheInvariant := by
  intro inp s h
  cases inp <;>
    exact ⟨h.params, h.memory, h.halted, h.latch, h.between, h.frames, h.pending, h.waiting⟩

end Sys2Proof.Machine
end

section
/-! One operation's run: the response it gives (10_state.md R41), and that a wait in it makes no difference (R26). -/

namespace Sys2Proof.Machine

/-- How a packet's operation ends: idle with one response more, halted with one trap response more, or waiting with none
(R41, R100). -/
def EndsPacket (s t : State) : Prop :=
  (t.phase = .idle ∧ ∃ r, t.respLog = s.respLog ++ [r]) ∨
    (t.phase = .halt ∧ ∃ c i0 i1 i2 i3, t.respLog = s.respLog ++ [[0xFF#8, c, i0, i1, i2, i3]]) ∨
    (IsWaiting t ∧ t.respLog = s.respLog)

/-- Completion leaves the command port and gives one response. -/
theorem CompletedWith.ends {data : List Byte} {s t : State} (h : CompletedWith data s t) :
    t.cmdPort = s.cmdPort ∧ EndsPacket s t := by
  rw [CompletedWith] at h
  exact ⟨by rw [h], .inl ⟨by rw [h], 0x00#8 :: data, by rw [h]⟩⟩

/-- A trap leaves the command port and gives one trap response. -/
theorem TrappedWith.ends {c : Byte} {info : FaultInfo} {s t : State} (h : TrappedWith c info s t) :
    t.cmdPort = s.cmdPort ∧ EndsPacket s t := by
  rw [TrappedWith] at h
  exact ⟨by rw [h], .inr (.inl ⟨by rw [h], c, info.i0, info.i1, info.i2, info.i3, by rw [h]⟩)⟩

/-- A bus operation leaves the command port. -/
theorem BusFrame.cmdPort {s t : State} (h : BusFrame s t) : t.cmdPort = s.cmdPort := by
  rw [h]

/-- An operation leaves the command port and ends in one of the ways of R41. -/
theorem exec_ends {i : Instr} {s t : State} (h : exec i s = .next t) : t.cmdPort = s.cmdPort ∧ EndsPacket s t := by
  obtain ⟨-, ⟨data, ht⟩, -⟩ | ⟨⟨c, info, ht⟩, -, -⟩ | ⟨job, frames, -, -, -, rfl⟩ := exec_cases h
  · exact ht.ends
  · exact ht.ends
  · obtain ⟨hframe, hend, -, -⟩ := sendFrom_ends job frames 0 s
    refine ⟨hframe.cmdPort, ?_⟩
    obtain hidle | ⟨j, hwait, hresp⟩ := hend
    · exact .inl hidle
    · exact .inr (.inr ⟨⟨job, _, hwait⟩, hresp⟩)

/-- Everything a resumed operation can be: it finishes with `FAIL`, or goes on after its transaction `k`. -/
theorem resumeJob_cases {job : BusJob} {k : Nat} {a : BusAnswer} {s t : State} (h : resumeJob job k a s = .ok t) :
    (a = .fail ∧ t = finishFail job (takeAnswer .fail s)) ∨
    ∃ frames, a = .ok ∧ jobFrames job s = .ok frames ∧
      t = sendFrom job (frames.drop (k + 1)) (k + 1) (takeAnswer .ok s) := by
  cases a with
  | fail => cases h; exact .inl ⟨rfl, rfl⟩
  | ok =>
    simp only [resumeJob] at h
    split at h
    · cases h
    · next frames hf => cases h; exact .inr ⟨frames, rfl, hf, rfl⟩

/-- A resumed operation leaves the command port and ends idle with one response more, or waits again, at a later
transaction, with none. -/
theorem resumeJob_ends {job : BusJob} {k : Nat} {a : BusAnswer} {s t : State} (h : resumeJob job k a s = .ok t) :
    t.cmdPort = s.cmdPort ∧
      ((t.phase = .idle ∧ ∃ r, t.respLog = s.respLog ++ [r]) ∨
        ∃ k', k ≤ k' ∧ t.phase = .waitBus job k' ∧ t.respLog = s.respLog) := by
  obtain ⟨-, rfl⟩ | ⟨frames, -, -, rfl⟩ := resumeJob_cases h
  · rw [finishFail_eq]
    exact ⟨rfl, .inl ⟨rfl, _, rfl⟩⟩
  · obtain ⟨hframe, hend, -, -⟩ := sendFrom_ends job (frames.drop (k + 1)) (k + 1) (takeAnswer .ok s)
    refine ⟨hframe.cmdPort, hend.imp id ?_⟩
    rintro ⟨j, hwait, hresp⟩
    exact ⟨k + 1 + j, by omega, hwait, hresp⟩

/-- Settles O6: the operation's own endings, and the resumed operation's. -/
theorem oneResponsePerPacketOrWaiting : Obligations.OneResponsePerPacketOrWaiting := by
  refine ⟨fun s t p rest hg hr hp hc hstep => ?_, fun s t job k hg hr hp hstep => ?_⟩
  · cases hd : decode p with
    | instr i =>
      rw [step_idle hg hr hp hc hd] at hstep
      exact exec_ends hstep
    | illegal r =>
      rw [step_illegal hg hr hp hc hd] at hstep
      cases hstep
      exact TrappedWith.ends (s := acceptPacket rest s) rfl
  · cases ha : s.answers with
    | nil =>
      rw [step_wait_empty hg hr hp ha] at hstep
      cases hstep
      exact ⟨rfl, .inr ⟨k, Nat.le_refl k, hp, rfl⟩⟩
    | cons a as =>
      rw [step_wait hg hr hp ha, outcome_eq_next] at hstep
      exact resumeJob_ends hstep

/-- Settles O5: the sequencer's turn for an idle CORE whose packet decodes. -/
theorem stepRunsTheDecodedOperation : Obligations.StepRunsTheDecodedOperation :=
  fun _ _ _ _ hg hr hp hc hd => step_idle hg hr hp hc hd

/-- CORE while transaction `j` of `job`, begun in `s`, is pending and the transport's next answers are `answers`
(R110). -/
def awaiting (job : BusJob) (frames : List (List Byte)) (j : Nat) (frame : List Byte) (answers : List BusAnswer)
    (s : State) : State :=
  { s with
    busLog := s.busLog ++ (frames.take j).map (okEntry s.params) ++ [⟨s.params.devAddr, frame, .pending⟩]
    answers := answers
    phase := .waitBus job j }

/-- An operation that waits is a bus operation that has made its checks, with the answers so far all `ok`. -/
theorem exec_waiting {i : Instr} {s t : State} (h : exec i s = .next t) (hw : IsWaiting t) :
    ∃ job frames j frame, i = jobInstr job ∧ JobReady job s ∧ jobFrames job s = .ok frames ∧
      frames[j]? = some frame ∧ s.answers = List.replicate j .ok ∧ t = awaiting job frames j frame [] s := by
  obtain ⟨job', k, hphase⟩ := hw
  obtain ⟨-, ⟨data, ht⟩, -⟩ | ⟨⟨c, info, ht⟩, -, -⟩ | ⟨job, frames, hi, hj, hframes, rfl⟩ := exec_cases h
  · rw [ht] at hphase
    cases hphase
  · rw [ht] at hphase
    cases hphase
  · obtain ⟨more, -, hsend⟩ | ⟨j, more, frame, -, -, -, hsend⟩ | ⟨j, frame, -, hans, hframe, hsend⟩ :=
      sendFrom_cases job frames 0 s
    · rw [hsend, finishOk_eq] at hphase
      cases hphase
    · rw [hsend, finishFail_eq] at hphase
      cases hphase
    · exact ⟨job, frames, j, frame, hi, hj, hframes, hframe, hans, by rw [hsend, Nat.zero_add, awaiting]⟩

/-- Taking the answer to the pending transaction records it in the history. -/
theorem takeAnswer_awaiting (a : BusAnswer) (job : BusJob) (frames : List (List Byte)) (j : Nat) (frame : List Byte)
    (as : List BusAnswer) (s : State) :
    takeAnswer a (awaiting job frames j frame (a :: as) s) =
      { s with
        busLog := s.busLog ++ (frames.take j).map (okEntry s.params) ++ [⟨s.params.devAddr, frame, a.status⟩]
        answers := as
        phase := .exec } := by
  simp only [takeAnswer, awaiting, setLastAnswer_append, List.tail_cons]

/-- A waiting operation that takes the late answers does what the run would have done had they followed the early ones:
a `fail` ends both, and after an `ok` both send the same frames from the same state. -/
theorem resumeJob_awaiting {job : BusJob} {frames : List (List Byte)} {j : Nat} {frame : List Byte} (a : BusAnswer)
    (as : List BusAnswer) {s : State} (hframes : jobFrames job s = .ok frames) (hframe : frames[j]? = some frame)
    (hans : s.answers = List.replicate j .ok ++ a :: as) :
    resumeJob job j a (awaiting job frames j frame (a :: as) s) = .ok (sendFrom job frames 0 s) := by
  have hsame : jobFrames job (awaiting job frames j frame (a :: as) s) = .ok frames :=
    (jobFrames_congr job rfl rfl rfl).trans hframes
  cases a with
  | fail => simp only [resumeJob, takeAnswer_awaiting, sendFrom_fail job frames 0 j s as frame hframe hans,
      BusAnswer.status]
  | ok => simp only [resumeJob, hsame, takeAnswer_awaiting, sendFrom_goOn job frames 0 j s as frame hframe hans,
      BusAnswer.status, Nat.zero_add]

/-- A ready bus operation whose frames are known sends them from the first on. -/
theorem exec_jobInstr_frames {job : BusJob} {s : State} {frames : List (List Byte)} (hj : JobReady job s)
    (hframes : jobFrames job s = .ok frames) : exec (jobInstr job) s = .next (sendFrom job frames 0 s) := by
  rw [exec_jobInstr hj, startJob, hframes]
  rfl

/-- Settles O12: an operation that waits is a bus operation, and its resumption is the rest of its one run. -/
theorem waitingThenAnsweredIsOneRun : Obligations.WaitingThenAnsweredIsOneRun := by
  intro i s t early late hg hr hlate hexec hw
  obtain ⟨job, frames, j, frame, rfl, hj, hframes, hframe, hearly, rfl⟩ := exec_waiting hexec hw
  obtain ⟨a, as, rfl⟩ := List.exists_cons_of_ne_nil hlate
  let u : State := { s with answers := early ++ a :: as }
  have hframes' : jobFrames job u = .ok frames := (jobFrames_congr job rfl rfl rfl).trans hframes
  have hans : u.answers = List.replicate j .ok ++ a :: as := congrArg (· ++ a :: as) hearly
  calc step (awaiting job frames j frame (a :: as) u)
      = outcome (resumeJob job j a (awaiting job frames j frame (a :: as) u)) := step_wait hg hr rfl rfl
    _ = .next (sendFrom job frames 0 u) := by rw [resumeJob_awaiting a as hframes' hframe hans, outcome]
    _ = exec (jobInstr job) u := (exec_jobInstr_frames (s := u) hj hframes').symm

end Sys2Proof.Machine
end

section
/-! Flags and constants: what an operation writes of them (10_state.md R29, R32) and what a reset leaves (R45). -/

namespace Sys2Proof.Machine

/-- Settles O47: only a bus operation's end writes `INITED` or `SCROLLING`, each by its own table; only a trap ends in
`HALT`. -/
theorem flagsChangeOnlyAsTheTableSays : Obligations.FlagsChangeOnlyAsTheTableSays := by
  intro i s t hexec
  obtain ⟨-, ⟨data, ht⟩, -⟩ | ⟨⟨c, info, ht⟩, -, -⟩ | ⟨job, frames, rfl, -, -, rfl⟩ := exec_cases hexec
  · rw [ht]
    simp
  · rw [ht]
    simp
  · obtain ⟨hframe, hend, hinited, hscrolling⟩ := sendFrom_ends job frames 0 s
    refine ⟨fun hi => hinited ?_, fun hi hs => ?_, ?_⟩
    · rintro rfl
      exact hi rfl
    · cases job with
      | init => exact absurd rfl hi
      | scroll enabled => exact absurd rfl (hs enabled)
      | render a => exact hscrolling a rfl
    · have hfaulted : (sendFrom job frames 0 s).faulted = s.faulted := by rw [hframe]
      have hphase : (sendFrom job frames 0 s).phase ≠ .halt := by
        obtain ⟨hidle, -⟩ | ⟨j, hwait, -⟩ := hend
        · simp [hidle]
        · simp [hwait]
      simp [hfaulted, hphase]

/-- Settles O11: each value is the one `State.resetOf` writes, and an empty `FB` reads as the draw. -/
theorem resetValues : Obligations.ResetValues :=
  ⟨rfl, rfl, rfl, rfl, rfl, fun _ => rfl, rfl, rfl, rfl, rfl⟩

/-- No operation changes the constants (R29). -/
theorem exec_params {i : Instr} {s t : State} (h : exec i s = .next t) : t.params = s.params := by
  obtain ⟨-, ⟨data, ht⟩, -⟩ | ⟨⟨c, info, ht⟩, -, -⟩ | ⟨job, frames, -, -, -, rfl⟩ := exec_cases h
  · rw [ht]
  · rw [ht]
  · rw [(sendFrom_ends job frames 0 s).1]

/-- A resumed operation does not change the constants (R29). -/
theorem resumeJob_params {job : BusJob} {k : Nat} {a : BusAnswer} {s t : State} (h : resumeJob job k a s = .ok t) :
    t.params = s.params := by
  obtain ⟨-, rfl⟩ | ⟨frames, -, -, rfl⟩ := resumeJob_cases h
  · rw [finishFail_eq]
    rfl
  · rw [(sendFrom_ends job _ (k + 1) (takeAnswer .ok s)).1]
    rfl

/-- Settles O48: by what a step can be, and by what an operation can do. -/
theorem constantsNeverChange : Obligations.ConstantsNeverChange := by
  refine ⟨fun s t hstep => ?_, fun i s t => exec_params, fun inp s => by cases inp <;> rfl⟩
  obtain ⟨-, ⟨m, -, rfl⟩ | ⟨-, ⟨-, -, rfl⟩ | ⟨p, rest, i, -, -, -, hexec⟩ | ⟨p, rest, r, -, -, -, rfl⟩ |
    ⟨job, k, -, -, rfl⟩ | ⟨job, k, a, as, -, -, hresume⟩ | ⟨-, rfl⟩⟩⟩ := step_cases hstep
  · obtain ⟨hstay, -⟩ | ⟨u, hu, -, hp, -⟩ := resetTurn_cases m s
    · rw [hstay]
    · rw [hu]
      exact hp
  · rfl
  · exact (exec_params hexec).trans (acceptPacket_params rest s)
  · rfl
  · rfl
  · exact resumeJob_params hresume
  · rfl

end Sys2Proof.Machine
end

section
/-! Every operation, and every step from a state of the invariant, has a next state (20_memory.md R53; 10_state.md
R41). -/

namespace Sys2Proof.Machine

/-- A run of points answers on a geometry of R7. -/
theorem plotPoints_total (on : Bool) (ps : List (Int × Int)) (s : State) (hg : s.params.geometryOk = true) :
    ∃ t, plotPoints on ps s = .ok t := by
  induction ps generalizing s with
  | nil => exact ⟨_, rfl⟩
  | cons q rest ih =>
    obtain ⟨x, y⟩ := q
    by_cases hb : InBounds s.params x y
    · obtain ⟨u, hu, hus, -⟩ := writePixel_spec on hg hb
      obtain ⟨t, ht⟩ := ih u (by rw [hus]; exact hg)
      exact ⟨t, by simp only [plotPoints, if_pos hb, hu, ht]⟩
    · exact ⟨raiseFault .outOfBounds (pointInfo x y) s, by simp only [plotPoints, if_neg hb]⟩

/-- The loop of `WSTR` answers on a geometry of R7, from an origin whose page is on the panel or above it (R184). -/
theorem drawText_total {x y : Int} (n : Nat) (text : List Byte) (j : Nat) (s : State)
    (hg : s.params.geometryOk = true) (hpage : ¬ y > (s.params.height : Int) - 8) :
    ∃ t, drawText x y n text j s = .ok t := by
  induction text generalizing j s with
  | nil => exact ⟨_, rfl⟩
  | cons ch rest ih =>
    rw [drawText]
    split
    · exact ⟨_, rfl⟩
    · split
      · exact ⟨_, rfl⟩
      · next hcol =>
        obtain ⟨u, hu, hus, -⟩ := blitGlyph_spec (glyphOf ch) hg (not_or.2 ⟨hcol, hpage⟩)
        obtain ⟨t, ht⟩ := ih (j + 1) u (by rw [hus]; exact hg) (by rw [hus]; exact hpage)
        exact ⟨t, by rw [hu]; exact ht⟩

/-- A bus operation that has made its checks has its frames. -/
theorem jobFrames_total {job : BusJob} {s : State} (hj : JobReady job s) : ∃ frames, jobFrames job s = .ok frames := by
  cases job with
  | init => exact ⟨_, rfl⟩
  | scroll enabled => exact ⟨_, rfl⟩
  | render a => exact ⟨_, jobFrames_render (hj.2 a rfl)⟩

/-- A bus operation that has made its checks runs. -/
theorem exec_jobInstr_total {job : BusJob} {s : State} (hj : JobReady job s) :
    ∃ t, exec (jobInstr job) s = .next t :=
  (jobFrames_total hj).elim fun _ hframes => ⟨_, exec_jobInstr_frames hj hframes⟩

/-- Every operation has a next state on a geometry of R7: no fault and no refusal (R53). -/
theorem exec_total (i : Instr) (s : State) (hg : s.params.geometryOk = true) : ∃ t, exec i s = .next t := by
  cases i with
  | init => exact exec_jobInstr_total (job := .init) ⟨fun h => absurd rfl h, fun _ h => nomatch h⟩
  | setpix x y on =>
    simp only [exec, execSetpix]
    split
    · next hb =>
      obtain ⟨t, ht, -⟩ := writePixel_spec on hg hb
      exact ⟨_, by rw [ht]; rfl⟩
    · exact ⟨_, rfl⟩
  | line x0 y0 x1 y1 on =>
    obtain ⟨t, ht⟩ := plotPoints_total on (linePoints (coord x0) (coord y0) (coord x1) (coord y1)) s hg
    exact ⟨t, outcome_eq_next.2 ht⟩
  | wchar x y ch =>
    simp only [exec, execWchar]
    split
    · exact ⟨_, rfl⟩
    · next hon =>
      split
      · exact ⟨_, rfl⟩
      · obtain ⟨t, ht, -⟩ := blitGlyph_spec (glyphOf ch) hg hon
        exact ⟨_, by rw [ht]; rfl⟩
  | wstr x y text =>
    simp only [exec, execWstr]
    split
    · exact ⟨_, rfl⟩
    · next hon =>
      obtain ⟨t, ht⟩ := drawText_total (x := coord x) text.length text 0 s hg (not_or.1 hon).2
      exact ⟨t, outcome_eq_next.2 ht⟩
  | render sc ec sp ep =>
    by_cases hi : s.inited = false
    · exact ⟨_, by simp only [exec, execRender, if_pos hi]; rfl⟩
    · by_cases ha : AreaOk s.params ⟨sc, ec, sp, ep⟩
      · exact exec_jobInstr_total (job := .render ⟨sc, ec, sp, ep⟩)
          ⟨fun _ => by simpa using hi, fun a h => by cases h; exact ha⟩
      · exact ⟨_, by simp only [exec, execRender, if_neg hi, if_neg ha]; rfl⟩
  | scroll enabled =>
    by_cases hi : s.inited = false
    · exact ⟨_, by simp only [exec, execScroll, if_pos hi]; rfl⟩
    · exact exec_jobInstr_total (job := .scroll enabled) ⟨fun _ => by simpa using hi, fun _ h => nomatch h⟩
  | fbwr idx data =>
    simp only [exec, execFbwr]
    split
    · exact ⟨_, rfl⟩
    · next hlt => exact ⟨_, by rw [fbWrite_eq data (Nat.lt_of_not_le hlt)]; rfl⟩
  | fbrd idx =>
    simp only [exec, execFbrd]
    split
    · exact ⟨_, rfl⟩
    · next hlt => exact ⟨_, by rw [fbRead_eq (Nat.lt_of_not_le hlt)]⟩
  | fbfill data => exact ⟨_, rfl⟩
  | geom => exact ⟨_, rfl⟩

/-- Settles O54: no invariant state is in `EXEC`, an operation has a next state on a geometry of R7, and a waiting one
has its frames. -/
theorem invariantStatesAlwaysStep : Obligations.InvariantStatesAlwaysStep := by
  intro s h
  have hg : s.params.geometryOk = true := (wf_parts h.params).1
  cases hr : s.resetPin with
  | some m => exact ⟨_, step_reset hg hr⟩
  | none =>
    cases hp : s.phase with
    | idle =>
      cases hc : s.cmdPort with
      | nil => exact ⟨_, step_idle_empty hg hr hp hc⟩
      | cons p rest =>
        cases hd : decode p with
        | instr i =>
          rw [step_idle hg hr hp hc hd]
          exact exec_total i _ hg
        | illegal r => exact ⟨_, step_illegal hg hr hp hc hd⟩
    | exec => exact absurd hp h.between
    | waitBus job k =>
      cases ha : s.answers with
      | nil => exact ⟨_, step_wait_empty hg hr hp ha⟩
      | cons a as =>
        obtain ⟨frames, frame, old, hframes, -⟩ := h.waiting job k hp
        rw [step_wait hg hr hp ha]
        cases a with
        | fail => exact ⟨_, rfl⟩
        | ok => exact ⟨_, by rw [resumeJob, hframes]; rfl⟩
    | halt => exact ⟨_, step_halt hg hr hp⟩

end Sys2Proof.Machine
end

section
/-! Noninterference (10_state.md R24, R25, R28): two states that agree on everything CORE looks at step alike. -/

namespace Sys2Proof.Machine

/-! ### Relations that no operation can see through -/

/-- The two states agree on everything an operation or the sequencer looks at. -/
structure SameReads (s s' : State) : Prop where
  params : s'.params = s.params
  fb : s'.fb = s.fb
  inited : s'.inited = s.inited
  phase : s'.phase = s.phase
  cmdPort : s'.cmdPort = s.cmdPort
  answers : s'.answers = s.answers
  resetPin : s'.resetPin = s.resetPin
  epoch : s'.epoch = s.epoch

/-- Related states differ only in what CORE does not look at, and each named update of the state keeps them related.
An answer is asked for only where a transaction is in the history, as it is when one is pending. -/
structure Unseen (R : State → State → Prop) : Prop where
  reads {s s' : State} : R s s' → SameReads s s'
  setFb {s s' : State} (m : Memory) : R s s' → R { s with fb := m } { s' with fb := m }
  respond {s s' : State} (r : List Byte) : R s s' → R (respond r s) (respond r s')
  raiseFault {s s' : State} (c : FaultCode) (info : FaultInfo) :
    R s s' → R (raiseFault c info s) (raiseFault c info s')
  okFlags {s s' : State} (job : BusJob) : R s s' → R (okFlags job s) (okFlags job s')
  failFlags {s s' : State} (job : BusJob) : R s s' → R (failFlags job s) (failFlags job s')
  acceptPacket {s s' : State} (rest : List (List Byte)) : R s s' → R (acceptPacket rest s) (acceptPacket rest s')
  issue {s s' : State} (job : BusJob) (k : Nat) (bytes : List Byte) :
    R s s' → R (issue job k bytes s) (issue job k bytes s')
  takeAnswer {s s' : State} (a : BusAnswer) : s.busLog ≠ [] → R s s' → R (takeAnswer a s) (takeAnswer a s')

/-- Two results of a meaning are alike: related states, or the same fault. -/
inductive SameResult (R : State → State → Prop) : Except Fault State → Except Fault State → Prop
  | ok {t t' : State} (h : R t t') : SameResult R (.ok t) (.ok t')
  | error (f : Fault) : SameResult R (.error f) (.error f)

/-- Two outcomes of a step are alike: related next states, the same fault, or the same refusal. -/
inductive SameOutcome (R : State → State → Prop) :
    Host.Outcome State Fault Refusal → Host.Outcome State Fault Refusal → Prop
  | next {t t' : State} (h : R t t') : SameOutcome R (.next t) (.next t')
  | fault (f : Fault) : SameOutcome R (.fault f) (.fault f)
  | refused (r : Refusal) : SameOutcome R (.refused r) (.refused r)

/-- Alike results have alike outcomes. -/
theorem SameResult.outcome {R : State → State → Prop} {r r' : Except Fault State} (h : SameResult R r r') :
    SameOutcome R (outcome r) (outcome r') := by
  cases h with
  | ok h => exact .next h
  | error f => exact .fault f

/-- An outcome like a next state is a related next state. -/
theorem SameOutcome.exists_next {R : State → State → Prop} {t : State} {o : Host.Outcome State Fault Refusal}
    (h : SameOutcome R (.next t) o) : ∃ t', o = .next t' ∧ R t t' := by
  cases h with
  | next h => exact ⟨_, rfl, h⟩

theorem SameOutcome.eq_fault {R : State → State → Prop} {f : Fault} {o : Host.Outcome State Fault Refusal}
    (h : SameOutcome R (.fault f) o) : o = .fault f := by
  cases h
  rfl

theorem SameOutcome.eq_refused {R : State → State → Prop} {r : Refusal} {o : Host.Outcome State Fault Refusal}
    (h : SameOutcome R (.refused r) o) : o = .refused r := by
  cases h
  rfl

/-! ### The accessors and operations, in the model's order, from related states -/

section
variable {R : State → State → Prop} (hR : Unseen R)
include hR

theorem Unseen.fbWrite {s s' : State} (i : Nat) (v : Byte) (h : R s s') :
    SameResult R (fbWrite i v s) (fbWrite i v s') := by
  have hs := hR.reads h
  by_cases hi : i < s.params.fbLen
  · rw [fbWrite_eq v hi, fbWrite_eq v (show i < s'.params.fbLen by rwa [hs.params]), hs.fb]
    exact .ok (hR.setFb _ h)
  · rw [Machine.fbWrite, if_neg hi, Machine.fbWrite, if_neg (show ¬ i < s'.params.fbLen by rwa [hs.params])]
    exact .error _

theorem Unseen.memWrite {s s' : State} (a : Nat) (l : List Byte) (h : R s s') :
    SameResult R (memWrite a l s) (memWrite a l s') := by
  induction l generalizing a s s' with
  | nil => exact .ok h
  | cons v l ih =>
    have hw := hR.fbWrite a v h
    simp only [Machine.memWrite]
    generalize Machine.fbWrite a v s = r, Machine.fbWrite a v s' = r' at hw ⊢
    cases hw with
    | ok h => exact ih (a + 1) h
    | error f => exact .error f

theorem Unseen.fbByte {s s' : State} (i : Nat) (h : R s s') : fbByte s' i = fbByte s i :=
  fbByte_congr (hR.reads h).fb (hR.reads h).epoch i

theorem Unseen.fbRead {s s' : State} (i : Nat) (h : R s s') : fbRead i s' = fbRead i s := by
  simp only [Machine.fbRead, (hR.reads h).params, hR.fbByte i h]

theorem Unseen.writePixel {s s' : State} (x y : Int) (on : Bool) (h : R s s') :
    SameResult R (writePixel x y on s) (writePixel x y on s') := by
  simp only [Machine.writePixel, (hR.reads h).params, hR.fbRead _ h]
  cases Machine.fbRead (pixelIndex s.params x y) s with
  | error f => exact .error f
  | ok b => exact hR.fbWrite _ _ h

theorem Unseen.blitGlyph {s s' : State} (x y : Int) (g : Nat) (h : R s s') :
    SameResult R (blitGlyph x y g s) (blitGlyph x y g s') := by
  simp only [Machine.blitGlyph, (hR.reads h).params]
  exact hR.memWrite _ _ h

theorem Unseen.respondOk {r r' : Except Fault State} (h : SameResult R r r') :
    SameResult R (respondOk r) (respondOk r') := by
  cases h with
  | ok h => exact .ok (hR.respond _ h)
  | error f => exact .error f

theorem Unseen.plotPoints {s s' : State} (on : Bool) (ps : List (Int × Int)) (h : R s s') :
    SameResult R (plotPoints on ps s) (plotPoints on ps s') := by
  induction ps generalizing s s' with
  | nil => exact .ok (hR.respond _ h)
  | cons q rest ih =>
    obtain ⟨x, y⟩ := q
    simp only [Machine.plotPoints, (hR.reads h).params]
    split
    · have hw := hR.writePixel x y on h
      generalize Machine.writePixel x y on s = r, Machine.writePixel x y on s' = r' at hw ⊢
      cases hw with
      | ok h => exact ih h
      | error f => exact .error f
    · exact .ok (hR.raiseFault _ _ h)

theorem Unseen.drawText {s s' : State} (x y : Int) (n : Nat) (text : List Byte) (j : Nat) (h : R s s') :
    SameResult R (drawText x y n text j s) (drawText x y n text j s') := by
  induction text generalizing j s s' with
  | nil => exact .ok (hR.respond _ h)
  | cons ch rest ih =>
    simp only [Machine.drawText, (hR.reads h).params]
    split
    · exact .ok (hR.raiseFault _ _ h)
    · split
      · exact .ok (hR.raiseFault _ _ h)
      · have hw := hR.blitGlyph (x + 8 * (j : Int)) y (glyphOf ch) h
        generalize Machine.blitGlyph (x + 8 * (j : Int)) y (glyphOf ch) s = r,
          Machine.blitGlyph (x + 8 * (j : Int)) y (glyphOf ch) s' = r' at hw ⊢
        cases hw with
        | ok h => exact ih (j + 1) h
        | error f => exact .error f

theorem Unseen.sendFrom {s s' : State} (job : BusJob) (frames : List (List Byte)) (k : Nat) (h : R s s') :
    R (sendFrom job frames k s) (sendFrom job frames k s') := by
  induction frames generalizing k s s' with
  | nil => exact hR.respond _ (hR.okFlags job h)
  | cons f fs ih =>
    have hissue := hR.issue job k f h
    have hanswer : ∀ a, R (Machine.takeAnswer a (Machine.issue job k f s))
        (Machine.takeAnswer a (Machine.issue job k f s')) := fun a => hR.takeAnswer a (by simp) hissue
    simp only [Machine.sendFrom, (hR.reads h).answers]
    split
    · exact hissue
    · exact ih (k + 1) (hanswer .ok)
    · exact hR.respond _ (hR.failFlags job (hanswer .fail))

theorem Unseen.jobFrames {s s' : State} (job : BusJob) (h : R s s') : jobFrames job s' = jobFrames job s :=
  jobFrames_congr job (hR.reads h).params (hR.reads h).fb (hR.reads h).epoch

theorem Unseen.startJob {s s' : State} (job : BusJob) (h : R s s') :
    SameResult R (startJob job s) (startJob job s') := by
  simp only [Machine.startJob, hR.jobFrames job h]
  cases Machine.jobFrames job s with
  | error f => exact .error f
  | ok frames => exact .ok (hR.sendFrom job frames 0 h)

/-- Every operation runs alike from related states. -/
theorem Unseen.exec {s s' : State} (i : Instr) (h : R s s') : SameOutcome R (exec i s) (exec i s') := by
  have hs := hR.reads h
  cases i with
  | init => exact (hR.startJob .init h).outcome
  | setpix x y on =>
    simp only [Machine.exec, execSetpix, hs.params]
    split
    · exact (hR.respondOk (hR.writePixel _ _ on h)).outcome
    · exact .next (hR.raiseFault _ _ h)
  | line x0 y0 x1 y1 on => exact (hR.plotPoints on _ h).outcome
  | wchar x y ch =>
    simp only [Machine.exec, execWchar, hs.params]
    split
    · exact .next (hR.respond _ h)
    · split
      · exact .next (hR.raiseFault _ _ h)
      · exact (hR.respondOk (hR.blitGlyph _ _ _ h)).outcome
  | wstr x y text =>
    simp only [Machine.exec, execWstr, hs.params]
    split
    · exact .next (hR.respond _ h)
    · exact (hR.drawText _ _ _ text 0 h).outcome
  | render sc ec sp ep =>
    simp only [Machine.exec, execRender, hs.params, hs.inited]
    split
    · exact .next (hR.raiseFault _ _ h)
    · split
      · exact (hR.startJob _ h).outcome
      · exact .next (hR.raiseFault _ _ h)
  | scroll enabled =>
    simp only [Machine.exec, execScroll, hs.inited]
    split
    · exact .next (hR.raiseFault _ _ h)
    · exact (hR.startJob _ h).outcome
  | fbwr idx data =>
    simp only [Machine.exec, execFbwr, hs.params]
    split
    · exact .next (hR.raiseFault _ _ h)
    · exact (hR.respondOk (hR.fbWrite _ data h)).outcome
  | fbrd idx =>
    simp only [Machine.exec, execFbrd, hs.params, hR.fbRead _ h]
    split
    · exact .next (hR.raiseFault _ _ h)
    · cases Machine.fbRead idx.toNat s with
      | error f => exact .fault f
      | ok v => exact .next (hR.respond _ h)
  | fbfill data =>
    have hfill : fbFill data s' = { s' with fb := (fbFill data s).fb } := by rw [fbFill, fbFill, hs.params]
    refine .next (hR.respond _ ?_)
    rw [hfill]
    exact hR.setFb (fbFill data s).fb h
  | geom =>
    simp only [Machine.exec, execGeom, hs.params]
    exact .next (hR.respond _ h)

theorem Unseen.resumeJob {s s' : State} (job : BusJob) (k : Nat) (a : BusAnswer) (h : R s s')
    (hanswer : R (Machine.takeAnswer a s) (Machine.takeAnswer a s')) :
    SameResult R (resumeJob job k a s) (resumeJob job k a s') := by
  cases a with
  | fail => exact .ok (hR.respond _ (hR.failFlags job hanswer))
  | ok =>
    simp only [Machine.resumeJob, hR.jobFrames job h]
    cases Machine.jobFrames job s with
    | error f => exact .error f
    | ok frames => exact .ok (hR.sendFrom job _ _ hanswer)

/-- A step from related states ends alike, where the answer to a pending transaction and the reset keep them related. -/
theorem Unseen.step {s s' : State} (h : R s s')
    (hanswer : IsWaiting s → ∀ a, R (Machine.takeAnswer a s) (Machine.takeAnswer a s'))
    (hreset : ∀ m, s.resetPin = some m → R (resetTurn m s) (resetTurn m s')) :
    SameOutcome R (step s) (step s') := by
  have hs := hR.reads h
  simp only [Machine.step, sequencerTurn, hs.params, hs.resetPin, hs.phase]
  split
  · exact .refused _
  · split
    · next m hm => exact .next (hreset m hm)
    · split
      · simp only [idleTurn, hs.cmdPort]
        split
        · exact .next h
        · split
          · exact hR.exec _ (hR.acceptPacket _ h)
          · exact .next (hR.raiseFault _ _ (hR.acceptPacket _ h))
      · exact .refused _
      · next job k hp =>
        simp only [waitTurn, hs.answers]
        split
        · exact .next h
        · exact (hR.resumeJob job k _ h (hanswer ⟨job, k, hp⟩ _)).outcome
      · exact .next h

/-- A turn with reset asserted keeps related states related, where an answer and the reset itself do. -/
theorem Unseen.resetTurn {s s' : State} (m : ResetMoment) (h : R s s')
    (hanswer : ∀ a, R (Machine.takeAnswer a s) (Machine.takeAnswer a s'))
    (hreset : ∀ {u u' : State}, R u u' → R (resetEvent u) (resetEvent u')) :
    R (resetTurn m s) (resetTurn m s') := by
  have hs := hR.reads h
  cases m with
  | now => exact hreset h
  | inExec =>
    simp only [Machine.resetTurn, enterExec, hs.phase, hs.cmdPort, hs.answers]
    cases s.phase with
    | idle =>
      cases s.cmdPort with
      | nil => exact h
      | cons p rest => exact hreset (hR.acceptPacket rest h)
    | exec => exact hreset h
    | waitBus job k =>
      cases s.answers with
      | nil => exact h
      | cons a as => exact hreset (hanswer a)
    | halt => exact h

end

/-! ### `SCROLLING` (R25) -/

/-- The two states agree on everything but `SCROLLING`. -/
def AgreeButScrolling (s s' : State) : Prop := ∃ v, s' = { s with scrolling := v }

theorem unseen_scrolling : Unseen AgreeButScrolling where
  reads := by
    rintro s s' ⟨v, rfl⟩
    exact ⟨rfl, rfl, rfl, rfl, rfl, rfl, rfl, rfl⟩
  setFb := fun _ ⟨v, h⟩ => ⟨v, h ▸ rfl⟩
  respond := fun _ ⟨v, h⟩ => ⟨v, h ▸ rfl⟩
  raiseFault := fun _ _ ⟨v, h⟩ => ⟨v, h ▸ rfl⟩
  okFlags := by
    rintro s s' job ⟨v, rfl⟩
    cases job <;> exact ⟨_, rfl⟩
  failFlags := by
    rintro s s' job ⟨v, rfl⟩
    cases job <;> exact ⟨_, rfl⟩
  acceptPacket := fun _ ⟨v, h⟩ => ⟨v, h ▸ rfl⟩
  issue := fun _ _ _ ⟨v, h⟩ => ⟨v, h ▸ rfl⟩
  takeAnswer := fun _ _ ⟨v, h⟩ => ⟨v, h ▸ rfl⟩

/-- Settles O43: no update of the state and no decision of CORE looks at `SCROLLING`, and a reset sets it. -/
theorem nothingDependsOnScrolling : Obligations.NothingDependsOnScrolling := by
  intro s v
  have hanswer : ∀ a, AgreeButScrolling (takeAnswer a s) (takeAnswer a { s with scrolling := v }) :=
    fun a => ⟨v, rfl⟩
  have hreset : ∀ {u u' : State}, AgreeButScrolling u u' → AgreeButScrolling (resetEvent u) (resetEvent u') := by
    rintro u u' ⟨w, rfl⟩
    exact ⟨_, rfl⟩
  have hstep : SameOutcome AgreeButScrolling (step s) (step { s with scrolling := v }) :=
    unseen_scrolling.step ⟨v, rfl⟩ (fun _ => hanswer) (fun m _ => unseen_scrolling.resetTurn m ⟨v, rfl⟩ hanswer hreset)
  refine ⟨fun t ht => ?_, fun f hf => SameOutcome.eq_fault (hf ▸ hstep),
    fun r hr => SameOutcome.eq_refused (hr ▸ hstep)⟩
  rw [ht] at hstep
  obtain ⟨t', ht', v', rfl⟩ := hstep.exists_next
  exact ⟨v', ht'⟩

/-! ### `FCODE` and `FINFO` (R24, R45) -/

/-- The two states agree on everything but `FCODE` and `FINFO`. -/
def AgreeButLatch (s s' : State) : Prop := ∃ c info, s' = { s with fcode := c, finfo := info }

theorem unseen_latch : Unseen AgreeButLatch where
  reads := by
    rintro s s' ⟨c, info, rfl⟩
    exact ⟨rfl, rfl, rfl, rfl, rfl, rfl, rfl, rfl⟩
  setFb := fun _ ⟨c, info, h⟩ => ⟨c, info, h ▸ rfl⟩
  respond := fun _ ⟨c, info, h⟩ => ⟨c, info, h ▸ rfl⟩
  raiseFault := fun code i ⟨_, _, h⟩ => ⟨faultByte code, i, h ▸ rfl⟩
  okFlags := by
    rintro s s' job ⟨c, info, rfl⟩
    cases job <;> exact ⟨c, info, rfl⟩
  failFlags := by
    rintro s s' job ⟨c, info, rfl⟩
    cases job <;> exact ⟨c, info, rfl⟩
  acceptPacket := fun _ ⟨c, info, h⟩ => ⟨c, info, h ▸ rfl⟩
  issue := fun _ _ _ ⟨c, info, h⟩ => ⟨c, info, h ▸ rfl⟩
  takeAnswer := fun _ _ ⟨c, info, h⟩ => ⟨c, info, h ▸ rfl⟩

/-- Settles O44: a trap writes the latch and answers its own code, so nothing reads the latch; a reset sets it. -/
theorem nothingDependsOnTheFaultLatch : Obligations.NothingDependsOnTheFaultLatch := by
  intro s t c info ht
  have hanswer : ∀ a, AgreeButLatch (takeAnswer a s) (takeAnswer a { s with fcode := c, finfo := info }) :=
    fun a => ⟨c, info, rfl⟩
  have hreset : ∀ {u u' : State}, AgreeButLatch u u' → AgreeButLatch (resetEvent u) (resetEvent u') := by
    rintro u u' ⟨c, info, rfl⟩
    exact ⟨_, _, rfl⟩
  have hstep : SameOutcome AgreeButLatch (step s) (step { s with fcode := c, finfo := info }) :=
    unseen_latch.step ⟨c, info, rfl⟩ (fun _ => hanswer)
      (fun m _ => unseen_latch.resetTurn m ⟨c, info, rfl⟩ hanswer hreset)
  rw [ht] at hstep
  obtain ⟨t', ht', c', info', rfl⟩ := hstep.exists_next
  exact ⟨c', info', ht'⟩

/-! ### `BUSLOG` (R28) -/

/-- An older history before one that is not empty keeps its place when the last answer is recorded. -/
theorem setLastAnswer_append_of_ne_nil (a : BusStatus) (old : List BusEntry) {log : List BusEntry} (h : log ≠ []) :
    setLastAnswer a (old ++ log) = old ++ setLastAnswer a log := by
  rw [← List.dropLast_append_getLast h, ← List.append_assoc, setLastAnswer_append, setLastAnswer_append,
    List.append_assoc]

/-- The second state is the first with an older history put before its own. -/
def HasOlderLog (old : List BusEntry) (s s' : State) : Prop := s' = { s with busLog := old ++ s.busLog }

theorem unseen_olderLog (old : List BusEntry) : Unseen (HasOlderLog old) where
  reads := by
    rintro s s' rfl
    exact ⟨rfl, rfl, rfl, rfl, rfl, rfl, rfl, rfl⟩
  setFb := fun _ h => h ▸ rfl
  respond := fun _ h => h ▸ rfl
  raiseFault := fun _ _ h => h ▸ rfl
  okFlags := by
    rintro s s' job rfl
    cases job <;> rfl
  failFlags := by
    rintro s s' job rfl
    cases job <;> rfl
  acceptPacket := fun _ h => h ▸ rfl
  issue := by
    rintro s s' job k bytes rfl
    simp [HasOlderLog, issue]
  takeAnswer := by
    rintro s s' a hlog rfl
    simp [HasOlderLog, takeAnswer, setLastAnswer_append_of_ne_nil _ old hlog]

/-- Settles O46: the history grows at its end, and only its last transaction is touched. -/
theorem nothingReadsTheBusHistory : Obligations.NothingReadsTheBusHistory := by
  intro s t old hr hw ht
  have hR := unseen_olderLog old
  have hstep : SameOutcome (HasOlderLog old) (step s) (step { s with busLog := old ++ s.busLog }) :=
    hR.step rfl (fun hwait a => hR.takeAnswer a (hw hwait) rfl) (fun m hm => by simp [hr] at hm)
  rw [ht] at hstep
  obtain ⟨t', ht', rfl⟩ := hstep.exists_next
  exact ht'

end Sys2Proof.Machine
end

section
/-! The framebuffer as the host sees it: the map between pixels and bits (20_memory.md R52), no operation outside the
buffer (R53), and reads without a side effect (R58; 10_state.md R46). -/

namespace Sys2Proof.Machine

/-! ### Pixels and bits -/

/-- The byte index of a pixel without negative coordinates (R52). -/
theorem pixelIndex_natCast (p : Params) (a b : Nat) : pixelIndex p a b = b / 8 * p.width + a := rfl

/-- The bit position of a pixel without negative coordinates (R52). -/
theorem pixelBit_natCast (b : Nat) : pixelBit b = b % 8 := rfl

/-- A byte's column is the remainder of its index by `W`. -/
theorem pixelIndex_mod_width {p : Params} {a : Nat} (b : Nat) (ha : a < p.width) :
    pixelIndex p a b % p.width = a := by
  rw [pixelIndex_natCast, Nat.mul_add_mod_self_right, Nat.mod_eq_of_lt ha]

/-- A byte's page is the quotient of its index by `W`. -/
theorem pixelIndex_div_width {p : Params} {a : Nat} (b : Nat) (ha : a < p.width) :
    pixelIndex p a b / p.width = b / 8 := by
  have hw : 0 < p.width := Nat.zero_lt_of_lt ha
  rw [pixelIndex_natCast, Nat.add_comm, Nat.add_mul_div_right _ _ hw, Nat.div_eq_of_lt ha, Nat.zero_add]

/-- The inverse of R52 gives a pixel back from its byte and bit. -/
theorem pixel_of_pixelIndex {p : Params} {x y : Int} (hb : InBounds p x y) :
    (x, y) = (((pixelIndex p x y % p.width : Nat) : Int),
      ((8 * (pixelIndex p x y / p.width) + pixelBit y : Nat) : Int)) := by
  obtain ⟨hx0, hx, hy0, -⟩ := hb
  lift x to Nat using hx0
  lift y to Nat using hy0
  have hcol : x < p.width := Int.ofNat_lt.1 hx
  rw [pixelIndex_mod_width y hcol, pixelIndex_div_width y hcol, pixelBit_natCast, Nat.div_add_mod]

/-- The inverse of R52 stays on the panel: a byte's page is below `PAGES`, and eight rows make a page. -/
theorem inBounds_of_lt_fbLen {p : Params} {i k : Nat} (hg : p.geometryOk = true) (hi : i < p.fbLen) (hk : k ≤ 7) :
    InBounds p ((i % p.width : Nat) : Int) ((8 * (i / p.width) + k : Nat) : Int) := by
  simp only [Params.geometryOk, Bool.and_eq_true, decide_eq_true_eq] at hg
  have hcol : i % p.width < p.width := Nat.mod_lt _ (by omega)
  have hpage : i / p.width < p.height / 8 := Nat.div_lt_of_lt_mul (by rwa [Nat.mul_comm])
  omega

/-- The pixel of the inverse of R52 lies in the byte it came from. -/
theorem pixelIndex_of_inverse (p : Params) (i : Nat) {k : Nat} (hk : k ≤ 7) :
    pixelIndex p ((i % p.width : Nat) : Int) ((8 * (i / p.width) + k : Nat) : Int) = i := by
  have hpage : (8 * (i / p.width) + k) / 8 = i / p.width := by omega
  rw [pixelIndex_natCast, hpage, Nat.div_add_mod']

/-- The pixel of the inverse of R52 is the bit it came from. -/
theorem pixelBit_of_inverse (page : Nat) {k : Nat} (hk : k ≤ 7) : pixelBit ((8 * page + k : Nat) : Int) = k := by
  rw [pixelBit_natCast]
  omega

/-- Settles O13: the formula on natural coordinates, then each direction of the bijection by quotient and remainder
by `W`. -/
theorem pixelMapIsABijection : Obligations.PixelMapIsABijection := by
  refine ⟨fun s x y hb => ?_, fun p hg => ⟨fun x y hb => ?_, fun i k hi hk => ?_⟩⟩
  · obtain ⟨hx0, -, hy0, -⟩ := hb
    lift x to Nat using hx0
    lift y to Nat using hy0
    refine ⟨_, _, ?_, ?_, rfl, rfl, rfl⟩
    · rw [pixelIndex_natCast]
      push_cast
      rfl
    · rw [pixelBit_natCast]
      push_cast
      rfl
  · exact ⟨pixelIndex_lt hg hb, Nat.le_of_lt_succ (pixelBit_lt y), pixel_of_pixelIndex hb⟩
  · exact ⟨inBounds_of_lt_fbLen hg hi hk, pixelIndex_of_inverse p i hk, pixelBit_of_inverse _ hk⟩

/-! ### Accesses -/

/-- Settles O49: the case split over the operations is `exec_total`'s. -/
theorem noOperationLeavesTheBuffer : Obligations.NoOperationLeavesTheBuffer := exec_total

/-- A response leaves every byte of `FB` as it reads. -/
@[simp] theorem fbByte_respond (r : List Byte) (s : State) (i : Nat) : fbByte (respond r s) i = fbByte s i :=
  fbByte_congr (respond_fb r s) rfl i

/-- `FBRD` inside the buffer answers the byte and does nothing else (R147). -/
theorem exec_fbrd_of_lt {s : State} {idx : Half} (h : idx.toNat < s.params.fbLen) :
    exec (.fbrd idx) s = .next (respond (okResponse [fbByte s idx.toNat]) s) := by
  simp only [exec, execFbrd, if_neg (Nat.not_le_of_lt h), fbRead_eq h]

/-- Settles O18: the first read only responds, so the second finds the same byte. -/
theorem fbrdTwiceAnswersTheSame : Obligations.FbrdTwiceAnswersTheSame := by
  intro s t u idx hidx hfirst hsecond
  rw [exec_fbrd_of_lt hidx] at hfirst
  cases hfirst
  rw [exec_fbrd_of_lt (by simpa using hidx)] at hsecond
  cases hsecond
  exact ⟨fbByte s idx.toNat, by simp [okResponse], fun i => by simp⟩

end Sys2Proof.Machine
end

section
/-! Packets and operations (30_encoding.md R80 to R94): the decoder against the encoder and against the rule for legal
packets, and what the trap of an illegal one leaves. -/

namespace Sys2Proof

open Machine

/-! ### The decoder looks at the opcode alone (R82) -/

@[simp] theorem decode_cons_init (ops : List Byte) : decode (0x01#8 :: ops) = decodeInit ops := rfl
@[simp] theorem decode_cons_setpix (ops : List Byte) : decode (0x02#8 :: ops) = decodeSetpix ops := rfl
@[simp] theorem decode_cons_line (ops : List Byte) : decode (0x03#8 :: ops) = decodeLine ops := rfl
@[simp] theorem decode_cons_wchar (ops : List Byte) : decode (0x04#8 :: ops) = decodeWchar ops := rfl
@[simp] theorem decode_cons_wstr (ops : List Byte) : decode (0x05#8 :: ops) = decodeWstr ops := rfl
@[simp] theorem decode_cons_render (ops : List Byte) : decode (0x06#8 :: ops) = decodeRender ops := rfl
@[simp] theorem decode_cons_scroll (ops : List Byte) : decode (0x07#8 :: ops) = decodeScroll ops := rfl
@[simp] theorem decode_cons_fbwr (ops : List Byte) : decode (0x08#8 :: ops) = decodeFbwr ops := rfl
@[simp] theorem decode_cons_fbrd (ops : List Byte) : decode (0x09#8 :: ops) = decodeFbrd ops := rfl
@[simp] theorem decode_cons_fbfill (ops : List Byte) : decode (0x0A#8 :: ops) = decodeFbfill ops := rfl
@[simp] theorem decode_cons_geom (ops : List Byte) : decode (0x0B#8 :: ops) = decodeGeom ops := rfl

/-- Settles O1: for each operation its format reads the fields back, each 16-bit field from its two bytes and each
boolean from its `fl` byte; the text's length is its own byte's value because it is at most 255. -/
theorem decodeOfEncodeIsTheOperation : Obligations.DecodeOfEncodeIsTheOperation := by
  intro i hwf
  cases i with
  | init => simp [encode, decodeInit]
  | setpix x y on => simp [encode, halfBytes, decodeSetpix]
  | line x0 y0 x1 y1 on => simp [encode, halfBytes, decodeLine]
  | wchar x y ch => simp [encode, halfBytes, decodeWchar]
  | wstr x y text =>
    have hlen : text.length ≤ 255 := by simpa [Instr.wf] using hwf
    simp [encode, halfBytes, decodeWstr, Nat.mod_eq_of_lt (Nat.lt_succ_of_le hlen)]
  | render sc ec sp ep => simp [encode, decodeRender]
  | scroll enabled => simp [encode, decodeScroll]
  | fbwr idx data => simp [encode, halfBytes, decodeFbwr]
  | fbrd idx => simp [encode, halfBytes, decodeFbrd]
  | fbfill data => simp [encode, decodeFbfill]
  | geom => simp [encode, decodeGeom]

/-! ### Legal packets (R94) -/

/-- None of the clauses (a) to (d) of R94 applies: the length is the one the opcode requires, which an empty packet or
another byte 0 does not have, and an `fl` byte has its reserved bits zero. -/
structure LegalPacket (p : List Byte) : Prop where
  length_eq : requiredLength (p.headD 0x00#8) (p.getD 5 0x00#8).toNat = some p.length
  reserved_zero : (p.headD 0x00#8).toNat ∈ [2, 3, 7] → p.getD 1 0x00#8 &&& 0xFE#8 = 0x00#8

/-- The required lengths of R82 as a table from opcode 1 on. -/
theorem requiredLength_eq_table {op : Byte} (n : Nat) (h : 1 ≤ op.toNat ∧ op.toNat ≤ 11) :
    requiredLength op n = [1, 6, 10, 6, 6 + n, 5, 2, 4, 3, 2, 1][op.toNat - 1]? := by
  obtain ⟨hlo, hhi⟩ := h
  rw [requiredLength]
  interval_cases op.toNat <;> rfl

/-- A value that is no opcode has no required length (R82). -/
theorem requiredLength_eq_none {op : Byte} (n : Nat) (h : ¬ (1 ≤ op.toNat ∧ op.toNat ≤ 11)) :
    requiredLength op n = none := by
  unfold requiredLength
  split
  case h_12 => rfl
  all_goals omega

/-- A packet is not legal exactly when one of the clauses (a) to (d) of R94 applies. -/
theorem not_legalPacket_iff (p : List Byte) :
    ¬ LegalPacket p ↔
      (p = [] ∨ ¬ (1 ≤ (p.headD 0x00#8).toNat ∧ (p.headD 0x00#8).toNat ≤ 11) ∨
        [1, 6, 10, 6, 6 + (p.getD 5 0x00#8).toNat, 5, 2, 4, 3, 2, 1][(p.headD 0x00#8).toNat - 1]? ≠ some p.length ∨
        ((p.headD 0x00#8).toNat ∈ [2, 3, 7] ∧ p.getD 1 0x00#8 &&& 0xFE#8 ≠ 0x00#8)) := by
  by_cases hop : 1 ≤ (p.headD 0x00#8).toNat ∧ (p.headD 0x00#8).toNat ≤ 11
  · have hne : p ≠ [] := by
      rintro rfl
      exact absurd hop.1 (by decide)
    rw [← requiredLength_eq_table _ hop, ← not_iff_not]
    push Not
    exact ⟨fun h => ⟨hne, hop, h.length_eq, h.reserved_zero⟩, fun ⟨_, _, hlen, hzero⟩ => ⟨hlen, hzero⟩⟩
  · refine iff_of_true (fun h => ?_) (.inr (.inl hop))
    have hlen := h.length_eq
    rw [requiredLength_eq_none _ hop] at hlen
    cases hlen

/-- A packet whose length is not the required one is not legal. -/
theorem not_legalPacket_of_length {op : Byte} {ops : List Byte} {n : Nat}
    (hreq : requiredLength op ((op :: ops).getD 5 0x00#8).toNat = some (n + 1)) (hlen : ops.length ≠ n) :
    ¬ LegalPacket (op :: ops) :=
  fun hlegal => hlen (Nat.succ.inj (Option.some.inj (hreq.symm.trans hlegal.length_eq))).symm

/-- Every operation's packet has its shape (R80, R82). -/
theorem packetShape (i : Instr) : Laws.PacketShape.Statement i := by
  cases i with
  | init => exact Laws.PacketShape.init
  | setpix x y on => exact Laws.PacketShape.setpix x y on
  | line x0 y0 x1 y1 on => exact Laws.PacketShape.line x0 y0 x1 y1 on
  | wchar x y ch => exact Laws.PacketShape.wchar x y ch
  | wstr x y text => exact Laws.PacketShape.wstr x y text
  | render sc ec sp ep => exact Laws.PacketShape.render sc ec sp ep
  | scroll enabled => exact Laws.PacketShape.scroll enabled
  | fbwr idx data => exact Laws.PacketShape.fbwr idx data
  | fbrd idx => exact Laws.PacketShape.fbrd idx
  | fbfill data => exact Laws.PacketShape.fbfill data
  | geom => exact Laws.PacketShape.geom

/-- The `fl` byte of an encoding has its reserved bits zero (R81). -/
theorem flagByte_reserved_zero (b : Bool) : flagByte b &&& 0xFE#8 = 0x00#8 := by
  cases b <;> rfl

/-- The encoding of a well-formed operation is a legal packet. -/
theorem legalPacket_encode {i : Instr} (hwf : i.wf = true) : LegalPacket (encode i) := by
  obtain ⟨hhead, hlen⟩ := packetShape i hwf
  have hop : (encode i).headD 0x00#8 = opcode i := by rw [List.headD_eq_head?_getD, hhead, Option.getD_some]
  refine ⟨by rw [hop, hlen], fun hfl => ?_⟩
  rw [hop] at hfl
  cases i with
  | setpix x y on => exact flagByte_reserved_zero on
  | line x0 y0 x1 y1 on => exact flagByte_reserved_zero on
  | scroll enabled => exact flagByte_reserved_zero enabled
  | init | wchar | wstr | render | fbwr | fbrd | fbfill | geom => simp [opcode] at hfl

/-! ### What each format reads (R83 to R93)

A format matches the operand bytes of the one length it has; with any other number of bytes the packet breaks clause (c)
of R94. -/

/-- What the decoder says of a packet is right: the operation it reads is well-formed and has this packet as its
encoding, and a packet it refuses is not legal. -/
def FaithfulTo (p : List Byte) : Decoded → Prop
  | .instr i => i.wf = true ∧ encode i = p
  | .illegal _ => ¬ LegalPacket p

/-- An `fl` byte with a reserved bit set makes the packet illegal, and one without is the operand's own byte. -/
theorem withFlag_faithful {op : Byte} {ops : List Byte} {make : Bool → Instr} (fl : Byte)
    (hop : op.toNat ∈ [2, 3, 7])
    (hmake : ∀ on, (make on).wf = true ∧ encode (make on) = op :: flagByte on :: ops) :
    FaithfulTo (op :: fl :: ops) (withFlag fl make) := by
  unfold withFlag
  split
  · next hzero =>
    have henc := hmake (fl.getLsbD 0)
    rwa [flagByte_of_reserved_zero fl hzero] at henc
  · next hset => exact fun hlegal => hset (hlegal.reserved_zero hop)

/-- R83. -/
theorem decodeInit_faithful (ops : List Byte) : FaithfulTo (0x01#8 :: ops) (decodeInit ops) := by
  unfold decodeInit
  split
  · exact ⟨rfl, rfl⟩
  · next hother =>
    exact not_legalPacket_of_length (n := 0) rfl fun hlen =>
      match ops, hlen with | [], _ => hother rfl

/-- R84. -/
theorem decodeSetpix_faithful (ops : List Byte) : FaithfulTo (0x02#8 :: ops) (decodeSetpix ops) := by
  unfold decodeSetpix
  split
  · exact withFlag_faithful _ (by decide) fun on => ⟨rfl, by simp [encode, halfBytes]⟩
  · next hother =>
    exact not_legalPacket_of_length (n := 5) rfl fun hlen =>
      match ops, hlen with | [_, _, _, _, _], _ => hother _ _ _ _ _ rfl

/-- R85. -/
theorem decodeLine_faithful (ops : List Byte) : FaithfulTo (0x03#8 :: ops) (decodeLine ops) := by
  unfold decodeLine
  split
  · exact withFlag_faithful _ (by decide) fun on => ⟨rfl, by simp [encode, halfBytes]⟩
  · next hother =>
    exact not_legalPacket_of_length (n := 9) rfl fun hlen =>
      match ops, hlen with | [_, _, _, _, _, _, _, _, _], _ => hother _ _ _ _ _ _ _ _ _ rfl

/-- R86. -/
theorem decodeWchar_faithful (ops : List Byte) : FaithfulTo (0x04#8 :: ops) (decodeWchar ops) := by
  unfold decodeWchar
  split
  · exact ⟨rfl, by simp [encode, halfBytes]⟩
  · next hother =>
    exact not_legalPacket_of_length (n := 5) rfl fun hlen =>
      match ops, hlen with | [_, _, _, _, _], _ => hother _ _ _ _ _ rfl

/-- The required length of `WSTR` (R88): the characters, five bytes before them, and byte 0. -/
theorem requiredLength_wstr (n : Nat) : requiredLength 0x05#8 n = some (n + 5 + 1) :=
  congrArg some (by omega)

/-- Byte 5 is a byte's value, so it counts at most 255 characters (R88). -/
theorem decodeWstr_faithful (ops : List Byte) : FaithfulTo (0x05#8 :: ops) (decodeWstr ops) := by
  unfold decodeWstr
  split
  · next x0 x1 y0 y1 n text =>
    split
    · next hcount =>
      refine ⟨decide_eq_true ?_, by simp [encode, halfBytes, hcount]⟩
      rw [hcount]
      exact Nat.le_of_lt_succ n.isLt
    · next hcount =>
      exact not_legalPacket_of_length (requiredLength_wstr _) (by simpa using hcount)
  · next hother =>
    have hshort : ops.length < 5 := by
      match ops with
      | [] | [_] | [_, _] | [_, _, _] | [_, _, _, _] => simp
      | _ :: _ :: _ :: _ :: _ :: _ => exact (hother _ _ _ _ _ _ rfl).elim
    exact not_legalPacket_of_length (requiredLength_wstr _) (by omega)

/-- R87. -/
theorem decodeRender_faithful (ops : List Byte) : FaithfulTo (0x06#8 :: ops) (decodeRender ops) := by
  unfold decodeRender
  split
  · exact ⟨rfl, rfl⟩
  · next hother =>
    exact not_legalPacket_of_length (n := 4) rfl fun hlen =>
      match ops, hlen with | [_, _, _, _], _ => hother _ _ _ _ rfl

/-- R89. -/
theorem decodeScroll_faithful (ops : List Byte) : FaithfulTo (0x07#8 :: ops) (decodeScroll ops) := by
  unfold decodeScroll
  split
  · exact withFlag_faithful _ (by decide) fun on => ⟨rfl, rfl⟩
  · next hother =>
    exact not_legalPacket_of_length (n := 1) rfl fun hlen =>
      match ops, hlen with | [_], _ => hother _ rfl

/-- R90. -/
theorem decodeFbwr_faithful (ops : List Byte) : FaithfulTo (0x08#8 :: ops) (decodeFbwr ops) := by
  unfold decodeFbwr
  split
  · exact ⟨rfl, by simp [encode, halfBytes]⟩
  · next hother =>
    exact not_legalPacket_of_length (n := 3) rfl fun hlen =>
      match ops, hlen with | [_, _, _], _ => hother _ _ _ rfl

/-- R91. -/
theorem decodeFbrd_faithful (ops : List Byte) : FaithfulTo (0x09#8 :: ops) (decodeFbrd ops) := by
  unfold decodeFbrd
  split
  · exact ⟨rfl, by simp [encode, halfBytes]⟩
  · next hother =>
    exact not_legalPacket_of_length (n := 2) rfl fun hlen =>
      match ops, hlen with | [_, _], _ => hother _ _ rfl

/-- R92. -/
theorem decodeFbfill_faithful (ops : List Byte) : FaithfulTo (0x0A#8 :: ops) (decodeFbfill ops) := by
  unfold decodeFbfill
  split
  · exact ⟨rfl, rfl⟩
  · next hother =>
    exact not_legalPacket_of_length (n := 1) rfl fun hlen =>
      match ops, hlen with | [_], _ => hother _ rfl

/-- R93. -/
theorem decodeGeom_faithful (ops : List Byte) : FaithfulTo (0x0B#8 :: ops) (decodeGeom ops) := by
  unfold decodeGeom
  split
  · exact ⟨rfl, rfl⟩
  · next hother =>
    exact not_legalPacket_of_length (n := 0) rfl fun hlen =>
      match ops, hlen with | [], _ => hother rfl

/-- An opcode is known by its number. -/
theorem FaithfulTo.of_opcode {op op' : Byte} {ops : List Byte} {d : Decoded} (h : FaithfulTo (op' :: ops) d)
    (hop : op.toNat = op'.toNat) : FaithfulTo (op :: ops) d :=
  BitVec.eq_of_toNat_eq hop ▸ h

/-- The decoder is right about every packet: the opcode chooses the format, and each format is right. -/
theorem decode_faithful (p : List Byte) : FaithfulTo p (decode p) := by
  unfold decode
  split
  · exact (not_legalPacket_iff []).2 (.inl rfl)
  · next op ops =>
    split
    case h_1 hop => exact (decodeInit_faithful ops).of_opcode hop
    case h_2 hop => exact (decodeSetpix_faithful ops).of_opcode hop
    case h_3 hop => exact (decodeLine_faithful ops).of_opcode hop
    case h_4 hop => exact (decodeWchar_faithful ops).of_opcode hop
    case h_5 hop => exact (decodeWstr_faithful ops).of_opcode hop
    case h_6 hop => exact (decodeRender_faithful ops).of_opcode hop
    case h_7 hop => exact (decodeScroll_faithful ops).of_opcode hop
    case h_8 hop => exact (decodeFbwr_faithful ops).of_opcode hop
    case h_9 hop => exact (decodeFbrd_faithful ops).of_opcode hop
    case h_10 hop => exact (decodeFbfill_faithful ops).of_opcode hop
    case h_11 hop => exact (decodeGeom_faithful ops).of_opcode hop
    case h_12 =>
      refine (not_legalPacket_iff _).2 (.inr (.inl ?_))
      simp only [imp_false] at *
      rw [List.headD_cons]
      omega

/-- Settles O2: the decoder is faithful to the packet it reads. -/
theorem decodedPacketIsTheEncoding : Obligations.DecodedPacketIsTheEncoding := by
  intro p i hdecode
  have hfaithful := decode_faithful p
  rwa [hdecode] at hfaithful

/-! ### Illegal packets (R94) -/

/-- The decoder refuses exactly the packets that are not legal: it is faithful when it refuses, and what it accepts is
an encoding. -/
theorem decode_illegal_iff (p : List Byte) : (∃ r, decode p = .illegal r) ↔ ¬ LegalPacket p := by
  have hfaithful := decode_faithful p
  cases hdecode : decode p with
  | illegal r =>
    rw [hdecode] at hfaithful
    exact iff_of_true ⟨r, rfl⟩ hfaithful
  | instr i =>
    rw [hdecode] at hfaithful
    obtain ⟨hwf, rfl⟩ := hfaithful
    exact iff_of_false (fun ⟨r, hr⟩ => nomatch hr) (fun hillegal => hillegal (legalPacket_encode hwf))

/-- Settles O3: the rule's clauses are the negation of legality, and the trap is the sequencer's turn for an idle CORE
whose packet does not decode. -/
theorem illegalPacketsAreThoseOfTheRuleAndTrap : Obligations.IllegalPacketsAreThoseOfTheRuleAndTrap := by
  intro p
  refine ⟨(decode_illegal_iff p).trans (not_legalPacket_iff p), fun s rest r hg hr hp hc hdecode => ?_⟩
  exact ⟨lengthHighByte p.length, fun hlen => if_pos hlen, step_illegal hg hr hp hc hdecode⟩

/-- Settles O4: each packet is a closed list of bytes, which the decoder evaluates. -/
theorem packetsOfTheFormatsDecode : Obligations.PacketsOfTheFormatsDecode := by
  unfold Obligations.PacketsOfTheFormatsDecode
  decide

end Sys2Proof
end

section
/-! `RENDERFULL` (30_encoding.md R97): the render area of the whole panel (44_render_area.md R202, R207). -/

namespace Sys2Proof.Machine

/-- The area of `RENDERFULL` (R97): every column and every page. -/
def fullArea (p : Params) : Area :=
  ⟨0x00#8, BitVec.ofNat 8 (p.width - 1), 0x00#8, BitVec.ofNat 8 (p.pages - 1)⟩

/-- `RENDERFULL` is a bus operation's instruction, so the laws of bus operations are about it. -/
theorem asmRenderfull_eq (p : Params) : asmRenderfull p = jobInstr (.render (fullArea p)) := rfl

/-- On a geometry of R7 a panel has a column and a page, and each last one fits an operand byte. -/
theorem geometry_bounds {p : Params} (hg : p.geometryOk = true) :
    1 ≤ p.width ∧ p.width ≤ 256 ∧ 1 ≤ p.pages ∧ p.pages ≤ 256 := by
  simp only [Params.geometryOk, Bool.and_eq_true, decide_eq_true_eq] at hg
  unfold Params.pages
  omega

/-- The last column and the last page as numbers. -/
theorem fullArea_ends {p : Params} (hg : p.geometryOk = true) :
    (fullArea p).endCol.toNat = p.width - 1 ∧ (fullArea p).endPage.toNat = p.pages - 1 := by
  obtain ⟨hw, hw', hp, hp'⟩ := geometry_bounds hg
  simp only [fullArea, BitVec.toNat_ofNat]
  omega

/-- `RENDERFULL` passes the area check of R201. -/
theorem fullArea_ok {p : Params} (hg : p.geometryOk = true) : AreaOk p (fullArea p) := by
  obtain ⟨hw, -, hp, -⟩ := geometry_bounds hg
  obtain ⟨hcol, hpage⟩ := fullArea_ends hg
  rw [AreaOk, hcol, hpage]
  exact ⟨Nat.zero_le _, by omega, Nat.zero_le _, by omega⟩

/-- `RENDERFULL` streams from `FB[0]` on (R207). -/
@[simp] theorem areaOffset_fullArea (p : Params) : areaOffset p (fullArea p) = 0 := by
  simp [areaOffset, fullArea]

/-- `RENDERFULL` streams as many bytes as the buffer has (R202, R207). -/
theorem areaBuflen_fullArea {p : Params} (hg : p.geometryOk = true) : areaBuflen (fullArea p) = p.fbLen := by
  obtain ⟨hw, -, hp, -⟩ := geometry_bounds hg
  obtain ⟨hcol, hpage⟩ := fullArea_ends hg
  have hcols : areaCols (fullArea p) = p.width := by rw [areaCols, hcol]; exact Nat.sub_add_cancel hw
  have hpages : areaPages (fullArea p) = p.pages := by rw [areaPages, hpage]; exact Nat.sub_add_cancel hp
  rw [areaBuflen, hcols, hpages, Params.fbLen, Nat.mul_comm]

/-- The seven transactions of `RENDERFULL`: six command frames and the whole buffer in one data frame. -/
theorem jobFrames_fullArea {s : State} (hg : s.params.geometryOk = true) :
    jobFrames (.render (fullArea s.params)) s = .ok (seqFrames (windowSeq s.params (fullArea s.params)) ++
      [dataFrame ((List.range s.params.fbLen).map (fbByte s))]) := by
  simp [jobFrames_render (fullArea_ok hg), areaBuflen_fullArea hg]

/-- Settles O40: `RENDERFULL` is a ready `RENDER` of the full area, whose frames are all answered `ok`. -/
theorem renderfullStreamsTheWholeBuffer : Obligations.RenderfullStreamsTheWholeBuffer := by
  intro s more hg hinit hanswers
  have hready : JobReady (.render (fullArea s.params)) s :=
    ⟨fun _ => hinit, fun a ha => by cases ha; exact fullArea_ok hg⟩
  rw [asmRenderfull_eq]
  refine ⟨_, exec_jobInstr_frames hready (jobFrames_fullArea hg), ?_⟩
  rw [sendFrom_allOk (h := hanswers), finishOk_eq]
  simp [seqFrames, windowSeq, okEntry, dataFrame, ctrlData]

end Sys2Proof.Machine
end

section
/-! display_command_sequencer: the transactions that an operation issues and how a bus operation ends
(40_command_sequencer.md R110, R113, R114, R120, R123, R124). -/

namespace Sys2Proof.Machine

/-- Settles O34: each table is a closed value, which unfolds to its bytes. -/
theorem referenceTables : Obligations.ReferenceTables :=
  ⟨rfl, rfl, rfl, rfl, rfl, rfl⟩

/-- Settles O8: a waiting step without an answer answers the same state, by induction on the number of steps. -/
theorem stalledBusStallsForEver : Obligations.StalledBusStallsForEver := by
  intro n s job k hg hr hp ha
  have hstep : Sys2Proof.core.step s = .next s := step_wait_empty hg hr hp ha
  induction n with
  | zero => rfl
  | succ n ih => simpa only [Host.Core.run, hstep] using ih

/-! ### What is issued -/

/-- What a bus operation's run appends to the history: its own frames, to `DEV_ADDR`; and only an `INIT` whose frames
were all answered `ok` sets `INITED` (R32, R111). -/
theorem sendFrom_issues (job : BusJob) (frames : List (List Byte)) (k : Nat) (s : State) :
    ∃ issued, (sendFrom job frames k s).busLog = s.busLog ++ issued ∧
      (∀ e ∈ issued, e.addr = s.params.devAddr ∧ e.bytes ∈ frames) ∧
      ((sendFrom job frames k s).inited = true →
        s.inited = true ∨ (job = .init ∧ issued = frames.map (okEntry s.params))) := by
  have sent : ∀ l : List (List Byte), (∀ f ∈ l, f ∈ frames) →
      ∀ e ∈ l.map (okEntry s.params), e.addr = s.params.devAddr ∧ e.bytes ∈ frames := by
    intro l hl e he
    obtain ⟨f, hf, rfl⟩ := List.mem_map.1 he
    exact ⟨rfl, hl f hf⟩
  have sentThen : ∀ (j : Nat) (frame : List Byte) (a : BusStatus), frames[j]? = some frame →
      ∀ e ∈ (frames.take j).map (okEntry s.params) ++ [⟨s.params.devAddr, frame, a⟩],
        e.addr = s.params.devAddr ∧ e.bytes ∈ frames := by
    intro j frame a hframe e he
    rcases List.mem_append.1 he with he | he
    · exact sent _ (fun f => List.mem_of_mem_take) e he
    · rw [List.mem_singleton.1 he]
      exact ⟨rfl, List.mem_of_getElem? hframe⟩
  obtain ⟨more, -, h⟩ | ⟨j, more, frame, -, -, hframe, h⟩ | ⟨j, frame, -, -, hframe, h⟩ := sendFrom_cases job frames k s
  · rw [h, finishOk_eq]
    refine ⟨_, rfl, sent frames fun _ => id, fun hi => ?_⟩
    cases job with
    | init => exact .inr ⟨rfl, rfl⟩
    | scroll enabled => exact .inl hi
    | render a => exact .inl hi
  · rw [h, finishFail_eq]
    refine ⟨_, List.append_assoc .., sentThen j frame .fail hframe, fun hi => ?_⟩
    cases job with
    | init => cases hi
    | scroll enabled => exact .inl hi
    | render a => exact .inl hi
  · rw [h]
    exact ⟨_, List.append_assoc .., sentThen j frame .pending hframe, .inl⟩

/-- The two frames as lengths and first bytes (R10, R98, R99). -/
theorem FrameOk.length_head {bytes : List Byte} (h : FrameOk bytes) :
    (bytes.length = 2 ∧ bytes.head? = some 0x80#8) ∨ (2 ≤ bytes.length ∧ bytes.head? = some 0x40#8) := by
  obtain ⟨c, rfl⟩ | ⟨b, bs, rfl⟩ := h
  · exact .inl ⟨rfl, rfl⟩
  · exact .inr ⟨by simp, rfl⟩

/-- Settles O36: an operation that completes or traps issues nothing, and a bus operation sends frames of R98 or R99. -/
theorem onlyBusOperationsIssueTransactions : Obligations.OnlyBusOperationsIssueTransactions := by
  intro i s t hexec
  obtain ⟨-, ⟨data, ht⟩, -⟩ | ⟨⟨c, info, ht⟩, -, -⟩ | ⟨job, frames, rfl, hj, hframes, rfl⟩ := exec_cases hexec
  · exact ⟨[], by rw [ht, List.append_nil], by simp, by simp⟩
  · exact ⟨[], by rw [ht, List.append_nil], by simp, by simp⟩
  · obtain ⟨issued, hlog, hissued, -⟩ := sendFrom_issues job frames 0 s
    refine ⟨issued, hlog, fun e he => ?_, fun _ => ?_⟩
    · obtain ⟨haddr, hmem⟩ := hissued e he
      exact ⟨haddr, (jobFrames_ok hj hframes e.bytes hmem).length_head⟩
    · cases job with
      | init => exact .inl rfl
      | scroll enabled => exact .inr (.inl ⟨enabled, rfl⟩)
      | render a => exact .inr (.inr ⟨_, _, _, _, rfl⟩)

/-! ### How a bus operation ends, by the answers at the port -/

section
variable {job : BusJob} {s : State} {frames : List (List Byte)} (hj : JobReady job s)
  (hframes : jobFrames job s = .ok frames)
include hj hframes

/-- Every frame answered `ok`: the operation sends them all and completes `OK`, with its flags (R113). -/
theorem exec_jobInstr_sentAll {more : List BusAnswer}
    (hans : s.answers = List.replicate frames.length .ok ++ more) :
    ∃ t, exec (jobInstr job) s = .next t ∧ BusFrame s t ∧ SentAll frames more s t ∧
      t.inited = (okFlags job s).inited ∧ t.scrolling = (okFlags job s).scrolling := by
  refine ⟨_, exec_jobInstr_frames hj hframes, (sendFrom_ends job frames 0 s).1, ?_⟩
  rw [sendFrom_allOk (h := hans), finishOk_eq]
  cases job <;> exact ⟨⟨rfl, rfl, rfl, rfl⟩, rfl, rfl⟩

/-- Frame `k` answered `fail`: the operation sends the frames up to it and completes `FAIL`, with its flags (R114). -/
theorem exec_jobInstr_sentUntilFail {k : Nat} {more : List BusAnswer} (hk : k < frames.length)
    (hans : s.answers = List.replicate k .ok ++ .fail :: more) :
    ∃ t, exec (jobInstr job) s = .next t ∧ BusFrame s t ∧ SentUntilFail frames k more s t ∧
      t.inited = (failFlags job s).inited ∧ t.scrolling = (failFlags job s).scrolling := by
  have hframe : frames[k]? = some frames[k] := List.getElem?_eq_getElem hk
  refine ⟨_, exec_jobInstr_frames hj hframes, (sendFrom_ends job frames 0 s).1, ?_⟩
  rw [sendFrom_fail job frames 0 k s more _ hframe hans, finishFail_eq]
  cases job <;> exact ⟨⟨_, hframe, rfl, rfl, rfl, rfl⟩, rfl, rfl⟩

/-- Frame `k` not answered: the operation sends the frames up to it and waits, the flags as they were (R110). -/
theorem exec_jobInstr_sentUntilWait {k : Nat} (hk : k < frames.length) (hans : s.answers = List.replicate k .ok) :
    ∃ t, exec (jobInstr job) s = .next t ∧ BusFrame s t ∧ SentUntilWait job frames k s t ∧
      t.inited = s.inited ∧ t.scrolling = s.scrolling := by
  have hframe : frames[k]? = some frames[k] := List.getElem?_eq_getElem hk
  refine ⟨_, exec_jobInstr_frames hj hframes, (sendFrom_ends job frames 0 s).1, ?_⟩
  rw [sendFrom_wait job frames 0 k s _ hframe hans, Nat.zero_add]
  exact ⟨⟨_, hframe, rfl, rfl, rfl, rfl⟩, rfl, rfl⟩

end

/-- `INIT` checks nothing before its first transaction (R120). -/
theorem jobReady_init (s : State) : JobReady .init s :=
  ⟨fun h => absurd rfl h, fun _ ha => nomatch ha⟩

/-- `SCROLL` checks `INITED` before its first transaction (R123). -/
theorem jobReady_scroll {enabled : Bool} {s : State} (h : s.inited = true) : JobReady (.scroll enabled) s :=
  ⟨fun _ => h, fun _ ha => nomatch ha⟩

/-- Settles O32: `INIT` is a ready bus operation, whose flags are those of its row of R32. -/
theorem initSendsTheBringUpSequence : Obligations.InitSendsTheBringUpSequence := by
  rintro s _ rfl
  have hframes : jobFrames .init s = .ok (s.params.initSeq.map (fun c => [0x80#8, c])) := rfl
  exact ⟨fun _ => exec_jobInstr_sentAll (jobReady_init s) hframes,
    fun _ _ => exec_jobInstr_sentUntilFail (jobReady_init s) hframes,
    fun _ => exec_jobInstr_sentUntilWait (jobReady_init s) hframes⟩

/-- `SCROLL` before `INIT` traps, with its opcode (R123, R221). -/
theorem exec_scroll_of_not_inited {s : State} (enabled : Bool) (h : s.inited = false) :
    exec (.scroll enabled) s = .next (raiseFault .notInitialised (opcodeInfo 0x07#8) s) := by
  rw [exec, execScroll, if_pos h]

/-- Settles O33: `SCROLL` after `INIT` is a ready bus operation, whose flags are those of its row of R32. -/
theorem scrollSendsItsSequence : Obligations.ScrollSendsItsSequence := by
  rintro s enabled _ rfl
  have hframes : jobFrames (.scroll enabled) s =
      .ok ((s.params.scrollSeq enabled).map (fun c => [0x80#8, c])) := rfl
  refine ⟨fun h => ⟨_, exec_scroll_of_not_inited enabled h, rfl, rfl⟩, fun h more hans => ?_,
    fun h k more hk hans => ?_, fun h k hk hans => ?_⟩
  · obtain ⟨t, hexec, hframe, hsent, hi, hs⟩ := exec_jobInstr_sentAll (jobReady_scroll h) hframes hans
    exact ⟨t, hexec, hframe, hsent, hi.trans h, hs⟩
  · obtain ⟨t, hexec, hframe, hsent, hi, hs⟩ := exec_jobInstr_sentUntilFail (jobReady_scroll h) hframes hk hans
    exact ⟨t, hexec, hframe, hsent, hi.trans h, hs⟩
  · obtain ⟨t, hexec, hframe, hsent, hi, hs⟩ := exec_jobInstr_sentUntilWait (jobReady_scroll h) hframes hk hans
    exact ⟨t, hexec, hframe, hsent, hi.trans h, hs⟩

end Sys2Proof.Machine
end

section
/-! The bring-up sequence comes first: in every reachable state it stands before `INITED = 1` and before any data frame
(40_command_sequencer.md R121; 10_state.md R23). -/

namespace Sys2Proof.Machine

/-! ### Histories -/

/-- A history that goes on still holds the bring-up sequence. -/
theorem BringUpIn.append {p : Params} {log : List BusEntry} (h : BringUpIn p log) (more : List BusEntry) :
    BringUpIn p (log ++ more) := by
  obtain ⟨before, after, rfl⟩ := h
  exact ⟨before, after ++ more, List.append_assoc ..⟩

/-- A last transaction that was not answered `ok` is no part of the bring-up sequence. -/
theorem BringUpIn.of_append_not_ok {p : Params} {log : List BusEntry} {last : BusEntry}
    (h : BringUpIn p (log ++ [last])) (hlast : last.answer ≠ .ok) : BringUpIn p log := by
  obtain ⟨before, after, h⟩ := h
  rcases List.eq_nil_or_concat after with rfl | ⟨after', e, rfl⟩
  · have hne : (seqFrames p.initSeq).map (okEntry p) ≠ [] := by simp [seqFrames, initSeq_ne_nil]
    obtain ⟨sent, e, hsent⟩ := (List.eq_nil_or_concat _).resolve_left hne
    rw [hsent, List.append_nil, List.concat_eq_append, ← List.append_assoc] at h
    obtain ⟨-, he⟩ := List.append_inj' h rfl
    have hmem : last ∈ (seqFrames p.initSeq).map (okEntry p) := by
      rw [hsent, List.concat_eq_append, List.singleton_inj.1 he]
      exact List.mem_concat_self
    obtain ⟨f, -, rfl⟩ := List.mem_map.1 hmem
    exact absurd rfl hlast
  · rw [List.concat_eq_append, ← List.append_assoc] at h
    exact ⟨before, after', (List.append_inj' h rfl).1⟩

/-- Every data frame of a history is preceded by a whole bring-up sequence (R121). -/
def DataAfterBringUp (p : Params) (log : List BusEntry) : Prop :=
  ∀ before e after, log = before ++ e :: after → e.bytes.head? = some ctrlData → BringUpIn p before

/-- The two halves of the order, the second one as a property of the history alone. -/
theorem bringUpFirst_iff (s : State) :
    BringUpFirst s ↔ (s.inited = true → BringUpIn s.params s.busLog) ∧ DataAfterBringUp s.params s.busLog :=
  Iff.rfl

/-- A history keeps its order when it goes on, if the bring-up sequence is in it or no new transaction is a data
frame. -/
theorem DataAfterBringUp.append {p : Params} {log new : List BusEntry} (h : DataAfterBringUp p log)
    (hnew : BringUpIn p log ∨ ∀ e ∈ new, e.bytes.head? ≠ some ctrlData) : DataAfterBringUp p (log ++ new) := by
  intro before e after heq hdata
  obtain ⟨mid, rfl, hmid⟩ | ⟨mid, hlog, hmid⟩ := List.append_eq_append_iff.1 heq
  · obtain hup | hnone := hnew
    · exact hup.append mid
    · exact absurd hdata (hnone e (by simp [hmid]))
  · cases mid with
    | nil =>
      obtain rfl : log = before := hlog.trans (List.append_nil before)
      obtain rfl : e :: after = new := hmid
      exact hnew.elim id fun hnone => absurd hdata (hnone e List.mem_cons_self)
    | cons x mid =>
      cases hmid
      exact h before e mid hlog hdata

/-! ### The ways a state goes on -/

/-- A state whose history goes on keeps the order, if `INITED` is only newly set with the bring-up sequence in the
history, and a data frame is only issued with `INITED = 1`. -/
theorem BringUpFirst.extend {s t : State} {new : List BusEntry} (h : BringUpFirst s) (hp : t.params = s.params)
    (hlog : t.busLog = s.busLog ++ new)
    (hinited : t.inited = true → s.inited = true ∨ BringUpIn s.params (s.busLog ++ new))
    (hdata : s.inited = true ∨ ∀ e ∈ new, e.bytes.head? ≠ some ctrlData) : BringUpFirst t := by
  obtain ⟨hup, hafter⟩ := (bringUpFirst_iff s).1 h
  rw [bringUpFirst_iff, hp, hlog]
  exact ⟨fun hi => (hinited hi).elim (fun hi => (hup hi).append new) id, hafter.append (hdata.imp_left hup)⟩

/-- A state whose history and `INITED` are those of an ordered one is ordered. -/
theorem BringUpFirst.of_same {s t : State} (h : BringUpFirst s) (hp : t.params = s.params)
    (hlog : t.busLog = s.busLog) (hinited : t.inited = s.inited) : BringUpFirst t :=
  h.extend (new := []) hp (by rw [hlog, List.append_nil]) (fun hi => .inl (hinited ▸ hi)) (.inr (by simp))

/-- Right after a reset there is no history, and `INITED = 0` (R45). -/
theorem bringUpFirst_of_empty {s : State} (hlog : s.busLog = []) (hinited : s.inited = false) : BringUpFirst s := by
  refine (bringUpFirst_iff s).2 ⟨fun hi => absurd (hinited.symm.trans hi) (by decide), ?_⟩
  intro before e after heq
  simp [hlog] at heq

/-- `INIT` sends command frames alone (R112, R120). -/
theorem jobFrames_init_not_data {s : State} {frames : List (List Byte)} (h : jobFrames .init s = .ok frames) :
    ∀ f ∈ frames, f.head? ≠ some ctrlData := by
  cases h
  intro f hf
  obtain ⟨c, -, rfl⟩ := List.mem_map.1 hf
  simp [commandFrame, ctrlCmd, ctrlData]

/-- A bus operation's run from transaction `k` on, after `k` transactions answered `ok`, keeps the order: `INIT` sends
no data frame and sets `INITED` when its whole sequence is in the history; every other one runs with `INITED = 1`. -/
theorem BringUpFirst.of_sendFrom {s : State} {job : BusJob} {k : Nat} {frames : List (List Byte)}
    {old : List BusEntry} (h : BringUpFirst s) (hj : JobReady job s) (hframes : jobFrames job s = .ok frames)
    (hlog : s.busLog = old ++ (frames.take k).map (okEntry s.params)) :
    BringUpFirst (sendFrom job (frames.drop k) k s) := by
  obtain ⟨issued, hissued, hmem, hset⟩ := sendFrom_issues job (frames.drop k) k s
  have hp : (sendFrom job (frames.drop k) k s).params = s.params := by
    rw [(sendFrom_ends job (frames.drop k) k s).1]
  refine h.extend hp hissued (fun hi => (hset hi).imp_right ?_) ?_
  · rintro ⟨rfl, rfl⟩
    cases hframes
    refine ⟨old, [], ?_⟩
    rw [hlog, List.append_nil, List.append_assoc, ← List.map_append, List.take_append_drop]
  · by_cases hinit : job = .init
    · subst hinit
      exact .inr fun e he => jobFrames_init_not_data hframes e.bytes (List.mem_of_mem_drop (hmem e he).2)
    · exact .inl (hj.1 hinit)

/-- Taking the answer to the pending transaction keeps the order: the bring-up sequence was whole before it (R110). -/
theorem BringUpFirst.of_takeAnswer {s : State} {before : List BusEntry} {last : BusEntry} (h : BringUpFirst s)
    (hlog : s.busLog = before ++ [last]) (hlast : last.answer = .pending) (a : BusAnswer) :
    BringUpFirst (takeAnswer a s) := by
  obtain ⟨hup, hafter⟩ := (bringUpFirst_iff s).1 h
  have hbefore : s.inited = true → BringUpIn s.params before := fun hi =>
    (hlog ▸ hup hi : BringUpIn s.params (before ++ [last])).of_append_not_ok (by simp [hlast])
  have hrest : DataAfterBringUp s.params before := fun b e after heq =>
    hafter b e (after ++ [last]) (by simp [hlog, heq])
  rw [bringUpFirst_iff, takeAnswer_params, takeAnswer_busLog, takeAnswer_inited, hlog, setLastAnswer_append]
  refine ⟨fun hi => (hbefore hi).append _, hrest.append ?_⟩
  by_cases hdata : last.bytes.head? = some ctrlData
  · exact .inl (hafter before last [] hlog hdata)
  · exact .inr fun e he => by rw [List.mem_singleton.1 he]; exact hdata

/-! ### Every step -/

/-- An operation keeps the order. -/
theorem BringUpFirst.of_exec {i : Instr} {s t : State} (h : BringUpFirst s) (hexec : exec i s = .next t) :
    BringUpFirst t := by
  obtain ⟨-, ⟨data, ht⟩, -⟩ | ⟨⟨c, info, ht⟩, -, -⟩ | ⟨job, frames, -, hj, hframes, rfl⟩ := exec_cases hexec
  · exact h.of_same (by rw [ht]) (by rw [ht]) (by rw [ht])
  · exact h.of_same (by rw [ht]) (by rw [ht]) (by rw [ht])
  · exact h.of_sendFrom (k := 0) (old := s.busLog) hj hframes (by simp)

/-- A waiting operation that goes on keeps the order. -/
theorem BringUpFirst.of_resumeJob {s t : State} {job : BusJob} {k : Nat} {a : BusAnswer} (h : BringUpFirst s)
    (hw : WaitingInOrder s) (hp : s.phase = .waitBus job k) (hr : resumeJob job k a s = .ok t) : BringUpFirst t := by
  obtain ⟨frames, frame, old, hframes, hk, hlog, hj⟩ := hw job k hp
  have htaken : BringUpFirst (takeAnswer a s) := h.of_takeAnswer hlog rfl a
  obtain ⟨rfl, rfl⟩ | ⟨frames', rfl, hframes', rfl⟩ := resumeJob_cases hr
  · rw [finishFail_eq]
    refine htaken.extend (new := []) rfl (List.append_nil _).symm (fun hi => .inl ?_) (.inr (by simp))
    cases job with
    | init => cases hi
    | scroll enabled => exact hi
    | render area => exact hi
  · cases hframes.symm.trans hframes'
    refine htaken.of_sendFrom (old := old) hj ((jobFrames_congr job rfl rfl rfl).trans hframes) ?_
    rw [takeAnswer_busLog, hlog, setLastAnswer_append, List.take_add_one, hk]
    simp [okEntry, BusAnswer.status]

/-- Settles O55: each way a step can go leaves the history as it is, begins it anew, or goes on with it in order. -/
theorem bringUpComesBeforeAnyData : Obligations.BringUpComesBeforeAnyData := by
  intro s t hinv h hstep
  obtain ⟨-, ⟨m, -, rfl⟩ | ⟨-, ⟨-, -, rfl⟩ | ⟨p, rest, i, -, -, -, hexec⟩ | ⟨p, rest, r, -, -, -, rfl⟩ |
    ⟨job, k, -, -, rfl⟩ | ⟨job, k, a, as, hp, -, hresume⟩ | ⟨-, rfl⟩⟩⟩ := step_cases hstep
  · obtain ⟨hstay, -⟩ | ⟨u, hu, -⟩ := resetTurn_cases m s
    · rwa [hstay]
    · rw [hu]
      exact bringUpFirst_of_empty rfl rfl
  · exact h
  · exact (h.of_same (t := acceptPacket rest s) rfl rfl rfl).of_exec hexec
  · exact h.of_same rfl rfl rfl
  · exact h
  · exact h.of_resumeJob hinv.waiting hp hresume
  · exact h

/-- Settles O56: by induction on how the state is reached. -/
theorem reachableStatesBringUpFirst : Obligations.ReachableStatesBringUpFirst := by
  intro s hs
  induction hs with
  | ofReset p epoch hp => exact ⟨resetMeetsTheInvariant.1 p epoch hp, bringUpFirst_of_empty rfl rfl⟩
  | ofStep _ hstep ih =>
    exact ⟨everyStepKeepsTheInvariant _ _ ih.1 hstep, bringUpComesBeforeAnyData _ _ ih.1 ih.2 hstep⟩
  | ofInput inp _ ih =>
    refine ⟨inputsKeepTheInvariant inp _ ih.1, ?_⟩
    cases inp <;> exact ih.2.of_same rfl rfl rfl

end Sys2Proof.Machine
end

section
/-! The operations of the framebuffer writer (41_framebuffer_writer.md R140 to R149): what each answers, and the bytes
of `FB` it leaves. -/

namespace Sys2Proof.Machine

/-! ### The operand bytes of a trap and the mask of a pixel -/

/-- A coordinate's 16-bit pattern is the operand it was read from (R102). -/
@[simp] theorem coordBits_coord (v : Half) : coordBits (coord v) = v := BitVec.ofInt_toInt

/-- The index bytes of `FbIndexRange` as numbers (R221). -/
theorem indexInfo_eq (idx : Half) :
    indexInfo idx = ⟨BitVec.ofNat 8 (idx.toNat % 256), BitVec.ofNat 8 (idx.toNat / 256), 0x00#8, 0x00#8⟩ := by
  simp [indexInfo, ← loByte_toNat, ← hiByte_toNat]

/-- The mask is `2^k` (R141). -/
theorem pixelMask_eq (y : Int) : pixelMask y = BitVec.ofNat 8 (2 ^ pixelBit y) := by
  apply BitVec.eq_of_toNat_eq
  simp [pixelMask, Nat.one_shiftLeft]

/-- The cleared mask is `255 - 2^k` (R142). -/
theorem not_pixelMask_eq (y : Int) : ~~~ pixelMask y = BitVec.ofNat 8 (255 - 2 ^ pixelBit y) := by
  have hk := pixelBit_lt y
  rw [pixelMask_eq]
  generalize pixelBit y = k at hk
  revert k
  decide

/-- A trap leaves `FB` as it is and is of the form R226 gives. -/
theorem exists_trappedWith_of_raiseFault {o : Host.Outcome State Fault Refusal} {c : FaultCode} {info : FaultInfo}
    {s : State} (h : o = .next (raiseFault c info s)) :
    ∃ t, o = .next t ∧ TrappedWith (faultByte c) info s t ∧ t.fb = s.fb :=
  ⟨_, h, rfl, rfl⟩

/-! ### SETPIX -/

/-- `SETPIX` in bounds is a run of one point (R142, R144, R162). -/
theorem exec_setpix_eq_plotPoints {s : State} {x y : Half} (on : Bool) (hb : InBounds s.params (coord x) (coord y)) :
    exec (.setpix x y on) s = outcome (plotPoints on [(coord x, coord y)] s) := by
  simp only [exec, execSetpix, plotPoints, if_pos hb]
  cases writePixel (coord x) (coord y) on s <;> rfl

/-- `SETPIX` in bounds completes, with the bytes of a run of one point. -/
theorem exec_setpix_of_inBounds {s : State} {x y : Half} (on : Bool) (hg : s.params.geometryOk = true)
    (hb : InBounds s.params (coord x) (coord y)) :
    ∃ t, exec (.setpix x y on) s = .next t ∧ CompletedWith [] s t ∧
      ∀ i, fbByte t i = plottedByte s.params on [(coord x, coord y)] i (fbByte s i) := by
  obtain ⟨t, hrun, hdone, hbytes, -⟩ := plotPoints_inBounds on [(coord x, coord y)] s hg (by simpa using hb)
  exact ⟨t, by rw [exec_setpix_eq_plotPoints on hb, hrun]; rfl, hdone, hbytes⟩

/-- `SETPIX` out of bounds traps (R144). -/
theorem exec_setpix_of_not_inBounds {s : State} {x y : Half} (on : Bool)
    (hb : ¬ InBounds s.params (coord x) (coord y)) :
    exec (.setpix x y on) s = .next (raiseFault .outOfBounds (pointInfo (coord x) (coord y)) s) := by
  simp only [exec, execSetpix, if_neg hb]

/-- Settles O14: in bounds the byte written is `writtenByte`'s, its mask as a number; out of bounds the trap's bytes are
the operands. -/
theorem setpixWritesOneBitOrTraps : Obligations.SetpixWritesOneBitOrTraps := by
  refine fun s x y on hg => ⟨fun hb => ?_, fun hb => ?_⟩
  · obtain ⟨t, hexec, hdone, hbytes⟩ := exec_setpix_of_inBounds on hg hb
    refine ⟨t, hexec, hdone, fun i => ?_⟩
    rw [hbytes, ← pixelMask_eq, ← not_pixelMask_eq]
    rfl
  · have htrap := exec_setpix_of_not_inBounds on hb
    simp only [pointInfo, coordBits_coord] at htrap
    exact exists_trappedWith_of_raiseFault htrap

/-- On a geometry of R7 every framebuffer index fits `FBRD`'s 16-bit operand. -/
theorem fbLen_le {p : Params} (hg : p.geometryOk = true) : p.fbLen ≤ 256 * 256 := by
  obtain ⟨-, hw, -, hp⟩ := geometry_bounds hg
  exact Nat.mul_le_mul hp hw

/-- The pixels in bounds after a run of points in bounds: those of the run are `on`, the others as before. -/
theorem pixel_of_plottedByte {s t : State} {on : Bool} {ps : List (Int × Int)} {x y : Int}
    (hp : t.params = s.params) (hbytes : ∀ i, fbByte t i = plottedByte s.params on ps i (fbByte s i))
    (hps : ∀ a c, (a, c) ∈ ps → InBounds s.params a c) (hb : InBounds s.params x y) :
    pixel t x y = if (x, y) ∈ ps then on else pixel s x y := by
  rw [pixel, hp, hbytes, plottedByte_getLsbD on ps _ hb hps, pixel]

/-- Settles O15: the run of one point gives the pixel and the others, and `FBRD` answers the byte the pixel is in. -/
theorem setpixThenReadGivesThePixel : Obligations.SetpixThenReadGivesThePixel := by
  intro s x y on hg hb
  obtain ⟨t, hexec, hdone, hbytes⟩ := exec_setpix_of_inBounds on hg hb
  have hp : t.params = s.params := by rw [hdone]
  have hpixel : ∀ {x' y'}, InBounds s.params x' y' →
      pixel t x' y' = if (x', y') ∈ [(coord x, coord y)] then on else pixel s x' y' :=
    pixel_of_plottedByte hp hbytes (by simpa using hb)
  have hon : pixel t (coord x) (coord y) = on := by simp [hpixel hb]
  refine ⟨t, hexec, hon, fun x' y' hb' hne => by simpa [hne] using hpixel hb', ?_⟩
  have hlt := pixelIndex_lt hg hb
  have hidx : (BitVec.ofNat 16 (pixelIndex s.params (coord x) (coord y))).toNat
      = pixelIndex s.params (coord x) (coord y) :=
    Nat.mod_eq_of_lt (hlt.trans_le (fbLen_le hg))
  refine ⟨_, _, exec_fbrd_of_lt (by rwa [hidx, hp]), rfl, ?_⟩
  rwa [hidx, ← hp]

/-! ### FBWR, FBRD, FBFILL and GEOM -/

/-- `FBWR` inside the buffer stores its byte (R146). -/
theorem exec_fbwr_of_lt {s : State} {idx : Half} (data : Byte) (h : idx.toNat < s.params.fbLen) :
    exec (.fbwr idx data) s =
      .next (respond (okResponse []) { s with fb := Memory.store s.fb idx.toNat data }) := by
  simp only [exec, execFbwr, if_neg (Nat.not_le_of_lt h), fbWrite_eq data h, respondOk, outcome]

/-- `FBWR` from `FBLEN` on traps (R146). -/
theorem exec_fbwr_of_le {s : State} {idx : Half} (data : Byte) (h : s.params.fbLen ≤ idx.toNat) :
    exec (.fbwr idx data) s = .next (raiseFault .fbIndexRange (indexInfo idx) s) := by
  simp only [exec, execFbwr, if_pos h]

/-- `FBRD` from `FBLEN` on traps (R147). -/
theorem exec_fbrd_of_le {s : State} {idx : Half} (h : s.params.fbLen ≤ idx.toNat) :
    exec (.fbrd idx) s = .next (raiseFault .fbIndexRange (indexInfo idx) s) := by
  simp only [exec, execFbrd, if_pos h]

/-- Settles O16: a read after the listed write, or the trap with the index's two bytes. -/
theorem fbwrStoresOneByteOrTraps : Obligations.FbwrStoresOneByteOrTraps := by
  refine fun s idx data => ⟨fun hlt => ?_, fun hle => ?_⟩
  · exact ⟨_, exec_fbwr_of_lt data hlt, rfl, fun i => by rw [fbByte_respond, fbByte_store]⟩
  · rw [← indexInfo_eq]
    exact exists_trappedWith_of_raiseFault (exec_fbwr_of_le data hle)

/-- Settles O17: the read only responds, or the trap with the index's two bytes. -/
theorem fbrdAnswersTheByteOrTraps : Obligations.FbrdAnswersTheByteOrTraps := by
  refine fun s idx => ⟨fun hlt => exec_fbrd_of_lt hlt, fun hle => ?_⟩
  rw [← indexInfo_eq]
  exact exists_trappedWith_of_raiseFault (exec_fbrd_of_le hle)

/-- Settles O19: `FBFILL` answers the filled state, in which every index below `FBLEN` reads the operand. -/
theorem fbfillStoresEveryByte : Obligations.FbfillStoresEveryByte := by
  refine fun s data => ⟨respond (okResponse []) (fbFill data s), rfl, rfl, fun i hi => ?_⟩
  rw [fbByte_respond, fbByte_fbFill, if_pos hi]

/-- Settles O20: the response of R149 with `u16le`, `PAGES` and `FBLEN` written out. -/
theorem geomAnswersTheGeometry : Obligations.GeomAnswersTheGeometry := fun _ => rfl

end Sys2Proof.Machine
end

section
/-! `LINE` (42_line_rasterizer.md R160 to R166): the walk's points by their iteration, the pixels a line leaves, and the
trap at the first point out of bounds. -/

namespace Sys2Proof.Machine

/-! ### The points of the walk, one for each iteration -/

section
variable {x0 y0 x1 y1 : Int}

/-- One point for each iteration, and the first one (R164). -/
@[simp] theorem length_linePoints (x0 y0 x1 y1 : Int) :
    (linePoints x0 y0 x1 y1).length = max (x1 - x0).natAbs (y1 - y0).natAbs + 1 := by
  simp [linePoints_eq]

/-- Point `n` is `(cx, cy)` after `n` iterations (R162). -/
theorem getElem?_linePoints {n : Nat} (hn : n ≤ max (x1 - x0).natAbs (y1 - y0).natAbs) :
    (linePoints x0 y0 x1 y1)[n]? =
      some ((lineAdvance^[n] (lineStart x0 y0 x1 y1)).cx, (lineAdvance^[n] (lineStart x0 y0 x1 y1)).cy) := by
  rw [linePoints_eq, List.getElem?_map, List.getElem?_range (Nat.lt_succ_of_le hn), Option.map_some]

/-- A point of the walk is where some account of R162's loop stands. -/
theorem exists_lineState_of_mem {x y : Int} (h : (x, y) ∈ linePoints x0 y0 x1 y1) :
    ∃ n a b r, LineState x0 y0 x1 y1 (x1 - x0).natAbs (y1 - y0).natAbs n a b r ∧ r.cx = x ∧ r.cy = y := by
  rw [linePoints_eq] at h
  obtain ⟨n, -, hpoint⟩ := List.mem_map.1 h
  obtain ⟨a, b, hstate⟩ := lineIterate_state x0 y0 x1 y1 n
  exact ⟨n, a, b, _, hstate, (Prod.mk.inj hpoint).1, (Prod.mk.inj hpoint).2⟩

/-- The walk starts at the first endpoint. -/
theorem head?_linePoints (x0 y0 x1 y1 : Int) : (linePoints x0 y0 x1 y1).head? = some (x0, y0) :=
  lineWalk_head ..

/-- The walk ends at the second endpoint. -/
theorem getLast?_linePoints (x0 y0 x1 y1 : Int) : (linePoints x0 y0 x1 y1).getLast? = some (x1, y1) := by
  obtain ⟨a, b, hstate⟩ := lineIterate_state x0 y0 x1 y1 (max (x1 - x0).natAbs (y1 - y0).natAbs)
  obtain ⟨hx, hy⟩ := (hstate.at_end_iff (Nat.le_refl _)).2 rfl
  rw [List.getLast?_eq_getElem?, length_linePoints, Nat.add_sub_cancel, getElem?_linePoints (Nat.le_refl _), hx, hy]

/-- The walk moves along the longer axis at every iteration, so how far it has gone tells the iteration. -/
theorem LineState.iteration_eq_max {D E : Int} {n a b : Nat} {r : LineRegs}
    (h : LineState x0 y0 x1 y1 D E n a b r) : n = max a b := by
  have ha := h.le_a
  have hb := h.le_b
  rcases le_total E D with hwide | htall
  · have := (h.wide hwide).1
    omega
  · have := (h.tall htall).1
    omega

/-- No point is visited twice (R164). -/
theorem nodup_linePoints (x0 y0 x1 y1 : Int) : (linePoints x0 y0 x1 y1).Nodup := by
  rw [linePoints_eq]
  refine List.nodup_range.map fun n m hpoint => ?_
  obtain ⟨a, b, hn⟩ := lineIterate_state x0 y0 x1 y1 n
  obtain ⟨a', b', hm⟩ := lineIterate_state x0 y0 x1 y1 m
  obtain ⟨hx, hy⟩ := Prod.mk.inj hpoint
  obtain ⟨hxn, hyn⟩ := hn.gone
  obtain ⟨hxm, hym⟩ := hm.gone
  rw [hn.iteration_eq_max, hm.iteration_eq_max, ← hxn, ← hyn, ← hxm, ← hym, hx, hy]

/-- One axis of one iteration: the coordinate stays, or moves by one towards its end. -/
theorem axis_moves_towards_end {c c' s : Int} {a a' : Nat} (hs : s = if x0 < x1 then 1 else -1)
    (hc : c = x0 + s * a) (hc' : c' = x0 + s * a') (hmove : a' = a ∨ a' = a + 1) (hle : a' ≤ (x1 - x0).natAbs) :
    (c' = c ∨ (c' = c + 1 ∧ x0 < x1) ∨ (c' = c - 1 ∧ x1 < x0)) ∧ (a' = a + 1 → c' ≠ c) := by
  subst hs
  by_cases hdir : x0 < x1
  · rw [if_pos hdir] at hc hc'
    omega
  · rw [if_neg hdir] at hc hc'
    omega

/-- One iteration before the last: each axis stays or moves by one towards its end, and the longer one moves (R160). -/
theorem LineState.advance_moves {n a b : Nat} {r : LineRegs}
    (h : LineState x0 y0 x1 y1 (x1 - x0).natAbs (y1 - y0).natAbs n a b r)
    (hn : n + 1 ≤ max (x1 - x0).natAbs (y1 - y0).natAbs) :
    ((lineAdvance r).cx = r.cx ∨ ((lineAdvance r).cx = r.cx + 1 ∧ x0 < x1) ∨
      ((lineAdvance r).cx = r.cx - 1 ∧ x1 < x0)) ∧
    ((lineAdvance r).cy = r.cy ∨ ((lineAdvance r).cy = r.cy + 1 ∧ y0 < y1) ∨
      ((lineAdvance r).cy = r.cy - 1 ∧ y1 < y0)) ∧
    ((y1 - y0).natAbs ≤ (x1 - x0).natAbs → (lineAdvance r).cx ≠ r.cx) ∧
    ((x1 - x0).natAbs ≤ (y1 - y0).natAbs → (lineAdvance r).cy ≠ r.cy) := by
  obtain ⟨a', b', ha, hb, hwide, htall, h'⟩ := lineAdvance_state (by omega) (by omega) h
  obtain ⟨hle, hle', -⟩ := h'.arrived hn
  obtain ⟨hx, hxne⟩ := axis_moves_towards_end h.sx h.cx h'.cx ha hle
  obtain ⟨hy, hyne⟩ := axis_moves_towards_end h.sy h.cy h'.cy hb hle'
  exact ⟨hx, hy, fun hw => hxne (hwide (by exact_mod_cast hw)), fun ht => hyne (htall (by exact_mod_cast ht))⟩

end

/-- Settles O21: the account of R162's loop gives each point, how it moves and how near the line it stays. -/
theorem lineWalkIsARasterWalk : Obligations.LineWalkIsARasterWalk := by
  refine ⟨fun x0 y0 x1 y1 => ⟨head?_linePoints .., getLast?_linePoints .., length_linePoints .., nodup_linePoints ..,
    ?_, fun n => getElem?_linePoints, ?_⟩, by decide, by decide, by decide⟩
  · intro n a b a' b' hpoint hnext
    have hlt : n + 1 < (linePoints x0 y0 x1 y1).length := (List.getElem?_eq_some_iff.1 hnext).1
    rw [length_linePoints] at hlt
    rw [getElem?_linePoints (by omega), Option.some_inj, Prod.mk.injEq] at hpoint hnext
    obtain ⟨rfl, rfl⟩ := hpoint
    obtain ⟨rfl, rfl⟩ := hnext
    obtain ⟨_, _, hstate⟩ := lineIterate_state x0 y0 x1 y1 n
    rw [Function.iterate_succ_apply']
    exact hstate.advance_moves (by omega)
  · rintro x y _ _ _ _ hmem rfl rfl rfl rfl
    obtain ⟨n, a, b, r, hstate, rfl, rfl⟩ := exists_lineState_of_mem hmem
    obtain ⟨hx, hy⟩ := hstate.gone
    rw [hx, hy]
    exact hstate.near

/-! ### The registers -/

/-- The distance of two coordinates (R102, R165). -/
theorem natAbs_coord_sub_coord_le (v w : Half) : (coord v - coord w).natAbs ≤ 65535 := by
  have hv := BitVec.toInt_lt (x := v)
  have hv' := BitVec.le_toInt (x := v)
  have hw := BitVec.toInt_lt (x := w)
  have hw' := BitVec.le_toInt (x := w)
  simp only [coord]
  omega

/-- Settles O24: the account bounds `err` by the distances, and the distances are those of 16-bit coordinates. -/
theorem lineRegistersStayBounded : Obligations.LineRegistersStayBounded := by
  rintro x0 y0 x1 y1 n r hn rfl
  have hD := natAbs_coord_sub_coord_le x1 x0
  have hE := natAbs_coord_sub_coord_le y1 y0
  have hrect := mem_linePoints (List.mem_of_getElem? (getElem?_linePoints hn))
  obtain ⟨a, b, hstate⟩ := lineIterate_state (coord x0) (coord y0) (coord x1) (coord y1) n
  have hdx := hstate.dx
  have hdy := hstate.dy
  have hwide := hstate.wide
  have htall := hstate.tall
  refine ⟨?_, ?_, ?_, ?_, ?_, ?_, ?_, ?_, hrect⟩ <;> omega

/-! ### The pixels -/

/-- Both endpoints in bounds: every point of the walk is (R163). -/
theorem inBounds_of_mem_linePoints {p : Params} {x0 y0 x1 y1 x y : Int} (h0 : InBounds p x0 y0)
    (h1 : InBounds p x1 y1) (h : (x, y) ∈ linePoints x0 y0 x1 y1) : InBounds p x y := by
  have := mem_linePoints h
  simp only [InBounds] at *
  omega

/-- A line with both endpoints in bounds completes, the pixels of its walk `on` and the others as before (R164). -/
theorem exec_line_of_inBounds {s : State} {x0 y0 x1 y1 : Half} (on : Bool) (hg : s.params.geometryOk = true)
    (h0 : InBounds s.params (coord x0) (coord y0)) (h1 : InBounds s.params (coord x1) (coord y1)) :
    ∃ t, exec (.line x0 y0 x1 y1 on) s = .next t ∧ CompletedWith [] s t ∧
      (∀ x y, InBounds s.params x y → pixel t x y =
        if (x, y) ∈ linePoints (coord x0) (coord y0) (coord x1) (coord y1) then on else pixel s x y) ∧
      ∀ i, s.params.fbLen ≤ i → fbByte t i = fbByte s i := by
  have hps : ∀ x y, (x, y) ∈ linePoints (coord x0) (coord y0) (coord x1) (coord y1) → InBounds s.params x y :=
    fun _ _ => inBounds_of_mem_linePoints h0 h1
  obtain ⟨t, hrun, hdone, hbytes, -⟩ := plotPoints_inBounds on _ s hg hps
  have hp : t.params = s.params := by rw [hdone]
  exact ⟨t, outcome_eq_next.2 hrun, hdone, fun x y => pixel_of_plottedByte hp hbytes hps,
    fun i hi => by rw [hbytes, plottedByte_outside on _ _ hg hi hps]⟩

/-- Settles O22: the run of the walk's points, all in bounds, and the walk's shape. -/
theorem lineDrawsExactlyItsWalk : Obligations.LineDrawsExactlyItsWalk := by
  refine ⟨fun s x0 y0 x1 y1 on hg => exec_line_of_inBounds on hg, fun x0 y0 x1 y1 =>
    ⟨length_linePoints .., nodup_linePoints .., head?_linePoints .., getLast?_linePoints ..⟩, ?_⟩
  decide

/-- A line that is in bounds and has been drawn: the pixels of its walk are `on`, the others as before. -/
theorem pixel_of_exec_line {s t : State} {x0 y0 x1 y1 : Half} {on : Bool} (hg : s.params.geometryOk = true)
    (h0 : InBounds s.params (coord x0) (coord y0)) (h1 : InBounds s.params (coord x1) (coord y1))
    (h : exec (.line x0 y0 x1 y1 on) s = .next t) :
    t.params = s.params ∧ ∀ x y, InBounds s.params x y → pixel t x y =
      if (x, y) ∈ linePoints (coord x0) (coord y0) (coord x1) (coord y1) then on else pixel s x y := by
  obtain ⟨u, hexec, hdone, hpixel, -⟩ := exec_line_of_inBounds on hg h0 h1
  cases h.symm.trans hexec
  exact ⟨by rw [hdone], hpixel⟩

/-- Settles O25: each of the three lines leaves its walk at its operand and every other pixel as before. -/
theorem lineAgainAndLineErased : Obligations.LineAgainAndLineErased := by
  intro s t u v x0 y0 x1 y1 on hg h0 h1 hst htu htv x y hb
  obtain ⟨hp, hpixel⟩ := pixel_of_exec_line hg h0 h1 hst
  rw [← hp] at hg h0 h1
  have hagain := (pixel_of_exec_line hg h0 h1 htu).2 x y (hp ▸ hb)
  have herased := (pixel_of_exec_line hg h0 h1 htv).2 x y (hp ▸ hb)
  rw [hagain, herased, hpixel x y hb]
  by_cases hmem : (x, y) ∈ linePoints (coord x0) (coord y0) (coord x1) (coord y1) <;> simp [hmem]

/-! ### The trap -/

/-- The low byte of a coordinate's 16-bit pattern (R221). -/
theorem loByte_coordBits (x : Int) : loByte (coordBits x) = BitVec.ofInt 8 x := by
  apply BitVec.eq_of_toNat_eq
  rw [loByte_toNat, coordBits, BitVec.toNat_ofInt, BitVec.toNat_ofInt]
  omega

/-- The high byte of a coordinate's 16-bit pattern (R221). -/
theorem hiByte_coordBits (x : Int) : hiByte (coordBits x) = BitVec.ofInt 8 (x / 256) := by
  apply BitVec.eq_of_toNat_eq
  rw [hiByte_toNat, coordBits, BitVec.toNat_ofInt, BitVec.toNat_ofInt]
  omega

/-- A walk with an endpoint out of bounds has a first point out of bounds (R163). -/
theorem linePoints_split_of_not_inBounds {p : Params} {x0 y0 x1 y1 : Int}
    (h : ¬ (InBounds p x0 y0 ∧ InBounds p x1 y1)) :
    ∃ written x y after, linePoints x0 y0 x1 y1 = written ++ (x, y) :: after ∧
      (∀ a b, (a, b) ∈ written → InBounds p a b) ∧ ¬ InBounds p x y := by
  have hout : ∃ q ∈ linePoints x0 y0 x1 y1, ¬ InBounds p q.1 q.2 := by
    obtain h | h := not_and_or.1 h
    · exact ⟨(x0, y0), List.mem_of_head? (head?_linePoints ..), h⟩
    · exact ⟨(x1, y1), List.mem_of_getLast? (getLast?_linePoints ..), h⟩
  obtain ⟨q, hfind⟩ := Option.isSome_iff_exists.1
    (List.find?_isSome (p := fun q : Int × Int => decide (¬ InBounds p q.1 q.2)) |>.2
      (by simpa only [decide_eq_true_eq] using hout))
  obtain ⟨hq, written, after, hsplit, hin⟩ := List.find?_eq_some_iff_append.1 hfind
  exact ⟨written, q.1, q.2, after, hsplit, fun a b hab => by simpa using hin _ hab, of_decide_eq_true hq⟩

/-- Settles O23: the rectangle is the walk's, a walk in bounds completes, and one that leaves the bounds splits at its
first point outside. -/
theorem lineTrapsAtTheFirstPointOutOfBounds : Obligations.LineTrapsAtTheFirstPointOutOfBounds := by
  refine ⟨fun x0 y0 x1 y1 x y => mem_linePoints, fun s x0 y0 x1 y1 on hg => ⟨?_, fun hout => ?_⟩⟩
  · rintro ⟨h0, h1⟩
    obtain ⟨t, hexec, hdone, -⟩ := exec_line_of_inBounds on hg h0 h1
    exact ⟨t, hexec, by rw [hdone]⟩
  · obtain ⟨written, x, y, after, hsplit, hin, hxy⟩ := linePoints_split_of_not_inBounds hout
    obtain ⟨t, hrun, htrap, hbytes, -⟩ := plotPoints_outOfBounds on written after x y s hg hin hxy
    have hp : t.params = s.params := by rw [htrap]
    rw [pointInfo, loByte_coordBits, hiByte_coordBits, loByte_coordBits, hiByte_coordBits] at htrap
    rw [← hsplit] at hrun
    exact ⟨written, x, y, after, t, hsplit, hin, hxy, outcome_eq_next.2 hrun, htrap,
      fun a b => pixel_of_plottedByte hp hbytes hin,
      fun i hi => by rw [hbytes, plottedByte_outside on _ _ hg hi hin]⟩

end Sys2Proof.Machine
end

section
/-! `WCHAR` and `WSTR` (43_glyph_blitter.md R180 to R190): the glyph of a character, one cell, and the cells of a text
side by side. -/

namespace Sys2Proof.Machine

/-! ### GlyphOf -/

/-- The folded character as a number (R181). -/
theorem foldCase_toNat (ch : Byte) :
    (foldCase ch).toNat = if 0x61 ≤ ch.toNat ∧ ch.toNat ≤ 0x7A then ch.toNat - 0x20 else ch.toNat := by
  have hcond : (0x61#8 ≤ ch ∧ ch ≤ 0x7A#8) ↔ (0x61 ≤ ch.toNat ∧ ch.toNat ≤ 0x7A) := Iff.rfl
  simp only [foldCase, hcond]
  split
  · rw [BitVec.toNat_sub_of_le (by bv_omega)]
    rfl
  · rfl

/-- The index of a character, by its number (R181). -/
theorem glyphIndex_eq (c : Byte) :
    glyphIndex c =
      if 0x41 ≤ c.toNat ∧ c.toNat ≤ 0x5A then c.toNat - 0x41 + 1
      else if 0x30 ≤ c.toNat ∧ c.toNat ≤ 0x39 then c.toNat - 0x30 + 27
      else 0 := rfl

/-- Settles O26: the ranges by the character's number, folded and indexed; the counts by running over the 256 values. -/
theorem glyphOfEveryByte : Obligations.GlyphOfEveryByte := by
  refine ⟨fun ch => ?_, rfl, rfl⟩
  rw [glyphOf, glyphIndex_eq, foldCase_toNat]
  by_cases hlower : 0x61 ≤ ch.toNat ∧ ch.toNat ≤ 0x7A
  · have hfolded : 0x41 ≤ ch.toNat - 0x20 ∧ ch.toNat - 0x20 ≤ 0x5A := by omega
    rw [if_pos hlower, if_pos hfolded]
    omega
  · rw [if_neg hlower]
    split_ifs <;> omega

/-! ### The text loop of WSTR -/

section
variable {x y : Int} {s : State}

/-- A text with no character left completes (R188). -/
@[simp] theorem drawText_nil (n j : Nat) : drawText x y n [] j s = .ok (respond (okResponse []) s) := rfl

/-- A negative origin traps at the first character (R185, R188). -/
theorem drawText_of_negative (n : Nat) (ch : Byte) (rest : List Byte) (h : x < 0 ∨ y < 0) :
    drawText x y n (ch :: rest) 0 s = .ok (raiseFault .negativeOrigin (pointInfo x y) s) := by
  simp [drawText, h]

/-- A character past the right edge traps (R188, R189). -/
theorem drawText_of_overrun {j : Nat} (n : Nat) (ch : Byte) (rest : List Byte) (hx : 0 ≤ x) (hy : 0 ≤ y)
    (h : x + 8 * (j : Int) > (s.params.width : Int) - 8) :
    drawText x y n (ch :: rest) j s =
      .ok (raiseFault .stringOverrun (overrunInfo (x + 8 * (j : Int)) j n) s) := by
  rw [drawText, if_neg (by omega), if_pos h]

/-- The characters before character `j` fit: they are blitted side by side, and the loop goes on from character `j`. -/
theorem drawText_drop {text : List Byte} {j : Nat} (n : Nat) (hg : s.params.geometryOk = true)
    (hon : ¬ OffScreen s.params x y) (hx : 0 ≤ x) (hy : 0 ≤ y) (hj : j ≤ text.length)
    (hfit : x + 8 * ((j : Int) - 1) ≤ (s.params.width : Int) - 8) :
    ∃ t, drawText x y n text 0 s = drawText x y n (text.drop j) j t ∧ t = { s with fb := t.fb } ∧
      ∀ i, fbByte t i =
        if glyphOffset s.params x y ≤ i ∧ i < glyphOffset s.params x y + 8 * j then
          s.params.glyphByte (glyphOf (text.getD ((i - glyphOffset s.params x y) / 8) 0x00#8))
            ((i - glyphOffset s.params x y) % 8)
        else fbByte s i := by
  have hlen : (text.take j).length = j := List.length_take_of_le hj
  obtain ⟨t, hrun, hfb, hbytes⟩ := drawText_spec n hx hy (text.take j) (text.drop j) 0 s hg (not_or.1 hon).2
    (fun k _ hk => by omega)
  rw [List.take_append_drop, hlen, Nat.zero_add] at hrun
  simp only [hlen, Nat.mul_zero, Nat.add_zero, Nat.zero_add] at hbytes
  refine ⟨t, hrun, hfb, fun i => ?_⟩
  rw [hbytes]
  split
  · have hlt : (i - glyphOffset s.params x y) / 8 < j := by omega
    rw [List.getD_eq_getElem?_getD, List.getElem?_take_of_lt hlt, ← List.getD_eq_getElem?_getD]
  · rfl

/-- The loop depends on a text only through the glyphs of its characters (R182). -/
theorem drawText_congr {text text' : List Byte} (n j : Nat) (h : text.map glyphOf = text'.map glyphOf) :
    drawText x y n text j s = drawText x y n text' j s := by
  induction text generalizing text' j s with
  | nil =>
    cases List.map_eq_nil_iff.1 h.symm
    rfl
  | cons ch rest ih =>
    cases text' with
    | nil => cases h
    | cons ch' rest' =>
      obtain ⟨hglyph, hrest⟩ := List.cons.inj h
      simp only [drawText, hglyph, fun t => ih (s := t) (j + 1) hrest]

end

/-- A text that runs off the right edge has a first character past it, and character 0 is not that (R188, R189). -/
theorem exists_first_overrun {p : Params} {x : Int} {n : Nat} (hx : x ≤ (p.width : Int) - 8) (h : ¬ TextFits p x n) :
    ∃ j : Nat, 1 ≤ j ∧ j < n ∧ x + 8 * ((j : Int) - 1) ≤ (p.width : Int) - 8 ∧
      x + 8 * (j : Int) > (p.width : Int) - 8 := by
  obtain ⟨hne, hover⟩ := not_or.1 h
  refine ⟨((p.width : Int) - 8 - x).toNat / 8 + 1, ?_⟩
  omega

/-! ### WSTR -/

/-- The operand bytes of a trap at the origin (R221). -/
theorem pointInfo_coord (x y : Half) : pointInfo (coord x) (coord y) =
    ⟨x.extractLsb' 0 8, x.extractLsb' 8 8, y.extractLsb' 0 8, y.extractLsb' 8 8⟩ := by
  simp only [pointInfo, coordBits_coord, loByte, hiByte]

section
variable {s : State} {x y : Half}

/-- An off-screen `WSTR` only responds (R184, R188). -/
theorem exec_wstr_of_offScreen (text : List Byte) (h : OffScreen s.params (coord x) (coord y)) :
    exec (.wstr x y text) s = .next (respond (okResponse []) s) := by
  simp only [exec, execWstr, if_pos h]

/-- A `WSTR` that is not off-screen runs the text loop (R188). -/
theorem exec_wstr_of_not_offScreen (text : List Byte) (h : ¬ OffScreen s.params (coord x) (coord y)) :
    exec (.wstr x y text) s = outcome (drawText (coord x) (coord y) text.length text 0 s) := by
  simp only [exec, execWstr, if_neg h]

end

/-- Settles O28: a text that fits is drawn to its end, and one that does not is drawn to its first character past the
edge, which traps. -/
theorem wstrBlitsItsCharactersOrTraps : Obligations.WstrBlitsItsCharactersOrTraps := by
  intro s x y text hg
  refine ⟨fun h => ?_, fun hon hne hneg => ?_, fun hon hx hy hfit => ?_, fun hon hx hy hfit => ?_⟩
  · by_cases hoff : OffScreen s.params (coord x) (coord y)
    · exact exec_wstr_of_offScreen text hoff
    · obtain rfl := h.resolve_left hoff
      exact exec_wstr_of_not_offScreen [] hoff
  · obtain ⟨ch, rest, rfl⟩ := List.exists_cons_of_ne_nil hne
    rw [← pointInfo_coord]
    exact exists_trappedWith_of_raiseFault (c := .negativeOrigin) <| by
      rw [exec_wstr_of_not_offScreen _ hon, drawText_of_negative _ _ _ hneg, outcome]
  · have hlast : coord x + 8 * ((text.length : Int) - 1) ≤ (s.params.width : Int) - 8 := by
      rcases hfit with hzero | hle <;> omega
    obtain ⟨t, hrun, hfb, hbytes⟩ := drawText_drop text.length hg hon hx hy (Nat.le_refl _) hlast
    refine ⟨respond (okResponse []) t, ?_, by rw [CompletedWith, hfb]; rfl, hbytes⟩
    rw [exec_wstr_of_not_offScreen _ hon, hrun, List.drop_length, drawText_nil, outcome]
  · obtain ⟨j, hpos, hlt, hlast, hover⟩ := exists_first_overrun (by omega) hfit
    obtain ⟨t, hrun, hfb, hbytes⟩ := drawText_drop text.length hg hon hx hy hlt.le hlast
    have hp : t.params = s.params := by rw [hfb]
    refine ⟨j, raiseFault .stringOverrun (overrunInfo (coord x + 8 * (j : Int)) j text.length) t, hpos, hlt, hlast,
      hover, ?_, ?_, hbytes⟩
    · rw [exec_wstr_of_not_offScreen _ hon, hrun, List.drop_eq_getElem_cons hlt,
        drawText_of_overrun _ _ _ hx hy (by rwa [hp]), outcome]
    · rw [← loByte_coordBits, ← hiByte_coordBits, TrappedWith, hfb]
      rfl

/-- Settles O30: the off-screen test does not read the text, and the loop reads its glyphs and its length. -/
theorem textMattersOnlyThroughItsGlyphs : Obligations.TextMattersOnlyThroughItsGlyphs := by
  intro s x y text text' h
  have hlen : text.length = text'.length := by simpa using congrArg List.length h
  by_cases hoff : OffScreen s.params (coord x) (coord y)
  · rw [exec_wstr_of_offScreen text hoff, exec_wstr_of_offScreen text' hoff]
  · rw [exec_wstr_of_not_offScreen text hoff, exec_wstr_of_not_offScreen text' hoff, hlen, drawText_congr _ _ h]

/-! ### WCHAR -/

/-- Settles O29: the loop on one character makes the tests of `WCHAR`, the edge being that of the off-screen test. -/
theorem wstrOfOneCharacterIsWchar : Obligations.WstrOfOneCharacterIsWchar := by
  intro s x y ch
  by_cases hoff : OffScreen s.params (coord x) (coord y)
  · rw [exec_wstr_of_offScreen _ hoff, exec, execWchar, if_pos hoff]
  · have hedge : ¬ coord x > (s.params.width : Int) - 8 := (not_or.1 hoff).1
    rw [exec_wstr_of_not_offScreen _ hoff, exec, execWchar, if_neg hoff]
    by_cases hneg : coord x < 0 ∨ coord y < 0
    · rw [drawText_of_negative _ _ _ hneg, if_pos hneg, outcome]
    · rw [drawText, Int.natCast_zero, Int.mul_zero, Int.add_zero, if_neg hneg, if_neg hneg, if_neg hedge]
      cases blitGlyph (coord x) (coord y) (glyphOf ch) s <;> rfl

/-- Settles O27: the three cases of a text of one character. -/
theorem wcharBlitsOneCellOrNothing : Obligations.WcharBlitsOneCellOrNothing := by
  intro s x y ch hg
  obtain ⟨hoff, hneg, hdrawn, -⟩ := wstrBlitsItsCharactersOrTraps s x y [ch] hg
  rw [wstrOfOneCharacterIsWchar] at hoff hneg hdrawn
  refine ⟨fun h => hoff (.inl h), fun hon => hneg hon (by simp), fun hon hx hy => ?_⟩
  obtain ⟨t, hexec, hdone, hbytes⟩ := hdrawn hon hx hy (.inr (by simpa using (not_or.1 hon).1))
  refine ⟨t, hexec, hdone, fun i => ?_⟩
  rw [hbytes]
  split
  · next hcell =>
    obtain ⟨hge, hlt⟩ := hcell
    have hin : i - glyphOffset s.params (coord x) (coord y) < 8 := Nat.sub_lt_left_of_lt_add hge hlt
    rw [if_pos ⟨hge, hlt⟩, Nat.div_eq_of_lt hin, Nat.mod_eq_of_lt hin, List.getD_cons_zero]
  · next hcell => exact (if_neg hcell).symm

/-! ### The blank -/

/-- The blank's eight bytes are zero (R183). -/
theorem glyphByte_blank {p : Params} (h : p.glyphOk = true) (i : Nat) : p.glyphByte 0 i = 0x00#8 := by
  simp only [Params.glyphOk, Bool.and_eq_true, decide_eq_true_eq] at h
  obtain ⟨⟨-, hblank⟩, -⟩ := h
  simp only [Params.glyphByte, List.getD_eq_getElem?_getD, hblank, Option.getD_some,
    List.getElem?_getD_replicate_default_eq]

/-- Settles O31: the cell `WCHAR` leaves is the blank's. -/
theorem unsupportedCharacterErasesItsCell : Obligations.UnsupportedCharacterErasesItsCell := by
  intro s x y ch hwf hblank hon hx hy
  obtain ⟨hg, -, -, hglyph⟩ := wf_parts hwf
  obtain ⟨t, hexec, hdone, hbytes⟩ := (wcharBlitsOneCellOrNothing s x y ch hg).2.2 hon hx hy
  refine ⟨t, hexec, hdone, fun i hi => ?_⟩
  rw [hbytes, if_pos (by omega), hblank, glyphByte_blank hglyph]

end Sys2Proof.Machine
end

section
/-! render_area_to_display_window: the transactions of `RENDER` and its traps, the slice it streams, and the areas whose
slice is the window's picture (44_render_area.md R201 to R206). -/

namespace Sys2Proof.Machine

/-! ### RENDER -/

section
variable {s : State} {sc ec sp ep : Byte}

/-- `RENDER` before `INIT` traps, with its opcode (R204, R221). -/
theorem exec_render_of_not_inited (h : s.inited = false) :
    exec (.render sc ec sp ep) s = .next (raiseFault .notInitialised (opcodeInfo 0x06#8) s) := by
  rw [exec, execRender, if_pos h]

/-- `RENDER` after `INIT` traps on an area that is not well-formed, with its four bytes (R201, R221). -/
theorem exec_render_of_not_areaOk (h : s.inited = true) (ha : ¬ AreaOk s.params ⟨sc, ec, sp, ep⟩) :
    exec (.render sc ec sp ep) s = .next (raiseFault .badArea ⟨sc, ec, sp, ep⟩ s) := by
  rw [exec, execRender, if_neg (by simp [h]), if_neg ha, areaInfo]

end

/-- `RENDER` checks `INITED` and its area before its first transaction (R204). -/
theorem jobReady_render {s : State} {a : Area} (h : s.inited = true) (ha : AreaOk s.params a) :
    JobReady (.render a) s :=
  ⟨fun _ => h, fun _ hb => by cases hb; exact ha⟩

/-- Settles O37: two traps, then a ready bus operation whose seven frames are the window's and the slice's and which writes
no flag. -/
theorem renderSendsWindowAndSlice : Obligations.RenderSendsWindowAndSlice := by
  rintro s sc ec sp ep frames hf
  refine ⟨fun h => exists_trappedWith_of_raiseFault (exec_render_of_not_inited h),
    fun h ha => exists_trappedWith_of_raiseFault (exec_render_of_not_areaOk h ha), fun h ha => ?_⟩
  have hready := jobReady_render h ha
  have hframes : jobFrames (.render ⟨sc, ec, sp, ep⟩) s = .ok frames := hf ▸ jobFrames_render ha
  have hlen : frames.length = 7 := by rw [hf]; rfl
  rw [← hlen, ← h]
  exact ⟨fun _ => exec_jobInstr_sentAll hready hframes, fun _ _ => exec_jobInstr_sentUntilFail hready hframes,
    fun _ => exec_jobInstr_sentUntilWait hready hframes⟩

/-! ### The slice and the window -/

/-- Settles O38: the slice ends inside the buffer, so it is no longer than the buffer. -/
theorem renderStaysInsideTheBuffer : Obligations.RenderStaysInsideTheBuffer := by
  intro p a ha
  obtain ⟨hinside, hpos⟩ := area_inside ha
  exact ⟨hpos, le_of_add_le_right hinside, hinside⟩

/-- Where the `m`-th streamed byte comes from and where the display puts it differ by the columns between the area's rows
and the buffer's, once for each page before it. -/
theorem streamIndex_eq_windowIndex_iff (p : Params) (a : Area) (m : Nat) :
    areaOffset p a + m =
        (a.startPage.toNat + m / areaCols a) * p.width + (a.startCol.toNat + m % areaCols a) ↔
      areaCols a = p.width ∨ m / areaCols a = 0 := by
  have hm : areaOffset p a + m = areaOffset p a + m % areaCols a + areaCols a * (m / areaCols a) := by
    rw [Nat.add_assoc, Nat.mod_add_div]
  have hw : (a.startPage.toNat + m / areaCols a) * p.width + (a.startCol.toNat + m % areaCols a) =
      areaOffset p a + m % areaCols a + p.width * (m / areaCols a) := by
    rw [areaOffset]
    ring
  rw [hm, hw, Nat.add_left_cancel_iff, mul_eq_mul_right_iff]

/-- A well-formed area is as wide as the panel exactly when it spans all columns (R205). -/
theorem areaCols_eq_width_iff {p : Params} {a : Area} (ha : AreaOk p a) :
    areaCols a = p.width ↔ a.startCol.toNat = 0 ∧ a.endCol.toNat = p.width - 1 := by
  obtain ⟨hcol, hwidth, -, -⟩ := ha
  rw [areaCols]
  omega

/-- A well-formed area is one page high exactly when it starts and ends on the same page (R205). -/
theorem areaPages_eq_one_iff {p : Params} {a : Area} (ha : AreaOk p a) :
    areaPages a = 1 ↔ a.startPage = a.endPage := by
  obtain ⟨-, -, hpage, -⟩ := ha
  rw [areaPages, ← BitVec.toNat_inj]
  omega

/-- The streamed bytes all belong to the area's first page exactly when it is one page high. -/
theorem forall_div_areaCols_eq_zero_iff (a : Area) :
    (∀ m < areaBuflen a, m / areaCols a = 0) ↔ areaPages a = 1 := by
  have hcols : 0 < areaCols a := Nat.succ_pos _
  constructor
  · intro h
    by_contra hne
    have htwo : 1 < areaPages a := Nat.lt_of_le_of_ne (Nat.succ_pos _) (Ne.symm hne)
    have hzero := h (areaCols a) (lt_mul_of_one_lt_right hcols htwo)
    rw [Nat.div_self hcols] at hzero
    exact one_ne_zero hzero
  · intro h m hm
    rw [areaBuflen, h, Nat.mul_one] at hm
    exact Nat.div_eq_of_lt hm

/-- Settles O39: byte by byte the two places agree on the first page, and on a further page only if a row of the area is a
row of the buffer. -/
theorem streamMatchesWindowExactlyWhenContiguous : Obligations.StreamMatchesWindowExactlyWhenContiguous := by
  intro p a _ ha
  simp only [streamIndex_eq_windowIndex_iff, forall_or_left]
  rw [forall_div_areaCols_eq_zero_iff, areaPages_eq_one_iff ha, areaCols_eq_width_iff ha, or_comm]

end Sys2Proof.Machine
end

section
/-! Traps (60_exceptions.md R221, R222, R226, R227; 70_reset_and_hazards.md R250, R260): which operation traps when,
what a trap leaves, and what no trap and no ending depends on. -/

namespace Sys2Proof.Machine

/-! ### HALT -/

/-- Settles O7: `HALT` has no transition into `EXEC`, so only a reset that lands at once leaves it. -/
theorem haltIsLeftByResetAlone : Obligations.HaltIsLeftByResetAlone := by
  intro s hg hp
  refine ⟨fun hnow => ?_, fun hnow => ⟨_, step_reset hg hnow, leftByReset_resetEvent rfl rfl⟩⟩
  cases hr : s.resetPin with
  | none => exact step_halt hg hr hp
  | some m =>
    cases m with
    | now => exact absurd hr hnow
    | inExec =>
      have hnone : enterExec s = none := by simp only [enterExec, hp]
      simp only [step_reset hg hr, resetTurn, hnone]

/-- A completed operation leaves CORE idle (R41). -/
theorem CompletedWith.phase_ne_halt {data : List Byte} {s t : State} (h : CompletedWith data s t) :
    t.phase ≠ .halt := by
  rw [h]
  exact Phase.noConfusion

/-- A trap halts (R226). -/
theorem TrappedWith.phase_eq_halt {c : Byte} {info : FaultInfo} {s t : State} (h : TrappedWith c info s t) :
    t.phase = .halt := by
  rw [h]

/-- A bus operation that has made its checks does not trap, whatever the transport answers (R114). -/
theorem sendFrom_phase_ne_halt (job : BusJob) (frames : List (List Byte)) (k : Nat) (s : State) :
    (sendFrom job frames k s).phase ≠ .halt := by
  obtain ⟨-, ⟨hidle, -⟩ | ⟨j, hwait, -⟩, -⟩ := sendFrom_ends job frames k s
  · simp [hidle]
  · simp [hwait]

/-- Settles O41: of the ways an operation ends, only the trap halts. -/
theorem trapsArePrecise : Obligations.TrapsArePrecise := by
  intro i s t hexec hhalt
  obtain ⟨-, ⟨data, hdone⟩, -⟩ | ⟨htrap, hfb, -⟩ | ⟨job, frames, -, -, -, rfl⟩ := exec_cases hexec
  · exact absurd hhalt hdone.phase_ne_halt
  · exact ⟨htrap, hfb⟩
  · exact absurd hhalt (sendFrom_phase_ne_halt job frames 0 s)

/-! ### Preconditions -/

/-- A bus operation that has made its checks has a next state, which is not `HALT`. -/
theorem exec_jobInstr_not_halt {job : BusJob} {s : State} (hj : JobReady job s) :
    ∃ t, exec (jobInstr job) s = .next t ∧ t.phase ≠ .halt := by
  obtain ⟨frames, hframes⟩ := jobFrames_total hj
  exact ⟨_, exec_jobInstr_frames hj hframes, sendFrom_phase_ne_halt job frames 0 s⟩

/-- An operation whose preconditions hold does not trap (R185, R201, R222, R260, R264). -/
theorem exec_not_halt_of_keepsPreconditions {i : Instr} {s : State} (hg : s.params.geometryOk = true)
    (hk : KeepsPreconditions s i) : ∃ t, exec i s = .next t ∧ t.phase ≠ .halt := by
  cases i with
  | init => exact exec_jobInstr_not_halt (jobReady_init s)
  | setpix x y on =>
    obtain ⟨t, hexec, hdone, -⟩ := exec_setpix_of_inBounds on hg hk
    exact ⟨t, hexec, hdone.phase_ne_halt⟩
  | line x0 y0 x1 y1 on =>
    obtain ⟨t, hexec, hdone, -⟩ := exec_line_of_inBounds on hg hk.1 hk.2
    exact ⟨t, hexec, hdone.phase_ne_halt⟩
  | wchar x y ch =>
    obtain ⟨hoff, -, hdrawn⟩ := wcharBlitsOneCellOrNothing s x y ch hg
    by_cases hon : OffScreen s.params (coord x) (coord y)
    · exact ⟨_, hoff hon, Phase.noConfusion⟩
    · obtain ⟨hx, hy⟩ := hk.resolve_left hon
      obtain ⟨t, hexec, hdone, -⟩ := hdrawn hon hx hy
      exact ⟨t, hexec, hdone.phase_ne_halt⟩
  | wstr x y text =>
    obtain ⟨hoff, -, hdrawn, -⟩ := wstrBlitsItsCharactersOrTraps s x y text hg
    by_cases hon : OffScreen s.params (coord x) (coord y)
    · exact ⟨_, hoff (.inl hon), Phase.noConfusion⟩
    · obtain hnil | ⟨hx, hy, hfit⟩ := hk.resolve_left hon
      · exact ⟨_, hoff (.inr hnil), Phase.noConfusion⟩
      · obtain ⟨t, hexec, hdone, -⟩ := hdrawn hon hx hy hfit
        exact ⟨t, hexec, hdone.phase_ne_halt⟩
  | render sc ec sp ep => exact exec_jobInstr_not_halt (jobReady_render hk.1 hk.2)
  | scroll enabled => exact exec_jobInstr_not_halt (jobReady_scroll hk)
  | fbwr idx data => exact ⟨_, exec_fbwr_of_lt data hk, Phase.noConfusion⟩
  | fbrd idx => exact ⟨_, exec_fbrd_of_lt hk, Phase.noConfusion⟩
  | fbfill data => exact ⟨_, rfl, Phase.noConfusion⟩
  | geom => exact ⟨_, rfl, Phase.noConfusion⟩

/-- An operation with a broken precondition traps (R185, R201, R222, R260, R264). -/
theorem exec_halt_of_not_keepsPreconditions {i : Instr} {s : State} (hg : s.params.geometryOk = true)
    (hk : ¬ KeepsPreconditions s i) : ∃ t, exec i s = .next t ∧ t.phase = .halt := by
  cases i with
  | init | fbfill data | geom => exact absurd trivial hk
  | setpix x y on => exact ⟨_, exec_setpix_of_not_inBounds on hk, rfl⟩
  | line x0 y0 x1 y1 on =>
    obtain ⟨written, px, py, after, t, -, -, -, hexec, htrap, -⟩ :=
      (lineTrapsAtTheFirstPointOutOfBounds.2 s x0 y0 x1 y1 on hg).2 hk
    exact ⟨t, hexec, htrap.phase_eq_halt⟩
  | wchar x y ch =>
    obtain ⟨hon, hneg⟩ := not_or.1 hk
    obtain ⟨t, hexec, htrap, -⟩ := (wcharBlitsOneCellOrNothing s x y ch hg).2.1 hon (by omega)
    exact ⟨t, hexec, htrap.phase_eq_halt⟩
  | wstr x y text =>
    obtain ⟨-, hnegative, -, hoverrun⟩ := wstrBlitsItsCharactersOrTraps s x y text hg
    obtain ⟨hon, hbroken⟩ := not_or.1 hk
    obtain ⟨hne, hbroken⟩ := not_or.1 hbroken
    by_cases hneg : coord x < 0 ∨ coord y < 0
    · obtain ⟨t, hexec, htrap, -⟩ := hnegative hon hne hneg
      exact ⟨t, hexec, htrap.phase_eq_halt⟩
    · obtain ⟨hx, hy⟩ := not_or.1 hneg
      have hx := Int.not_lt.1 hx
      have hy := Int.not_lt.1 hy
      obtain ⟨j, t, -, -, -, -, hexec, htrap, -⟩ := hoverrun hon hx hy fun hfit => hbroken ⟨hx, hy, hfit⟩
      exact ⟨t, hexec, htrap.phase_eq_halt⟩
  | render sc ec sp ep =>
    by_cases hi : s.inited = true
    · exact ⟨_, exec_render_of_not_areaOk hi fun ha => hk ⟨hi, ha⟩, rfl⟩
    · exact ⟨_, exec_render_of_not_inited (Bool.not_eq_true _ ▸ hi), rfl⟩
  | scroll enabled => exact ⟨_, exec_scroll_of_not_inited enabled (Bool.not_eq_true _ ▸ hk), rfl⟩
  | fbwr idx data => exact ⟨_, exec_fbwr_of_le data (Nat.le_of_not_lt hk), rfl⟩
  | fbrd idx => exact ⟨_, exec_fbrd_of_le (Nat.le_of_not_lt hk), rfl⟩

/-- Settles O50: an operation with its preconditions ends otherwise than in `HALT`, and one without them in `HALT`. -/
theorem trapsExactlyWhenAPreconditionIsBroken : Obligations.TrapsExactlyWhenAPreconditionIsBroken := by
  intro i s t hg hexec
  by_cases hk : KeepsPreconditions s i
  · obtain ⟨u, hu, hphase⟩ := exec_not_halt_of_keepsPreconditions hg hk
    cases hexec.symm.trans hu
    exact ⟨fun hhalt => absurd hhalt hphase, fun hbroken => absurd hk hbroken⟩
  · obtain ⟨u, hu, hphase⟩ := exec_halt_of_not_keepsPreconditions hg hk
    cases hexec.symm.trans hu
    exact ⟨fun _ => hk, fun _ => hphase⟩

/-! ### What decides the ending of an operation on the framebuffer -/

/-- How an operation on the framebuffer ends: a response (R100), or a trap (R226). -/
inductive Ending where
  | responds (r : List Byte)
  | traps (c : FaultCode) (info : FaultInfo)

/-- The state an ending leaves. -/
def Ending.apply : Ending → State → State
  | .responds r, s => respond r s
  | .traps c info, s => raiseFault c info s

/-- With the constants `p`, whatever the rest of the state: `run` faults, always alike, or it writes `FB` from what `FB`
holds and then does `finish`. -/
def DecidedBy (p : Params) (finish : State → State) (run : State → Except Fault State) : Prop :=
  (∃ f, ∀ s, s.params = p → run s = .error f) ∨
  ∃ write : Memory → Nat → Memory, ∀ s, s.params = p → run s = .ok (finish { s with fb := write s.fb s.epoch })

/-- A run that writes nothing. -/
theorem DecidedBy.of_eq {p : Params} {finish : State → State} {run : State → Except Fault State}
    (h : ∀ s, s.params = p → run s = .ok (finish s)) : DecidedBy p finish run :=
  .inr ⟨fun m _ => m, h⟩

/-- A run that writes `FB` first and then goes on with `next`. -/
theorem DecidedBy.seq {p : Params} {finish : State → State} {first next run : State → Except Fault State}
    (hfirst : DecidedBy p id first) (hnext : DecidedBy p finish next)
    (hrun : ∀ s, s.params = p → run s = (first s).bind next) : DecidedBy p finish run := by
  obtain ⟨f, hf⟩ | ⟨w, hw⟩ := hfirst
  · exact .inl ⟨f, fun s hs => by rw [hrun s hs, hf s hs]; rfl⟩
  · have hgoesOn : ∀ s, s.params = p → run s = next { s with fb := w s.fb s.epoch } :=
      fun s hs => by rw [hrun s hs, hw s hs]; rfl
    obtain ⟨f, hf⟩ | ⟨w', hw'⟩ := hnext
    · exact .inl ⟨f, fun s hs => (hgoesOn s hs).trans (hf _ hs)⟩
    · exact .inr ⟨fun m e => w' (w m e) e, fun s hs => (hgoesOn s hs).trans (hw' _ hs)⟩

/-- Only the constants decide whether `FB[i] <- v` answers (R14). -/
theorem fbWrite_decided (p : Params) (i : Nat) (v : Byte) : DecidedBy p id (fbWrite i v) := by
  by_cases hi : i < p.fbLen
  · exact .inr ⟨fun m _ => Memory.store m i v, fun s hs => fbWrite_eq v (hs ▸ hi)⟩
  · exact .inl ⟨.fbRange i, fun s hs => by rw [fbWrite, hs, if_neg hi]⟩

/-- Only the constants decide whether `MemWrite` answers (R14). -/
theorem memWrite_decided (p : Params) (a : Nat) (l : List Byte) : DecidedBy p id (memWrite a l) := by
  induction l generalizing a with
  | nil => exact .of_eq fun s _ => rfl
  | cons v l ih =>
    refine (fbWrite_decided p a v).seq (ih (a + 1)) fun s _ => ?_
    rw [memWrite]
    cases fbWrite a v s <;> rfl

/-- Only the constants decide whether a glyph's cell can be written (R186). -/
theorem blitGlyph_decided (p : Params) (x y : Int) (g : Nat) : DecidedBy p id (blitGlyph x y g) := by
  refine (memWrite_decided p (glyphOffset p x y) (p.glyphRow g)).imp ?_ ?_
  · rintro ⟨f, hf⟩
    exact ⟨f, by rintro s rfl; exact hf s rfl⟩
  · rintro ⟨write, hwrite⟩
    exact ⟨write, by rintro s rfl; exact hwrite s rfl⟩

/-- Only the constants decide whether a pixel write answers (R142). -/
theorem writePixel_decided (p : Params) (x y : Int) (on : Bool) : DecidedBy p id (writePixel x y on) := by
  by_cases hi : pixelIndex p x y < p.fbLen
  · refine .inr ⟨fun m e => Memory.store m (pixelIndex p x y)
      (writtenByte ((Memory.lookup m (pixelIndex p x y)).getD (Config.fbDraw e (pixelIndex p x y))) y on), ?_⟩
    rintro s rfl
    simp only [writePixel, fbRead_eq hi, fbWrite_eq _ hi, fbByte, id]
  · refine .inl ⟨.fbRange (pixelIndex p x y), ?_⟩
    rintro s rfl
    simp only [writePixel, fbRead, if_neg hi]

/-- Only the constants decide how a run of points ends (R163). -/
theorem plotPoints_decided (p : Params) (on : Bool) (ps : List (Int × Int)) :
    ∃ e : Ending, DecidedBy p e.apply (plotPoints on ps) := by
  induction ps with
  | nil => exact ⟨.responds (okResponse []), .of_eq fun s _ => rfl⟩
  | cons q rest ih =>
    obtain ⟨x, y⟩ := q
    by_cases hb : InBounds p x y
    · obtain ⟨e, he⟩ := ih
      refine ⟨e, (writePixel_decided p x y on).seq he fun s hs => ?_⟩
      rw [plotPoints, hs, if_pos hb]
      cases writePixel x y on s <;> rfl
    · exact ⟨.traps .outOfBounds (pointInfo x y), .of_eq fun s hs => by rw [plotPoints, hs, if_neg hb, Ending.apply]⟩

/-- Only the constants decide how the loop of `WSTR` ends (R188). -/
theorem drawText_decided (p : Params) (x y : Int) (n : Nat) (text : List Byte) (j : Nat) :
    ∃ e : Ending, DecidedBy p e.apply (drawText x y n text j) := by
  induction text generalizing j with
  | nil => exact ⟨.responds (okResponse []), .of_eq fun s _ => rfl⟩
  | cons ch rest ih =>
    by_cases hneg : x + 8 * (j : Int) < 0 ∨ y < 0
    · exact ⟨.traps .negativeOrigin (pointInfo (x + 8 * (j : Int)) y),
        .of_eq fun s _ => by rw [drawText, if_pos hneg, Ending.apply]⟩
    by_cases hover : x + 8 * (j : Int) > (p.width : Int) - 8
    · exact ⟨.traps .stringOverrun (overrunInfo (x + 8 * (j : Int)) j n),
        .of_eq fun s hs => by rw [drawText, hs, if_neg hneg, if_pos hover, Ending.apply]⟩
    obtain ⟨e, he⟩ := ih (j + 1)
    refine ⟨e, (blitGlyph_decided p (x + 8 * (j : Int)) y (glyphOf ch)).seq he fun s hs => ?_⟩
    rw [drawText, hs, if_neg hneg, if_neg hover]
    cases blitGlyph (x + 8 * (j : Int)) y (glyphOf ch) s <;> rfl

/-- Only the constants decide how a `WSTR` ends (R188). -/
theorem exec_wstr_decided (p : Params) (x y : Half) (text : List Byte) :
    ∃ (e : Ending) (run : State → Except Fault State),
      DecidedBy p e.apply run ∧ ∀ s, s.params = p → exec (.wstr x y text) s = outcome (run s) := by
  by_cases hoff : OffScreen p (coord x) (coord y)
  · refine ⟨.responds (okResponse []), _, .of_eq fun s _ => rfl, ?_⟩
    rintro s rfl
    exact exec_wstr_of_offScreen text hoff
  · obtain ⟨e, he⟩ := drawText_decided p (coord x) (coord y) text.length text 0
    refine ⟨e, _, he, ?_⟩
    rintro s rfl
    exact exec_wstr_of_not_offScreen text hoff

/-- Only the constants decide how an operation on the framebuffer ends that is not `FBRD` (R221). -/
theorem exec_decided (p : Params) {i : Instr} (hbus : isBusOp i = false) (hread : ∀ idx, i ≠ .fbrd idx) :
    ∃ (e : Ending) (run : State → Except Fault State),
      DecidedBy p e.apply run ∧ ∀ s, s.params = p → exec i s = outcome (run s) := by
  cases i with
  | init | scroll enabled | render sc ec sp ep => exact Bool.noConfusion hbus
  | fbrd idx => exact absurd rfl (hread idx)
  | setpix x y on =>
    obtain ⟨e, he⟩ := plotPoints_decided p on [(coord x, coord y)]
    refine ⟨e, _, he, ?_⟩
    rintro s rfl
    by_cases hb : InBounds s.params (coord x) (coord y)
    · exact exec_setpix_eq_plotPoints on hb
    · rw [exec_setpix_of_not_inBounds on hb, plotPoints, if_neg hb, outcome]
  | line x0 y0 x1 y1 on =>
    obtain ⟨e, he⟩ := plotPoints_decided p on (linePoints (coord x0) (coord y0) (coord x1) (coord y1))
    exact ⟨e, _, he, fun s _ => rfl⟩
  | wchar x y ch =>
    obtain ⟨e, run, he, hrun⟩ := exec_wstr_decided p x y [ch]
    exact ⟨e, run, he, fun s hs => (wstrOfOneCharacterIsWchar s x y ch).symm.trans (hrun s hs)⟩
  | wstr x y text => exact exec_wstr_decided p x y text
  | fbwr idx data =>
    by_cases hlt : idx.toNat < p.fbLen
    · refine ⟨.responds (okResponse []), _, .inr ⟨fun m _ => Memory.store m idx.toNat data, fun s _ => rfl⟩, ?_⟩
      rintro s rfl
      exact exec_fbwr_of_lt data hlt
    · refine ⟨.traps .fbIndexRange (indexInfo idx), _, .of_eq fun s _ => rfl, ?_⟩
      rintro s rfl
      exact exec_fbwr_of_le data (Nat.le_of_not_lt hlt)
  | fbfill data =>
    refine ⟨.responds (okResponse []), _,
      .inr ⟨fun _ _ => (List.range p.fbLen).map (fun i => (i, data)), fun s _ => rfl⟩, ?_⟩
    rintro s rfl
    rfl
  | geom =>
    refine ⟨.responds (okResponse (geometryBytes p)), _, .of_eq fun s _ => rfl, ?_⟩
    rintro s rfl
    rfl

/-- An operation on the framebuffer that is not `FBRD` and ends in one state ends in the same way in every state with
the same constants. -/
theorem exec_ending {i : Instr} {s t : State} (hbus : isBusOp i = false) (hread : ∀ idx, i ≠ .fbrd idx)
    (h : exec i s = .next t) :
    ∃ (e : Ending) (write : Memory → Nat → Memory), ∀ s', s'.params = s.params →
      exec i s' = .next (e.apply { s' with fb := write s'.fb s'.epoch }) := by
  obtain ⟨e, run, hdecided, hrun⟩ := exec_decided s.params hbus hread
  obtain ⟨f, hf⟩ | ⟨write, hwrite⟩ := hdecided
  · rw [hrun s rfl, hf s rfl] at h
    cases h
  · exact ⟨e, write, fun s' hs => by rw [hrun s' hs, hwrite s' hs, outcome]⟩

/-! ### `INITED` (R222) -/

/-- A run of `INIT` does not look at `INITED`, and at its end it writes it (R32). -/
theorem sendFrom_init_inited (frames : List (List Byte)) (k : Nat) (s : State) (b : Bool) :
    ∃ b', sendFrom .init frames k { s with inited := b } = { sendFrom .init frames k s with inited := b' } := by
  induction frames generalizing k s with
  | nil => exact ⟨true, rfl⟩
  | cons f fs ih =>
    simp only [sendFrom]
    split
    · exact ⟨b, rfl⟩
    · exact ih (k + 1) (takeAnswer .ok (issue .init k f s))
    · exact ⟨false, rfl⟩

/-- Settles O42: the two traps, and for each other operation its ending with the other value of the flag. -/
theorem onlyRenderAndScrollLookAtInited : Obligations.OnlyRenderAndScrollLookAtInited := by
  refine ⟨fun s sc ec sp ep h => ⟨_, exec_render_of_not_inited h, rfl⟩,
    fun s enabled h => ⟨_, exec_scroll_of_not_inited enabled h, rfl⟩, fun i s t b hexec hrender hscroll => ?_⟩
  have general (hbus : isBusOp i = false) (hread : ∀ idx, i ≠ .fbrd idx) :
      ∃ b', exec i { s with inited := b } = .next { t with inited := b' } := by
    obtain ⟨e, write, hend⟩ := exec_ending hbus hread hexec
    cases hexec.symm.trans (hend s rfl)
    exact ⟨b, (hend { s with inited := b } rfl).trans (by cases e <;> rfl)⟩
  cases i with
  | init =>
    cases hexec
    obtain ⟨b', hsend⟩ := sendFrom_init_inited (seqFrames s.params.initSeq) 0 s b
    exact ⟨b', congrArg _ hsend⟩
  | render sc ec sp ep => exact absurd rfl (hrender sc ec sp ep)
  | scroll enabled => exact absurd rfl (hscroll enabled)
  | fbrd idx =>
    by_cases hlt : idx.toNat < s.params.fbLen
    · rw [exec_fbrd_of_lt hlt] at hexec
      cases hexec
      exact ⟨b, exec_fbrd_of_lt (s := { s with inited := b }) hlt⟩
    · rw [exec_fbrd_of_le (Nat.le_of_not_lt hlt)] at hexec
      cases hexec
      exact ⟨b, exec_fbrd_of_le (s := { s with inited := b }) (Nat.le_of_not_lt hlt)⟩
  | setpix | line | wchar | wstr | fbwr | fbfill | geom => exact general rfl (by simp)

/-! ### What `FB` holds (R63, R221) -/

/-- One transaction's frame under two contents of `FB`: the same, or two data frames of as many streamed bytes. -/
def SameButSlice (f f' : List Byte) : Prop :=
  f' = f ∨ ∃ slice slice', slice'.length = slice.length ∧ f = dataFrame slice ∧ f' = dataFrame slice'

/-- Such frames to the same address with the same answer are transactions that differ in their stream alone. -/
theorem SameButSlice.entry {f f' : List Byte} (h : SameButSlice f f') (addr : Nat) (a : BusStatus) :
    SameButStream ⟨addr, f, a⟩ ⟨addr, f', a⟩ := by
  obtain rfl | ⟨slice, slice', hlen, rfl, rfl⟩ := h
  · exact .inl rfl
  · exact .inr ⟨slice, slice', hlen, rfl, rfl⟩

/-- The transactions of two runs of such frames, all answered `ok`, differ in their streams alone. -/
theorem forall₂_okEntry (p : Params) {frames frames' : List (List Byte)}
    (h : List.Forall₂ SameButSlice frames frames') :
    List.Forall₂ SameButStream (frames.map (okEntry p)) (frames'.map (okEntry p)) := by
  rw [List.forall₂_map_left_iff, List.forall₂_map_right_iff]
  exact h.imp fun f f' hslice => hslice.entry p.devAddr .ok

/-- The frames of a bus operation under another content of `FB`: as many, and all the same but for `RENDER`'s data
frame (R204). -/
theorem jobFrames_content {job : BusJob} {s s' : State} {frames : List (List Byte)} (hj : JobReady job s)
    (hp : s'.params = s.params) (h : jobFrames job s = .ok frames) :
    ∃ frames', jobFrames job s' = .ok frames' ∧ List.Forall₂ SameButSlice frames frames' ∧
      ((∀ a, job ≠ .render a) → frames' = frames) := by
  have same (l : List (List Byte)) : List.Forall₂ SameButSlice l l := List.forall₂_same.2 fun _ _ => .inl rfl
  cases job with
  | init =>
    cases h
    exact ⟨seqFrames s.params.initSeq, by rw [jobFrames, hp], same _, fun _ => rfl⟩
  | scroll enabled =>
    cases h
    exact ⟨seqFrames (s.params.scrollSeq enabled), by rw [jobFrames, hp], same _, fun _ => rfl⟩
  | render a =>
    have ha := hj.2 a rfl
    rw [jobFrames_render ha] at h
    cases h
    refine ⟨_, jobFrames_render (hp ▸ ha), ?_, fun hne => absurd rfl (hne a)⟩
    rw [hp]
    exact List.rel_append (same _) (.cons (.inr ⟨_, _, by simp, rfl, rfl⟩) .nil)

/-- Operation `i` ends alike: in `t` when begun in `s`, and in `u` when begun with another content of `FB` and the
draw `e` (R221). -/
structure EndsAlike (i : Instr) (e : Nat) (s t u : State) : Prop where
  rest : u = { t with fb := u.fb, epoch := e, respLog := u.respLog, busLog := u.busLog }
  respLog : (∀ idx, i ≠ .fbrd idx) → u.respLog = t.respLog
  busLog : (∀ sc ec sp ep, i ≠ .render sc ec sp ep) → u.busLog = t.busLog
  byte : u.respLog = t.respLog ∨
    ∃ v v', t.respLog = s.respLog ++ [[0x00#8, v]] ∧ u.respLog = s.respLog ++ [[0x00#8, v']]
  stream : ∃ issued issued', t.busLog = s.busLog ++ issued ∧ u.busLog = s.busLog ++ issued' ∧
    List.Forall₂ SameButStream issued issued'

/-- An ending that is the same under both contents. -/
theorem endsAlike_of_ending (i : Instr) (en : Ending) (s : State) (m m' : Memory) (e : Nat) :
    EndsAlike i e s (en.apply { s with fb := m }) (en.apply { s with fb := m', epoch := e }) := by
  cases en <;>
    exact ⟨rfl, fun _ => rfl, fun _ => rfl, .inl rfl, [], [], (List.append_nil _).symm, (List.append_nil _).symm, .nil⟩

/-- The transactions of two runs of such frames up to frame `j`, answered alike. -/
theorem exists_frame_content (p : Params) {frames frames' : List (List Byte)} {j : Nat} {frame : List Byte}
    (hf : List.Forall₂ SameButSlice frames frames') (hframe : frames[j]? = some frame) :
    ∃ frame', frames'[j]? = some frame' ∧ (frames' = frames → frame' = frame) ∧
      ∀ a, List.Forall₂ SameButStream ((frames.take j).map (okEntry p) ++ [⟨p.devAddr, frame, a⟩])
        ((frames'.take j).map (okEntry p) ++ [⟨p.devAddr, frame', a⟩]) := by
  obtain ⟨hj, rfl⟩ := List.getElem?_eq_some_iff.1 hframe
  have hj' : j < frames'.length := hf.length_eq ▸ hj
  have hslice : SameButSlice frames[j] frames'[j] := hf.get hj hj'
  exact ⟨frames'[j], List.getElem?_eq_getElem hj', by rintro rfl; rfl,
    fun a => List.rel_append (forall₂_okEntry p (List.forall₂_take j hf)) (.cons (hslice.entry p.devAddr a) .nil)⟩

/-- A run through as many frames, answered alike, ends alike under another content of `FB`, with transactions that
differ where the frames do. -/
theorem sendFrom_content (job : BusJob) {frames frames' : List (List Byte)}
    (hf : List.Forall₂ SameButSlice frames frames') (k : Nat) (s : State) (m : Memory) (e : Nat) :
    ∃ issued issued', (sendFrom job frames k s).busLog = s.busLog ++ issued ∧
      sendFrom job frames' k { s with fb := m, epoch := e } =
        { sendFrom job frames k s with fb := m, epoch := e, busLog := s.busLog ++ issued' } ∧
      List.Forall₂ SameButStream issued issued' ∧ (frames' = frames → issued' = issued) := by
  let s' : State := { s with fb := m, epoch := e }
  obtain ⟨more, hans, hsend⟩ | ⟨j, more, frame, -, hans, hframe, hsend⟩ | ⟨j, frame, -, hans, hframe, hsend⟩ :=
    sendFrom_cases job frames k s
  · refine ⟨_, _, by rw [hsend, finishOk_eq], ?_, forall₂_okEntry s.params hf, fun h => by rw [h]⟩
    rw [sendFrom_allOk job frames' k s' more (hf.length_eq ▸ hans), hsend, finishOk_eq, finishOk_eq]
    cases job <;> rfl
  · obtain ⟨frame', hframe', hsame, hissued⟩ := exists_frame_content s.params hf hframe
    refine ⟨_, _, by rw [hsend, finishFail_eq, List.append_assoc], ?_, hissued .fail, fun h => by rw [hsame h, h]⟩
    rw [sendFrom_fail job frames' k j s' more frame' hframe' hans, hsend, finishFail_eq, finishFail_eq,
      List.append_assoc]
    cases job <;> rfl
  · obtain ⟨frame', hframe', hsame, hissued⟩ := exists_frame_content s.params hf hframe
    refine ⟨_, _, by rw [hsend, List.append_assoc], ?_, hissued .pending, fun h => by rw [hsame h, h]⟩
    rw [sendFrom_wait job frames' k j s' frame' hframe' hans, hsend, List.append_assoc]

/-- A bus operation with a check that fails traps in every state with the same constants and `INITED` (R201, R222). -/
theorem exec_jobInstr_of_not_ready {job : BusJob} {s : State} (h : ¬ JobReady job s) :
    ∃ c info, ∀ s', s'.params = s.params → s'.inited = s.inited →
      exec (jobInstr job) s' = .next (raiseFault c info s') := by
  cases job with
  | init => exact absurd (jobReady_init s) h
  | scroll enabled =>
    have hi : s.inited = false := (Bool.not_eq_true _).mp fun hi => h (jobReady_scroll hi)
    exact ⟨_, _, fun s' _ hi' => exec_scroll_of_not_inited enabled (hi'.trans hi)⟩
  | render a =>
    by_cases hi : s.inited = true
    · have ha : ¬ AreaOk s.params a := fun ha => h (jobReady_render hi ha)
      exact ⟨_, _, fun s' hp hi' => exec_render_of_not_areaOk (hi'.trans hi) (hp ▸ ha)⟩
    · exact ⟨_, _, fun s' _ hi' => exec_render_of_not_inited (hi'.trans ((Bool.not_eq_true _).mp hi))⟩

/-- A bus operation ends alike under another content of `FB`. -/
theorem exec_jobInstr_endsAlike (job : BusJob) (s t : State) (m : Memory) (e : Nat)
    (hexec : exec (jobInstr job) s = .next t) :
    ∃ u, exec (jobInstr job) { s with fb := m, epoch := e } = .next u ∧ EndsAlike (jobInstr job) e s t u := by
  by_cases hj : JobReady job s
  · obtain ⟨frames, hframes⟩ := jobFrames_total hj
    obtain ⟨frames', hframes', hslice, hsame⟩ :=
      jobFrames_content (s' := { s with fb := m, epoch := e }) hj rfl hframes
    cases (exec_jobInstr_frames hj hframes).symm.trans hexec
    refine ⟨_, exec_jobInstr_frames (s := { s with fb := m, epoch := e }) hj hframes', ?_⟩
    obtain ⟨issued, issued', hlog, hrun, hissued, heq⟩ := sendFrom_content job hslice 0 s m e
    rw [hrun]
    refine ⟨rfl, fun _ => rfl, fun hne => ?_, .inl rfl, issued, issued', hlog, rfl, hissued⟩
    have hframes : frames' = frames := hsame fun a ha => hne _ _ _ _ (congrArg jobInstr ha)
    exact hlog.symm ▸ congrArg _ (heq hframes)
  · obtain ⟨c, info, htrap⟩ := exec_jobInstr_of_not_ready hj
    cases (htrap s rfl rfl).symm.trans hexec
    exact ⟨_, htrap { s with fb := m, epoch := e } rfl rfl, endsAlike_of_ending _ (.traps c info) s s.fb m e⟩

/-- `FBRD` ends alike under another content of `FB`, but for the byte it answers (R147). -/
theorem exec_fbrd_endsAlike (idx : Half) (s t : State) (m : Memory) (e : Nat) (hexec : exec (.fbrd idx) s = .next t) :
    ∃ u, exec (.fbrd idx) { s with fb := m, epoch := e } = .next u ∧ EndsAlike (.fbrd idx) e s t u := by
  by_cases hlt : idx.toNat < s.params.fbLen
  · cases (exec_fbrd_of_lt hlt).symm.trans hexec
    exact ⟨_, exec_fbrd_of_lt (s := { s with fb := m, epoch := e }) hlt, rfl, fun h => absurd rfl (h idx), fun _ => rfl,
      .inr ⟨_, _, rfl, rfl⟩, [], [], (List.append_nil _).symm, (List.append_nil _).symm, .nil⟩
  · have hle := Nat.le_of_not_lt hlt
    cases (exec_fbrd_of_le hle).symm.trans hexec
    exact ⟨_, exec_fbrd_of_le (s := { s with fb := m, epoch := e }) hle,
      endsAlike_of_ending _ (.traps .fbIndexRange (indexInfo idx)) s s.fb m e⟩

/-- Settles O45: the bus operations by their frames, `FBRD` by its byte, and every other operation by an ending that the
constants alone decide. -/
theorem noContentOfTheBufferSteersAnOperation : Obligations.NoContentOfTheBufferSteersAnOperation := by
  intro i s t m e hexec
  suffices h : ∃ u, exec i { s with fb := m, epoch := e } = .next u ∧ EndsAlike i e s t u by
    obtain ⟨u, hu, hrest, hresp, hbus, hbyte, hstream⟩ := h
    exact ⟨u, hu, hrest, hresp, hbus, hbyte, hstream⟩
  have general (hbus : isBusOp i = false) (hread : ∀ idx, i ≠ .fbrd idx) :
      ∃ u, exec i { s with fb := m, epoch := e } = .next u ∧ EndsAlike i e s t u := by
    obtain ⟨en, write, hend⟩ := exec_ending hbus hread hexec
    cases hexec.symm.trans (hend s rfl)
    exact ⟨_, hend { s with fb := m, epoch := e } rfl, endsAlike_of_ending i en s _ _ e⟩
  cases i with
  | init => exact exec_jobInstr_endsAlike .init s t m e hexec
  | scroll enabled => exact exec_jobInstr_endsAlike (.scroll enabled) s t m e hexec
  | render sc ec sp ep => exact exec_jobInstr_endsAlike (.render ⟨sc, ec, sp, ep⟩) s t m e hexec
  | fbrd idx => exact exec_fbrd_endsAlike idx s t m e hexec
  | setpix | line | wchar | wstr | fbwr | fbfill | geom => exact general rfl (by simp)

end Sys2Proof.Machine
end

section
/-! Reset (70_reset_and_hazards.md R250): when it lands, and what is left of the operation it abandons. -/

namespace Sys2Proof.Machine

/-! ### The next transition into `EXEC` (R26) -/

section
variable {s u : State}

theorem enterExec_of_packet {p : List Byte} {rest : List (List Byte)} (hp : s.phase = .idle)
    (hc : s.cmdPort = p :: rest) : enterExec s = some (acceptPacket rest s) := by
  simp only [enterExec, hp, hc]

theorem enterExec_of_answer {job : BusJob} {k : Nat} {a : BusAnswer} {as : List BusAnswer}
    (hp : s.phase = .waitBus job k) (ha : s.answers = a :: as) : enterExec s = some (takeAnswer a s) := by
  simp only [enterExec, hp, ha]

theorem enterExec_of_exec (hp : s.phase = .exec) : enterExec s = some s := by
  simp only [enterExec, hp]

theorem enterExec_eq_none (h : (s.phase = .idle ∧ s.cmdPort = []) ∨ (IsWaiting s ∧ s.answers = []) ∨ s.phase = .halt) :
    enterExec s = none := by
  obtain ⟨hp, hc⟩ | ⟨⟨job, k, hp⟩, ha⟩ | hp := h
  · simp only [enterExec, hp, hc]
  · simp only [enterExec, hp, ha]
  · simp only [enterExec, hp]

/-! ### A step with a reset asserted to land in `EXEC` -/

theorem step_inExec_lands (hg : s.params.geometryOk = true) (hr : s.resetPin = some .inExec)
    (hu : enterExec s = some u) : step s = .next (resetEvent u) := by
  simp only [step_reset hg hr, resetTurn, hu]

theorem step_inExec_waits (hg : s.params.geometryOk = true) (hr : s.resetPin = some .inExec)
    (hu : enterExec s = none) : step s = .next s := by
  simp only [step_reset hg hr, resetTurn, hu]

/-- A reset lands on the state itself when it is asserted at once, and when CORE is in `EXEC` already. -/
theorem step_resets_now (hg : s.params.geometryOk = true)
    (hr : s.resetPin = some .now ∨ (s.resetPin = some .inExec ∧ s.phase = .exec)) :
    step s = .next (resetEvent s) := by
  obtain hnow | ⟨hr, hp⟩ := hr
  · exact step_reset hg hnow
  · exact step_inExec_lands hg hr (enterExec_of_exec hp)

/-- A waiting CORE takes the answer, and the reset lands before its next transaction: the history that ends holds the
answer to the one that was pending (R110, R250). -/
theorem step_inExec_of_answer {job : BusJob} {k : Nat} {a : BusAnswer} {as : List BusAnswer} {old : List BusEntry}
    {addr : Nat} {bytes : List Byte} (hg : s.params.geometryOk = true) (hr : s.resetPin = some .inExec)
    (hp : s.phase = .waitBus job k) (ha : s.answers = a :: as) (hlog : s.busLog = old ++ [⟨addr, bytes, .pending⟩]) :
    step s = .next (resetEvent (takeAnswer a s)) ∧
      (resetEvent (takeAnswer a s)).oldBusLogs = s.oldBusLogs ++ [old ++ [⟨addr, bytes, a.status⟩]] ∧
      (resetEvent (takeAnswer a s)).answers = as := by
  refine ⟨step_inExec_lands hg hr (enterExec_of_answer hp ha), ?_, ?_⟩
  · rw [resetEvent_oldBusLogs, takeAnswer_oldBusLogs, takeAnswer_busLog, hlog, setLastAnswer_append]
  · rw [resetEvent_answers, takeAnswer_answers, ha, List.tail_cons]

end

/-- Settles O10: an operation that waits is a bus operation with its transaction `k` pending, so CORE takes the answer and
the reset abandons the rest. -/
theorem resetBetweenTransactions : Obligations.ResetBetweenTransactions := by
  intro i s t job k a hg hexec hphase
  obtain ⟨job, frames, k, frame, -, -, hframes, hframe, -, rfl⟩ := exec_waiting hexec ⟨_, _, hphase⟩
  cases hphase
  obtain ⟨hstep, hold, hans⟩ :=
    step_inExec_of_answer (s := assertReset .inExec (awaiting job frames k frame [a] s)) hg rfl rfl rfl rfl
  exact ⟨frames, frame, _, hframes, hframe, hstep, leftByReset_resetEvent rfl rfl, hold, rfl, hans⟩

/-! ### Reset in any phase -/

/-- No operation changes the reset input, the draw or the histories that resets ended (R250). -/
theorem exec_keeps_reset {i : Instr} {s t : State} (h : exec i s = .next t) :
    t.resetPin = s.resetPin ∧ t.epoch = s.epoch ∧ t.oldBusLogs = s.oldBusLogs := by
  obtain ⟨-, ⟨data, ht⟩, -⟩ | ⟨⟨c, info, ht⟩, -, -⟩ | ⟨job, frames, -, -, -, rfl⟩ := exec_cases h
  · rw [ht]; exact ⟨rfl, rfl, rfl⟩
  · rw [ht]; exact ⟨rfl, rfl, rfl⟩
  · rw [(sendFrom_ends job frames 0 s).1]; exact ⟨rfl, rfl, rfl⟩

/-- Settles O9: a reset lands on the state itself or on the one that the next transition into `EXEC` leaves; where there is
no such transition CORE waits. -/
theorem resetInAnyPhase : Obligations.ResetInAnyPhase := by
  refine ⟨fun s hg => ⟨fun hr => ?_, fun hr => ⟨fun p rest hp hc => ?_, ?_, fun hwait => ?_⟩⟩,
    fun i s t => exec_keeps_reset⟩
  · exact ⟨_, step_resets_now hg hr, leftByReset_resetEvent rfl rfl, rfl, rfl, rfl, step_idle_empty hg rfl rfl⟩
  · exact ⟨_, step_inExec_lands hg hr (enterExec_of_packet hp hc), leftByReset_resetEvent rfl rfl, rfl, rfl, rfl⟩
  · intro job k a as old addr bytes hp ha hlog
    obtain ⟨hstep, hold, hans⟩ := step_inExec_of_answer hg hr hp ha hlog
    exact ⟨_, hstep, leftByReset_resetEvent rfl rfl, hold, rfl, hans⟩
  · exact step_inExec_waits hg hr (enterExec_eq_none hwait)

end Sys2Proof.Machine
end
